-- ==== Sys2Proof/Word.lean ====
section
/-! DEFINITION. The word types of the block (spec 00_scope.md R8): an unsigned byte and the 32-bit
command word. A SampleBlock element is NOT a word here: rule R8 makes every arithmetic value a
mathematical integer, so an element is an `Int` (its stored range is `State`'s invariant). -/

namespace Sys2Proof

/-- An unsigned 8-bit value: a colormap entry, a palette index, an RGB byte (R8). -/
abbrev Byte := BitVec 8

/-- A 32-bit word: a command word (R80) or the value of `CMAP_STATUS` (R28). -/
abbrev Word := BitVec 32

end Sys2Proof
end

