-- ==== Sys2Proof/Config.lean ====
section
/-! DEFINITION. The parameters of one built block (spec 00_scope.md R5, R6, R7): fixed per block, not
switchable at run time. A configuration outside R7's admitted values cannot be written down, which is
93_implementation_defined.md U2 ("the model is not instantiated for it").

Every claim is about a state, and a state carries its `Config`, so no claim is about one table or one
precision unless it says so (R25). No open value of this spec needs an uninterpreted constant: the
spec gives every in-contract result a value, and refuses the rest (93 Part 1). -/

namespace Sys2Proof

/-- `B` = BITS_IN_JSAMPLE (R5): 8 or 12, nothing else. -/
inductive Precision where
  | b8
  | b12
deriving DecidableEq, Repr

/-- `FIXTAB` (R7): which of the two integer constant tables the block holds (R24, R25). -/
inductive FixTab where
  /-- `FIXTAB_TRUNC`, the default: `floor (c_k * 2^13)` (R24). -/
  | trunc
  /-- `FIXTAB_REF`: `floor (c_k * 2^13 + 0.5)` (R25). -/
  | ref
deriving DecidableEq, Repr

/-- `LANES` of the DCT unit (R7): a divisor of 8. -/
inductive DctLanes where
  | one
  | two
  | four
  | eight
deriving DecidableEq, Repr

/-- The lower limit R7 sets on `W_ELEM`: 16 for `B = 8`, 19 for `B = 12`. -/
def Precision.minElemWidth : Precision → Nat
  | .b8 => 16
  | .b12 => 19

/-- R7's table. `W_ACC` is no field: it is unbounded, the exact integers (R7, 92 D5); finite datapaths
are `Machine/Datapath.lean`. `CMAP_DEPTH` is no field: its one admitted value is 256. `BUSMAP` and
`BLK_BYTE_ORDER` are no fields: no rule reads them (R52, R57). -/
structure Config where
  /-- `B`. -/
  precision : Precision
  /-- `FIXTAB`. -/
  fixTab : FixTab
  /-- `W_ELEM`: bits of one SampleBlock element. -/
  wElem : Nat
  /-- `MAX_ROW`: 0 … 65535. -/
  maxRow : BitVec 16
  /-- `LANES` of the DCTU. -/
  dctLanes : DctLanes
  /-- `LANES` of the CEXU. -/
  cexLanes : Nat
  /-- `NUM_UNITS`: replicas of each unit. -/
  numUnits : Nat
  wElem_admitted : precision.minElemWidth ≤ wElem
  cexLanes_admitted : 1 ≤ cexLanes
  numUnits_admitted : 1 ≤ numUnits
deriving DecidableEq, Repr

/-- R7's defaults. `LANES` has no default (OPEN, 92 D19): 8 and 8 here are a DESIGN CHOICE (log 4). -/
def Config.default : Config where
  precision := .b8
  fixTab := .trunc
  wElem := 32
  maxRow := 65535
  dctLanes := .eight
  cexLanes := 8
  numUnits := 1
  wElem_admitted := by decide
  cexLanes_admitted := by decide
  numUnits_admitted := by decide

end Sys2Proof
end

