-- ==== Sys2Proof/Syntax.lean ====
section
/-! DEFINITION. The nine operations of the command port (spec 30_encoding.md R84), one constructor per
row of opcode_table.json. An operand is the unsigned integer of its own bits (R82), so each operand
has exactly the width of its field: `I3` 3 bits, `L9` 9 bits, `P16` 16 bits (R81). -/

namespace Sys2Proof

inductive Instr where
  /-- `DCT_ROW r` (R112). -/
  | dctRow (r : BitVec 3)
  /-- `DCT_COL c` (R113). -/
  | dctCol (c : BitVec 3)
  /-- `DCT_FWD.S` (R114). -/
  | dctFwdS
  /-- `DCT_FWD.P` (R117). -/
  | dctFwdP
  /-- `CMAP_PUBLISH len` (R141). -/
  | cmapPublish (len : BitVec 9)
  /-- `CMAP_RELEASE` (R142). -/
  | cmapRelease
  /-- `CEXP_PIX p` (R143). -/
  | cexpPix (p : BitVec 16)
  /-- `CEXP_ROW.S n` (R144). -/
  | cexpRowS (n : BitVec 16)
  /-- `CEXP_ROW.P n` (R147). -/
  | cexpRowP (n : BitVec 16)
deriving DecidableEq, Repr

end Sys2Proof
end

