-- ==== Sys2Proof/WellFormed.lean ====
section
/-! DEFINITION. Which instructions have an encoding (spec 30_encoding.md R81, R84). The one condition
an operand's width does not already carry is `len ≤ 256` of format `L9`. -/

namespace Sys2Proof

def Instr.wellFormed : Instr → Bool
  | .dctRow _ => true
  | .dctCol _ => true
  | .dctFwdS => true
  | .dctFwdP => true
  | .cmapPublish len => decide (len.toNat ≤ 256)
  | .cmapRelease => true
  | .cexpPix _ => true
  | .cexpRowS _ => true
  | .cexpRowP _ => true

end Sys2Proof
end

