-- ==== Sys2Proof/Decode.lean ====
section
/-! DEFINITION. The command word (spec 30_encoding.md R80 to R88): the decoder of R85, total on every
32-bit word and naming why a word is reserved (R86), and after it the encoder, written from R84's
match column and R81's operand formats. -/

namespace Sys2Proof

/-- Why a command word is RESERVED (R86's list, in R86's order). The names are the model's; the spec
has one outcome, RESERVED. -/
inductive Reserved where
  /-- `OP` outside the seven opcodes. -/
  | opcode (op : BitVec 8)
  /-- `Z ≠ 0`. -/
  | zField
  /-- `STRAT = 1` on an operation without a strategy. -/
  | strategyBit
  /-- Non-zero must-be-zero bits of `ARG`. -/
  | argBits
  /-- `CMAP_PUBLISH` with `len` in 257..511. -/
  | publishLength
deriving DecidableEq, Repr

/-! ### The fields of R80 -/

def opField (cmd : Word) : BitVec 8 := cmd.extractLsb' 24 8

def stratField (cmd : Word) : BitVec 1 := cmd.extractLsb' 23 1

def zField (cmd : Word) : BitVec 7 := cmd.extractLsb' 16 7

def argField (cmd : Word) : BitVec 16 := cmd.extractLsb' 0 16

/-! ### The operand formats of R81 -/

/-- Format `N`: `ARG` must be 0. -/
def operandN (arg : BitVec 16) (i : Instr) : Except Reserved Instr :=
  if arg = 0 then .ok i else .error .argBits

/-- Format `I3`: `ARG[2:0]` is the operand, `ARG[15:3]` must be 0. -/
def operandI3 (arg : BitVec 16) (f : BitVec 3 → Instr) : Except Reserved Instr :=
  if arg.extractLsb' 3 13 = 0 then .ok (f (arg.extractLsb' 0 3)) else .error .argBits

/-- Format `L9`: `ARG[8:0]` is the operand, `ARG[15:9]` must be 0 and the operand at most 256. -/
def operandL9 (arg : BitVec 16) (f : BitVec 9 → Instr) : Except Reserved Instr :=
  if arg.extractLsb' 9 7 = 0 then
    if (arg.extractLsb' 0 9).toNat ≤ 256 then .ok (f (arg.extractLsb' 0 9))
    else .error .publishLength
  else .error .argBits

/-- An operation without a strategy: `STRAT` must be 0 (R83). -/
def withoutStrategy (strat : BitVec 1) (r : Except Reserved Instr) : Except Reserved Instr :=
  if strat = 0 then r else .error .strategyBit

/-- R85's case on `OP`, in R85's order. -/
def decodeOp (op : BitVec 8) (strat : BitVec 1) (arg : BitVec 16) : Except Reserved Instr :=
  if op = 0x10 then withoutStrategy strat (operandI3 arg .dctRow)
  else if op = 0x11 then withoutStrategy strat (operandI3 arg .dctCol)
  else if op = 0x12 then operandN arg (if strat = 0 then .dctFwdS else .dctFwdP)
  else if op = 0x20 then withoutStrategy strat (operandL9 arg .cmapPublish)
  else if op = 0x21 then withoutStrategy strat (operandN arg .cmapRelease)
  else if op = 0x22 then withoutStrategy strat (.ok (.cexpPix arg))
  else if op = 0x23 then .ok (if strat = 0 then .cexpRowS arg else .cexpRowP arg)
  else .error (.opcode op)

/-- R85: total, reads no state. -/
def decode (cmd : Word) : Except Reserved Instr :=
  if zField cmd = 0 then decodeOp (opField cmd) (stratField cmd) (argField cmd)
  else .error .zField

/-! ### The encoder -/

/-- The layout of R80: `OP ‖ STRAT ‖ Z = 0 ‖ ARG`. -/
def commandWord (op : BitVec 8) (strat : BitVec 1) (arg : BitVec 16) : Word :=
  op ++ strat ++ (0 : BitVec 7) ++ arg

/-- R84, R89: the word of an operation. For `CMAP_PUBLISH len` with `len > 256`, which has no
encoding, the word is the reserved one R86 names. -/
def encode : Instr → Word
  | .dctRow r => commandWord 0x10 0 ((0 : BitVec 13) ++ r)
  | .dctCol c => commandWord 0x11 0 ((0 : BitVec 13) ++ c)
  | .dctFwdS => commandWord 0x12 0 0
  | .dctFwdP => commandWord 0x12 1 0
  | .cmapPublish len => commandWord 0x20 0 ((0 : BitVec 7) ++ len)
  | .cmapRelease => commandWord 0x21 0 0
  | .cexpPix p => commandWord 0x22 0 p
  | .cexpRowS n => commandWord 0x23 0 n
  | .cexpRowP n => commandWord 0x23 1 n

/-! ### R84's table as data -/

/-- One row of R84: a word `cmd` selects it when `cmd & mask = match`. -/
structure OpcodeRow where
  mnemonic : String
  pattern : Word
  mask : Word
deriving DecidableEq, Repr

/-- The nine rows, as R84 prints them. -/
def opcodeTable : List OpcodeRow :=
  [⟨"DCT_ROW", 0x10000000, 0xFFFFFFF8⟩, ⟨"DCT_COL", 0x11000000, 0xFFFFFFF8⟩,
   ⟨"DCT_FWD.S", 0x12000000, 0xFFFFFFFF⟩, ⟨"DCT_FWD.P", 0x12800000, 0xFFFFFFFF⟩,
   ⟨"CMAP_PUBLISH", 0x20000000, 0xFFFFFE00⟩, ⟨"CMAP_RELEASE", 0x21000000, 0xFFFFFFFF⟩,
   ⟨"CEXP_PIX", 0x22000000, 0xFFFF0000⟩, ⟨"CEXP_ROW.S", 0x23000000, 0xFFFF0000⟩,
   ⟨"CEXP_ROW.P", 0x23800000, 0xFFFF0000⟩]

def OpcodeRow.selects (row : OpcodeRow) (cmd : Word) : Bool := cmd &&& row.mask == row.pattern

/-- The mnemonic R84 gives an operation. -/
def Instr.mnemonic : Instr → String
  | .dctRow _ => "DCT_ROW"
  | .dctCol _ => "DCT_COL"
  | .dctFwdS => "DCT_FWD.S"
  | .dctFwdP => "DCT_FWD.P"
  | .cmapPublish _ => "CMAP_PUBLISH"
  | .cmapRelease => "CMAP_RELEASE"
  | .cexpPix _ => "CEXP_PIX"
  | .cexpRowS _ => "CEXP_ROW.S"
  | .cexpRowP _ => "CEXP_ROW.P"

/-! ### The host's numbering of a table word -/

/-- The instruction read from a table row's bits `w` (`nbits` of them; those above are 0). A command
is one 32-bit word (R88), so more than 32 bits are no command. -/
def decodeTableWord (nbits w : Nat) : Option Instr :=
  if nbits ≤ 32 then
    match decode (BitVec.ofNat 32 (w % 2 ^ nbits)) with
    | .ok i => some i
    | .error _ => none
  else none

end Sys2Proof
end

