-- ==== Sys2Proof/Machine/State.lean ====
section
/-! DEFINITION. The state of the block (spec 10_state.md) as plain data, the host's inputs to it
(20_memory.md R54), the two ways a step can stop, and reset (R34, R190).

There is no program counter, flag, mode, trap or interrupt state (R22, R36, R172, R174, R176). The
constant table `FIX` (R24) is fixed by `cfg.fixTab` and written by nothing. -/

namespace Sys2Proof.Machine

/-! ### The data spaces -/

/-- A byte space (`CMAP_R`, `CMAP_G`, `CMAP_B`, `IDX`, `RGB`; R50), element index to byte, sorted by
index. An element is listed exactly when its defined-ness bit (R31) is 1: an unlisted element has
never been written and reads as no value (R12; log 2). -/
abbrev Memory := List Host.Cell

/-- The SampleBlock (R20): 64 signed elements in row-major order, each with its defined-ness bit
(R31). The value of an element whose bit is 0 is read by nothing. -/
structure Block where
  /-- `BLK[0..63]`. -/
  val : Vector Int 64
  /-- `BLKdef[0..63]`. -/
  defd : Vector Bool 64
deriving DecidableEq, Repr

/-- A channel of the colormap (R26) and of an RGB triplet, in canonical order R, G, B (R30, R140). -/
inductive Channel where
  | r
  | g
  | b
deriving DecidableEq, Repr

/-- The three colormap channels with their defined-ness (R26, R31). -/
structure Colormap where
  r : Memory
  g : Memory
  b : Memory
deriving DecidableEq, Repr

/-- The two stages of the transform: Pass 1 on rows, Pass 2 on columns (R104). -/
inductive Stage where
  | row
  | col
deriving DecidableEq, Repr

/-- The hidden sequencing state of R32 of a DCT unit (log 10). -/
inductive DctProgress where
  /-- No operation in progress. -/
  | idle
  /-- A `DCT_FWD`: R32's `(pass, done)`, the pass under way and the rows or columns of it already
  transformed, most recent first, none twice. -/
  | forward (pass : Stage) (done : List (BitVec 3))
deriving DecidableEq, Repr

/-- The hidden sequencing state of R32 of a colour-expansion unit (log 10). -/
inductive CexProgress where
  /-- No operation in progress. -/
  | idle
  /-- A `CEXP_ROW n`: the positions already expanded, most recent first, none twice. -/
  | row (n : BitVec 16) (done : List Nat)
deriving DecidableEq, Repr

/-- A replica of the DCT unit: its own block, and what it is in the middle of (R37, R32). -/
structure Dctu where
  blk : Block
  progress : DctProgress
deriving DecidableEq, Repr

/-- A replica of the colour-expansion unit: its own row buffers, and what it is in the middle of (R37,
R32). -/
structure Cexu where
  idx : Memory
  rgb : Memory
  progress : CexProgress
deriving DecidableEq, Repr

/-- The two functional units (R1). -/
inductive FuncUnit where
  | dctu
  | cexu
deriving DecidableEq, Repr

/-! ### The host side -/

/-- The host primitives of R54 (argument types: log 14). `issue` is `HostIssue(cmd)`. -/
inductive HostPrim where
  | wrBlk (i : Nat) (v : Int)
  | rdBlk (i : Nat)
  | wrCmap (ch : Channel) (i v : Nat)
  | rdCmap (ch : Channel) (i : Nat)
  | wrIdx (p v : Nat)
  | rdIdx (p : Nat)
  | rdRgb (k : Nat)
  | rdCsr
  | issue (cmd : Word)
deriving DecidableEq, Repr

/-- What the outside of the block can do to it, one thing at a time (R59). Every replica of each unit
has its own command port (R184): number `k` is replica `k` of the unit the primitive concerns (log 9). -/
inductive Event where
  /-- A host primitive at a command port `k`, carried out completely (R59, R175). -/
  | host (k : Nat) (p : HostPrim)
  /-- `HostIssue(cmd)` at a port `k`, carried out in the pieces of R32: it begins here (log 10). -/
  | start (k : Nat) (cmd : Word)
  /-- Replica `k` of a unit performs piece `j` (a row, a column, a position) of the operation it has
  begun. -/
  | work (unit : FuncUnit) (k : Nat) (j : Nat)
  /-- The reset event of R190, which may come while operations are in progress. -/
  | reset
deriving DecidableEq, Repr

/-- What a read primitive returned to the host (R54). -/
inductive Reply where
  | elem (v : Int)
  | byte (v : Byte)
  | status (w : Word)
deriving DecidableEq, Repr

/-! ### The state -/

structure State where
  /-- The parameters of this block (R7), `FIX` among them (R24): never written. -/
  cfg : Config
  /-- `CMAP_R`, `CMAP_G`, `CMAP_B` with their defined-ness, shared by every replica (R26, R37). -/
  cmap : Colormap
  /-- `CMAP_LEN`, 9 bits (R27). -/
  cmapLen : BitVec 9
  /-- `CMAP_FROZEN`, 1 bit (R27). -/
  cmapFrozen : Bool
  /-- The replicas 0 … `NUM_UNITS` − 1 of the DCT unit (R37). -/
  dctus : List Dctu
  /-- The replicas 0 … `NUM_UNITS` − 1 of the colour-expansion unit (R37). -/
  cexus : List Cexu
  /-- The model's own: the number of the command port the present primitive came in by (R66; log 12). -/
  port : Nat
  /-- The model's own: what the outside does next, in order (R59; log 5). -/
  inputs : List Event
  /-- The model's own: what the host's reads have returned, latest first (R54; log 7). -/
  replies : List Reply
deriving DecidableEq, Repr

/-! ### How a step stops -/

/-- The block raises nothing: "No operation … and no host primitive … can trap, fault, abort or return
an error" (R170), and 93 Part 1 treats no case as a fault. So there is no fault, and no constructor. -/
inductive Fault
deriving DecidableEq, Repr

/-- The spec's `refuse` (R11): the model has no next state and says nothing of the hardware. Every
refusal is SAFE: the hardware does something unspecified where the model stops. The spec has one
outcome and no cause (R173); the names, and which is given when several hold, are the model's
(log 8). -/
inductive Refusal where
  /-- An arm of `exec` without a meaning. No arm has it. Safe. -/
  | notModelled (mnemonic : String)
  /-- `HostIssue` of a reserved word (R86, U4); raised by `Machine/HostPort.lean`. Safe. -/
  | reservedEncoding (why : Reserved)
  /-- A port number that no replica has (R184); raised by `onDctu`, `onCexu`, `onColormap`, `reply`.
  Safe. -/
  | noSuchReplica
  /-- A colormap write, publish or release while some replica is expanding (R66, R142, U5); raised by
  `onColormap`. Safe. -/
  | expansionInProgress
  /-- An element index outside its space (R53, U8); raised by host primitives and `pixel`. Safe. -/
  | elementIndex
  /-- A host value outside the element's range (R54, U8); raised by host primitives. Safe. -/
  | elementValue
  /-- A read of an element never written (R12, U3). Safe. -/
  | undefinedElement
  /-- A DCT input outside `DOM_S` or `DOM_I` (R118, U1); raised by the DCT operations. Safe. -/
  | outsideDomain
  /-- `CMAP_FROZEN = 1` where 0 is required (R54, R141, U5). Safe. -/
  | colormapFrozen
  /-- `CMAP_FROZEN = 0` where 1 is required (R142, R143, R144, U5). Safe. -/
  | colormapOpen
  /-- `CMAP_PUBLISH` over an entry never written, or over more entries than there are (R141, U7). Safe. -/
  | colormapNotPopulated
  /-- A palette index `≥ CMAP_LEN` (R148, U6); raised by `pixel`. Safe. -/
  | paletteIndex
  /-- `CEXP_ROW n` with `n > MAX_ROW` (R144, U8). Safe. -/
  | rowTooLong
  /-- A piece of work that the operation in progress does not have left (R32). Safe. -/
  | noSuchWork
deriving DecidableEq, Repr

/-! ### Reset (R34, R190) -/

/-- Every element undefined. R34 gives the values as "unspecified"; 0 is a DESIGN CHOICE (log 1) that
nothing reads. -/
def Block.reset : Block where
  val := Vector.replicate 64 0
  defd := Vector.replicate 64 false

def Dctu.reset : Dctu where
  blk := Block.reset
  progress := .idle

def Cexu.reset : Cexu where
  idx := []
  rgb := []
  progress := .idle

/-- The state R34 gives a block of configuration `c` after reset, with nothing asked of it yet. -/
def State.resetOf (c : Config) : State where
  cfg := c
  cmap := ⟨[], [], []⟩
  cmapLen := 0
  cmapFrozen := false
  dctus := List.replicate c.numUnits Dctu.reset
  cexus := List.replicate c.numUnits Cexu.reset
  port := 0
  inputs := []
  replies := []

/-- The block of R7's default configuration, after reset. -/
def State.reset : State := State.resetOf Config.default

end Sys2Proof.Machine
end

