-- ==== Sys2Proof/Machine/Arith.lean ====
section
/-! DEFINITION. The arithmetic of the DCT unit in exact integers (spec 40_dct_forward.md R100 to R110,
R118, R120; 10_state.md R24, R25; 00_scope.md R5, R9). -/

namespace Sys2Proof.Machine

/-! ### Parameters (R5) -/

/-- `CONST_BITS`. -/
def constBits : Nat := 13

/-- `B` = BITS_IN_JSAMPLE. -/
def sampleBits : Precision → Nat
  | .b8 => 8
  | .b12 => 12

/-- `PASS1_BITS`. -/
def pass1Bits : Precision → Nat
  | .b8 => 2
  | .b12 => 1

/-- `SH_ROW` in the row stage, `SH_COL` in the column stage (R103). -/
def descaleShift (b : Precision) : Stage → Nat
  | .row => constBits - pass1Bits b
  | .col => constBits + pass1Bits b

/-! ### The constant table FIX (R24, R25) -/

/-- The twelve names of R24, in the order of its table. -/
inductive FixName where
  | c0_298631336
  | c0_390180644
  | c0_541196100
  | c0_765366865
  | c0_899976223
  | c1_175875602
  | c1_501321110
  | c1_847759065
  | c1_961570560
  | c2_053119869
  | c2_562915447
  | c3_072711026
deriving DecidableEq, Repr

/-- The literal `c_k` in units of 10⁻⁹ (R24's second column). -/
def fixLiteral : FixName → Nat
  | .c0_298631336 => 298631336
  | .c0_390180644 => 390180644
  | .c0_541196100 => 541196100
  | .c0_765366865 => 765366865
  | .c0_899976223 => 899976223
  | .c1_175875602 => 1175875602
  | .c1_501321110 => 1501321110
  | .c1_847759065 => 1847759065
  | .c1_961570560 => 1961570560
  | .c2_053119869 => 2053119869
  | .c2_562915447 => 2562915447
  | .c3_072711026 => 3072711026

/-- `FIXTAB_TRUNC` (R24's fourth column). -/
def fixTrunc : FixName → Int
  | .c0_298631336 => 2446
  | .c0_390180644 => 3196
  | .c0_541196100 => 4433
  | .c0_765366865 => 6269
  | .c0_899976223 => 7372
  | .c1_175875602 => 9632
  | .c1_501321110 => 12298
  | .c1_847759065 => 15136
  | .c1_961570560 => 16069
  | .c2_053119869 => 16819
  | .c2_562915447 => 20995
  | .c3_072711026 => 25171

/-- `FIXTAB_REF` (R25). -/
def fixRef : FixName → Int
  | .c0_298631336 => 2446
  | .c0_390180644 => 3196
  | .c0_541196100 => 4433
  | .c0_765366865 => 6270
  | .c0_899976223 => 7373
  | .c1_175875602 => 9633
  | .c1_501321110 => 12299
  | .c1_847759065 => 15137
  | .c1_961570560 => 16069
  | .c2_053119869 => 16819
  | .c2_562915447 => 20995
  | .c3_072711026 => 25172

/-- `FIX[k]` of a block with table `t`. -/
def fix : FixTab → FixName → Int
  | .trunc => fixTrunc
  | .ref => fixRef

/-! ### Shifts, products and rounding (R9, R100, R101) -/

/-- `x shl k = x * 2^k`, for negative `x` as well (R9). -/
def shl (x : Int) (k : Nat) : Int := x * 2 ^ k

/-- `x asr k = floor (x / 2^k)` (R9). -/
def asr (x : Int) (k : Nat) : Int := x / 2 ^ k

/-- The exact product (R100). -/
def multiply (v c : Int) : Int := v * c

/-- `DESCALE(x, n) = (x + 2^(n-1)) asr n`: the bias added once, to the whole sum (R101). -/
def descale (x : Int) (n : Nat) : Int := asr (x + 2 ^ (n - 1)) n

/-! ### The 8-point transform (R104) -/

/-- The 8 inputs or the 8 outputs of a 1-D transform. -/
structure Vec8 where
  x0 : Int
  x1 : Int
  x2 : Int
  x3 : Int
  x4 : Int
  x5 : Int
  x6 : Int
  x7 : Int
deriving DecidableEq, Repr

def Vec8.get (x : Vec8) : Fin 8 → Int
  | 0 => x.x0
  | 1 => x.x1
  | 2 => x.x2
  | 3 => x.x3
  | 4 => x.x4
  | 5 => x.x5
  | 6 => x.x6
  | 7 => x.x7

/-- Outputs 0 and 4 (R107): a left shift in the row stage, a DESCALE in the column stage
(90_conflicts.md C3). -/
def dcScale (b : Precision) : Stage → Int → Int
  | .row, v => shl v (pass1Bits b)
  | .col, v => descale v (pass1Bits b)

/-- Even outputs 0, 2, 4, 6 from `tmp0 … tmp3` (R106, R107, R108). -/
def evenPart (b : Precision) (F : FixName → Int) (st : Stage) (tmp0 tmp1 tmp2 tmp3 : Int) :
    Int × Int × Int × Int :=
  let sh := descaleShift b st
  let tmp10 := tmp0 + tmp3
  let tmp13 := tmp0 - tmp3
  let tmp11 := tmp1 + tmp2
  let tmp12 := tmp1 - tmp2
  let z1 := multiply (tmp12 + tmp13) (F .c0_541196100)
  (dcScale b st (tmp10 + tmp11),
   descale (z1 + multiply tmp13 (F .c0_765366865)) sh,
   dcScale b st (tmp10 - tmp11),
   descale (z1 + multiply tmp12 (-(F .c1_847759065))) sh)

/-- The sums that odd outputs 1, 3, 5, 7 are the DESCALE of, from `tmp4 … tmp7` (R109, R110). -/
def oddSums (F : FixName → Int) (tmp4 tmp5 tmp6 tmp7 : Int) : Int × Int × Int × Int :=
  let z1 := tmp4 + tmp7
  let z2 := tmp5 + tmp6
  let z3 := tmp4 + tmp6
  let z4 := tmp5 + tmp7
  let z5 := multiply (z3 + z4) (F .c1_175875602)
  let t4 := multiply tmp4 (F .c0_298631336)
  let t5 := multiply tmp5 (F .c2_053119869)
  let t6 := multiply tmp6 (F .c3_072711026)
  let t7 := multiply tmp7 (F .c1_501321110)
  let m1 := multiply z1 (-(F .c0_899976223))
  let m2 := multiply z2 (-(F .c2_562915447))
  let m3 := multiply z3 (-(F .c1_961570560)) + z5
  let m4 := multiply z4 (-(F .c0_390180644)) + z5
  (t7 + m1 + m4, t6 + m2 + m3, t5 + m2 + m4, t4 + m1 + m3)

/-- Odd outputs 1, 3, 5, 7 (R110). -/
def oddPart (b : Precision) (F : FixName → Int) (st : Stage) (tmp4 tmp5 tmp6 tmp7 : Int) :
    Int × Int × Int × Int :=
  let sh := descaleShift b st
  let a := oddSums F tmp4 tmp5 tmp6 tmp7
  (descale a.1 sh, descale a.2.1 sh, descale a.2.2.1 sh, descale a.2.2.2 sh)

/-- `DCT1D(x, stage)` (R104, R105): pure and total on ℤ⁸. -/
def dct1d (b : Precision) (F : FixName → Int) (st : Stage) (x : Vec8) : Vec8 :=
  let e := evenPart b F st (x.x0 + x.x7) (x.x1 + x.x6) (x.x2 + x.x5) (x.x3 + x.x4)
  let o := oddPart b F st (x.x3 - x.x4) (x.x2 - x.x5) (x.x1 - x.x6) (x.x0 - x.x7)
  ⟨e.1, o.1, e.2.1, o.2.1, e.2.2.1, o.2.2.1, e.2.2.2, o.2.2.2⟩

/-- The odd sums of a line (R105, R110). -/
def lineOddSums (F : FixName → Int) (x : Vec8) : Int × Int × Int × Int :=
  oddSums F (x.x3 - x.x4) (x.x2 - x.x5) (x.x1 - x.x6) (x.x0 - x.x7)

/-! ### Domains (R118) -/

/-- `DOM_S = [-2^(B-1), 2^(B-1) - 1]`. -/
def inDomS (b : Precision) (v : Int) : Bool :=
  decide (-(2 ^ (sampleBits b - 1)) ≤ v) && decide (v ≤ 2 ^ (sampleBits b - 1) - 1)

/-- `DOM_I = [-2^(B+PASS1_BITS+2), 2^(B+PASS1_BITS+2)]`. -/
def inDomI (b : Precision) (v : Int) : Bool :=
  decide (-(2 ^ (sampleBits b + pass1Bits b + 2)) ≤ v) &&
    decide (v ≤ 2 ^ (sampleBits b + pass1Bits b + 2))

/-- The domain each stage requires of its inputs (R112, R113). -/
def inDomain (b : Precision) : Stage → Int → Bool
  | .row => inDomS b
  | .col => inDomI b

/-- The range of a stored element of `w` bits (R8, R20). -/
def inElem (w : Nat) (v : Int) : Bool :=
  decide (-(2 ^ (w - 1)) ≤ v) && decide (v ≤ 2 ^ (w - 1) - 1)

end Sys2Proof.Machine
end

