-- ==== Sys2Proof/Machine/Operands.lean ====
section
/-! DEFINITION. The five forms of element index an operation makes (spec 20_memory.md R67). There are
no other addressing modes; command operands are taken as they stand (30_encoding.md R82). -/

namespace Sys2Proof.Machine

/-- Row element `BLK[8*r + i]` (R67, R20). -/
def rowElement (r : BitVec 3) (i : Fin 8) : Fin 64 := ⟨8 * r.toNat + i.val, by omega⟩

/-- Column element `BLK[8*j + c]` (R67, R20). -/
def columnElement (c : BitVec 3) (j : Fin 8) : Fin 64 := ⟨8 * j.val + c.toNat, by omega⟩

/-- The element a stage takes as input `i` of its line `n`: row `n` in the row stage, column `n` in
the column stage. -/
def lineElement : Stage → BitVec 3 → Fin 8 → Fin 64
  | .row => rowElement
  | .col => columnElement

/-- Row position `IDX[p]` (R67). -/
def rowPosition (p : Nat) : Nat := p

/-- Gather `CMAP_ch[IDX[p]]`: the palette index, unsigned (R67, R8). -/
def gatherElement (index : Byte) : Nat := index.toNat

/-- The channel's place in a triplet: R 0, G 1, B 2 (R50, R52). -/
def channelOffset : Channel → Nat
  | .r => 0
  | .g => 1
  | .b => 2

/-- Triplet element `RGB[3*p + ch]` (R67, R30). -/
def tripletElement (p : Nat) (ch : Channel) : Nat := 3 * p + channelOffset ch

end Sys2Proof.Machine
end

