-- ==== Sys2Proof/Machine/Ops.lean ====
section
/-! DEFINITION. The shared operations over the data spaces, the replicas and the colormap (spec
00_scope.md R10 to R12; 20_memory.md R54 to R56; 40_dct_forward.md R111).

The guide asks here for taking an exception and returning from one. This block has neither: it
"raises no synchronous exception" (60_exceptions.md R170) and has no trap entry, saved state or
return (R174), so there is no such operation. -/

namespace Sys2Proof.Machine

/-! ### Byte spaces -/

/-- The element at index `a`, or none where its defined-ness bit is 0 (R12, R31). -/
def Memory.read : Memory → Nat → Option Byte
  | [], _ => none
  | (b, v) :: m, a => if b = a then some v else Memory.read m a

/-- Write one element and set its defined-ness bit (R31), keeping the index order. -/
def Memory.write : Memory → Nat → Byte → Memory
  | [], a, v => [(a, v)]
  | (b, w) :: m, a, v =>
    if a < b then (a, v) :: (b, w) :: m
    else if a = b then (a, v) :: m
    else (b, w) :: Memory.write m a v

/-- The canonical form: indices strictly rising. (No listed entry can equal what an unlisted element
reads as, since that is no value.) -/
def Memory.wf : Memory → Bool
  | [] => true
  | [_] => true
  | (a, _) :: (b, w) :: m => decide (a < b) && Memory.wf ((b, w) :: m)

/-! ### The SampleBlock -/

/-- The element, or none where its defined-ness bit is 0 (R12). -/
def Block.get (b : Block) (i : Fin 64) : Option Int :=
  if b.defd[i] then some b.val[i] else none

/-- `BLK[i] <- v ; BLKdef[i] <- 1`. -/
def Block.set (b : Block) (i : Fin 64) (v : Int) : Block where
  val := b.val.set i v
  defd := b.defd.set i true

/-- Positions 0 … 7 of a line, in order. -/
def eight : List (Fin 8) := [0, 1, 2, 3, 4, 5, 6, 7]

/-- Rows or columns 0 … 7, in order. -/
def eightLines : List (BitVec 3) := [0, 1, 2, 3, 4, 5, 6, 7]

/-- The 8 elements of line `n` of a stage. -/
def lineElements (st : Stage) (n : BitVec 3) : List (Fin 64) := eight.map (lineElement st n)

/-- `BLK[0], …, BLK[63]`. -/
def allElements : List (Fin 64) := (eightLines.map (lineElements .row)).flatten

/-- R112's, R113's and R114's `require`: each element defined and in the domain, else refuse. -/
def requireElements (dom : Int → Bool) (b : Block) : List (Fin 64) → Except Refusal Unit
  | [] => .ok ()
  | i :: is =>
    match b.get i with
    | none => .error .undefinedElement
    | some v => if dom v then requireElements dom b is else .error .outsideDomain

/-- All 8 reads of a 1-D transform (R56, R111). -/
def Block.readLine (b : Block) (st : Stage) (n : BitVec 3) : Vec8 where
  x0 := b.val[lineElement st n 0]
  x1 := b.val[lineElement st n 1]
  x2 := b.val[lineElement st n 2]
  x3 := b.val[lineElement st n 3]
  x4 := b.val[lineElement st n 4]
  x5 := b.val[lineElement st n 5]
  x6 := b.val[lineElement st n 6]
  x7 := b.val[lineElement st n 7]

/-- All 8 writes of a 1-D transform, `y[k]` to the place `x[k]` was read from (R111). -/
def Block.writeLine (b : Block) (st : Stage) (n : BitVec 3) (y : Vec8) : Block :=
  eight.foldl (fun b k => b.set (lineElement st n k) (y.get k)) b

/-- One stage of one line, in place: all reads, the transform, all writes (R111). -/
def transformLine (c : Config) (st : Stage) (n : BitVec 3) (b : Block) : Block :=
  b.writeLine st n (dct1d c.precision (fix c.fixTab) st (b.readLine st n))

/-! ### The colormap -/

/-- One channel's entries. -/
def Colormap.channel (m : Colormap) : Channel → Memory
  | .r => m.r
  | .g => m.g
  | .b => m.b

/-- `CMAP_ch[i] <- v ; CMAPdef_ch[i] <- 1`. -/
def Colormap.write (m : Colormap) (ch : Channel) (i : Nat) (v : Byte) : Colormap :=
  match ch with
  | .r => { m with r := m.r.write i v }
  | .g => { m with g := m.g.write i v }
  | .b => { m with b := m.b.write i v }

/-- `CMAP_DEPTH` (R26). -/
def cmapDepth : Nat := 256

/-- Entry `i` written in all three channels (R141). -/
def Colormap.entryDefined (m : Colormap) (i : Nat) : Bool :=
  (m.r.read i).isSome && (m.g.read i).isSome && (m.b.read i).isSome

/-- A colour: three bytes in the order R, G, B (R140). -/
structure Triplet where
  r : Byte
  g : Byte
  b : Byte
deriving DecidableEq, Repr

/-- One byte of a colour. -/
def Triplet.channel (t : Triplet) : Channel → Byte
  | .r => t.r
  | .g => t.g
  | .b => t.b

/-- `LOOKUP(i)` (R140); an entry never written has no value to give (R12). -/
def lookup (m : Colormap) (i : Nat) : Except Refusal Triplet :=
  match m.r.read i, m.g.read i, m.b.read i with
  | some r, some g, some b => .ok ⟨r, g, b⟩
  | _, _, _ => .error .undefinedElement

/-- Write the triplet of position `p` (R143). -/
def writeTriplet (rgb : Memory) (p : Nat) (t : Triplet) : Memory :=
  ((rgb.write (tripletElement p .r) t.r).write (tripletElement p .g) t.g).write
    (tripletElement p .b) t.b

/-! ### Replicas -/

/-- A `CEXP_ROW` is in progress. -/
def CexProgress.expanding : CexProgress → Bool
  | .idle => false
  | .row _ _ => true

/-- Some replica is expanding (R66, U5). -/
def State.anyExpanding (s : State) : Bool := s.cexus.any fun u => u.progress.expanding

/-- Replica `k` of the DCT unit becomes `u`. -/
def State.setDctu (s : State) (k : Nat) (u : Dctu) : State := { s with dctus := s.dctus.set k u }

/-- Replica `k` of the colour-expansion unit becomes `u`. -/
def State.setCexu (s : State) (k : Nat) (u : Cexu) : State := { s with cexus := s.cexus.set k u }

/-- An operation or host access on the private state of the DCT unit whose port it came in by: the
replica exists, and becomes what the operation makes of it. -/
def onDctu (s : State) (f : Dctu → Except Refusal Dctu) : Host.Outcome State Fault Refusal :=
  match s.dctus[s.port]? with
  | none => .refused .noSuchReplica
  | some u =>
    match f u with
    | .ok u' => .next (s.setDctu s.port u')
    | .error e => .refused e

/-- The same on the private state of the colour-expansion unit whose port it came in by. -/
def onCexu (s : State) (f : Cexu → Except Refusal Cexu) : Host.Outcome State Fault Refusal :=
  match s.cexus[s.port]? with
  | none => .refused .noSuchReplica
  | some u =>
    match f u with
    | .ok u' => .next (s.setCexu s.port u')
    | .error e => .refused e

/-- An operation or host access that changes the shared colormap state, by the port of one
colour-expansion unit: no replica may be expanding meanwhile (R66, R142, R184). -/
def onColormap (s : State) (f : State → Except Refusal State) : Host.Outcome State Fault Refusal :=
  match s.cexus[s.port]? with
  | none => .refused .noSuchReplica
  | some _ =>
    if s.anyExpanding then .refused .expansionInProgress
    else
      match f s with
      | .ok s' => .next s'
      | .error e => .refused e

end Sys2Proof.Machine
end

