-- ==== Sys2Proof/Machine/Cexu.lean ====
section
/-! DEFINITION. The operations of the colour-expansion unit: `CMAP_PUBLISH`, `CMAP_RELEASE`,
`CEXP_PIX`, `CEXP_ROW.S`, `CEXP_ROW.P` (spec 41_color_expand.md R141 to R144, R147, R150). -/

namespace Sys2Proof.Machine

/-! ### Colormap lifecycle -/

/-- R141. -/
def execCmapPublish (len : BitVec 9) (s : State) : Host.Outcome State Fault Refusal :=
  onColormap s fun s =>
    if s.cmapFrozen then .error .colormapFrozen
    else if len.toNat ≤ cmapDepth ∧ (List.range len.toNat).all s.cmap.entryDefined then
      .ok { s with cmapLen := len, cmapFrozen := true }
    else .error .colormapNotPopulated

/-- R142. -/
def execCmapRelease (s : State) : Host.Outcome State Fault Refusal :=
  onColormap s fun s =>
    if s.cmapFrozen then .ok { s with cmapFrozen := false } else .error .colormapOpen

/-! ### Expansion -/

/-- The colour of position `p` of replica `u`'s row: the preconditions R143 and R144 put on one
position, then `LOOKUP(IDX[p])`. -/
def pixel (s : State) (u : Cexu) (p : Nat) : Except Refusal Triplet :=
  if p < s.cfg.maxRow.toNat then
    match u.idx.read (rowPosition p) with
    | none => .error .undefinedElement
    | some i =>
      if gatherElement i < s.cmapLen.toNat then lookup s.cmap (gatherElement i)
      else .error .paletteIndex
  else .error .elementIndex

/-- Expand the positions `ps` one after the other. -/
def expandScalar (s : State) (u : Cexu) : List Nat → Memory → Except Refusal Memory
  | [], rgb => .ok rgb
  | p :: ps, rgb =>
    match pixel s u p with
    | .ok t => expandScalar s u ps (writeTriplet rgb p t)
    | .error e => .error e

/-- The colours of the positions `ps`: one gather across lanes (R147). -/
def gatherLanes (s : State) (u : Cexu) : List Nat → Except Refusal (List (Nat × Triplet))
  | [] => .ok []
  | p :: ps =>
    match pixel s u p with
    | .ok t =>
      match gatherLanes s u ps with
      | .ok ts => .ok ((p, t) :: ts)
      | .error e => .error e
    | .error e => .error e

/-- R147's groups: lane `l` of group `g` has position `g*L + l` if that is below `n`; the other lanes
of the last group are inactive. -/
def cexGroups (lanes n : Nat) : List (List Nat) :=
  (List.range ((n + lanes - 1) / lanes)).map fun g =>
    ((List.range lanes).map fun l => g * lanes + l).filter fun p => p < n

/-- Expand group by group: in each, all lanes gather, then all write. -/
def expandParallel (s : State) (u : Cexu) : List (List Nat) → Memory → Except Refusal Memory
  | [], rgb => .ok rgb
  | ps :: gs, rgb =>
    match gatherLanes s u ps with
    | .ok ts => expandParallel s u gs (ts.foldl (fun rgb pt => writeTriplet rgb pt.1 pt.2) rgb)
    | .error e => .error e

/-- R144's `require` lines: the whole row is checked before any write (92 D26). -/
def requireRow (s : State) (u : Cexu) (n : BitVec 16) : Except Refusal Unit :=
  if s.cmapFrozen then
    if n.toNat ≤ s.cfg.maxRow.toNat then
      match gatherLanes s u (List.range n.toNat) with
      | .ok _ => .ok ()
      | .error e => .error e
    else .error .rowTooLong
  else .error .colormapOpen

/-- Replica `u` with what an expansion made of its `RGB`. -/
def withRgb (u : Cexu) : Except Refusal Memory → Except Refusal Cexu
  | .ok rgb => .ok { u with rgb := rgb }
  | .error e => .error e

/-- `CEXP_PIX` of the positions `ps`, one after the other: only while `CMAP_FROZEN = 1` (R143). -/
def expandFrozen (s : State) (u : Cexu) (ps : List Nat) : Except Refusal Memory :=
  if s.cmapFrozen then expandScalar s u ps u.rgb else .error .colormapOpen

/-- R143. -/
def execCexpPix (p : BitVec 16) (s : State) : Host.Outcome State Fault Refusal :=
  onCexu s fun u => withRgb u (expandFrozen s u [p.toNat])

/-- R144: positions 0, 1, …, `n - 1`. -/
def execCexpRowS (n : BitVec 16) (s : State) : Host.Outcome State Fault Refusal :=
  onCexu s fun u =>
    match requireRow s u n with
    | .ok () => withRgb u (expandScalar s u (List.range n.toNat) u.rgb)
    | .error e => .error e

/-- R147: groups of `LANES` positions. -/
def execCexpRowP (n : BitVec 16) (s : State) : Host.Outcome State Fault Refusal :=
  onCexu s fun u =>
    match requireRow s u n with
    | .ok () => withRgb u (expandParallel s u (cexGroups s.cfg.cexLanes n.toNat) u.rgb)
    | .error e => .error e

end Sys2Proof.Machine
end

