-- ==== Sys2Proof/Machine/Dct.lean ====
section
/-! DEFINITION. The operations of the DCT unit: `DCT_ROW`, `DCT_COL`, `DCT_FWD.S`, `DCT_FWD.P` (spec
40_dct_forward.md R112, R113, R114, R117). -/

namespace Sys2Proof.Machine

/-- One stage on one line of a block: require, read, transform, write (R112, R113). -/
def transformChecked (c : Config) (st : Stage) (n : BitVec 3) (b : Block) : Except Refusal Block :=
  match requireElements (inDomain c.precision st) b (lineElements st n) with
  | .ok () => .ok (transformLine c st n b)
  | .error e => .error e

/-- Replica `u` with what a transform made of its block. -/
def withBlk (u : Dctu) : Except Refusal Block → Except Refusal Dctu
  | .ok b => .ok { u with blk := b }
  | .error e => .error e

/-- One stage on one line of the replica's block. -/
def dctLine (st : Stage) (n : BitVec 3) (s : State) : Host.Outcome State Fault Refusal :=
  onDctu s fun u => withBlk u (transformChecked s.cfg st n u.blk)

/-- R112. -/
def execDctRow (r : BitVec 3) (s : State) : Host.Outcome State Fault Refusal := dctLine .row r s

/-- R113. -/
def execDctCol (c : BitVec 3) (s : State) : Host.Outcome State Fault Refusal := dctLine .col c s

/-- A pass over the lines `ns`, one after the other. -/
def scalarPass (c : Config) (st : Stage) (ns : List (BitVec 3)) (b : Block) : Block :=
  ns.foldl (fun b n => transformLine c st n b) b

/-- R114: rows 0 … 7, then columns 0 … 7. -/
def forwardScalar (c : Config) (b : Block) : Block :=
  scalarPass c .col eightLines (scalarPass c .row eightLines b)

/-- `LANES` of the DCT unit. -/
def dctLaneCount : DctLanes → Nat
  | .one => 1
  | .two => 2
  | .four => 4
  | .eight => 8

/-- R117's groups: lane `l` of group `g` has line `g*L + l`. -/
def dctGroups (lanes : DctLanes) : List (List (BitVec 3)) :=
  (List.range (8 / dctLaneCount lanes)).map fun g =>
    (List.range (dctLaneCount lanes)).map fun l => BitVec.ofNat 3 (g * dctLaneCount lanes + l)

/-- One group of lanes: all lanes read, all transform, all write (R117). -/
def laneGroup (c : Config) (st : Stage) (ns : List (BitVec 3)) (b : Block) : Block :=
  let ys := ns.map fun n => (n, dct1d c.precision (fix c.fixTab) st (b.readLine st n))
  ys.foldl (fun b ny => b.writeLine st ny.1 ny.2) b

/-- A pass in groups of lanes. -/
def parallelPass (c : Config) (st : Stage) (b : Block) : Block :=
  (dctGroups c.dctLanes).foldl (fun b ns => laneGroup c st ns b) b

/-- R117: every row group, then every column group. -/
def forwardParallel (c : Config) (b : Block) : Block :=
  parallelPass c .col (parallelPass c .row b)

/-- All 64 elements defined and in `DOM_S`, tested before any write (R114, 92 D26). -/
def requireBlock (c : Config) (b : Block) : Except Refusal Unit :=
  requireElements (inDomS c.precision) b allElements

/-- A whole transform by one of the two strategies. -/
def dctForward (run : Config → Block → Block) (s : State) : Host.Outcome State Fault Refusal :=
  onDctu s fun u =>
    match requireBlock s.cfg u.blk with
    | .ok () => withBlk u (.ok (run s.cfg u.blk))
    | .error e => .error e

/-- R114. -/
def execDctFwdS (s : State) : Host.Outcome State Fault Refusal := dctForward forwardScalar s

/-- R117. -/
def execDctFwdP (s : State) : Host.Outcome State Fault Refusal := dctForward forwardParallel s

end Sys2Proof.Machine
end

