-- ==== Sys2Proof/Machine/Dispatch.lean ====
section
/-! DEFINITION. One arm per operation of the command port (spec 30_encoding.md R84). -/

namespace Sys2Proof.Machine

def exec (i : Instr) (s : State) : Host.Outcome State Fault Refusal :=
  match i with
  | .dctRow r => Sys2Proof.Machine.execDctRow r s
  | .dctCol c => Sys2Proof.Machine.execDctCol c s
  | .dctFwdS => Sys2Proof.Machine.execDctFwdS s
  | .dctFwdP => Sys2Proof.Machine.execDctFwdP s
  | .cmapPublish len => Sys2Proof.Machine.execCmapPublish len s
  | .cmapRelease => Sys2Proof.Machine.execCmapRelease s
  | .cexpPix p => Sys2Proof.Machine.execCexpPix p s
  | .cexpRowS n => Sys2Proof.Machine.execCexpRowS n s
  | .cexpRowP n => Sys2Proof.Machine.execCexpRowP n s

end Sys2Proof.Machine
end

