-- ==== Sys2Proof/Machine/Flags.lean ====
section
/-! DEFINITION. Flags and status. The block has no condition codes and no operation writes a flag as a
side effect (spec 10_state.md R36); the only one-bit state is `CMAP_FROZEN`, which two operations
set and clear. What there is of status is the word `CMAP_STATUS` (R28). -/

namespace Sys2Proof.Machine

/-- R28: bits [8:0] `CMAP_LEN`, bits [15:9] 0, bit [16] `CMAP_FROZEN`, bits [31:17] 0. -/
def statusWord (len : BitVec 9) (frozen : Bool) : Word :=
  (0 : BitVec 15) ++ BitVec.ofBool frozen ++ (0 : BitVec 7) ++ len

/-- `CMAP_STATUS`, a read view of the two registers. -/
def State.cmapStatus (s : State) : Word := statusWord s.cmapLen s.cmapFrozen

end Sys2Proof.Machine
end

