-- ==== Sys2Proof/Machine/HostAccess.lean ====
section
/-! DEFINITION. The host primitives that read or write one element or the status word (spec
20_memory.md R54, R55). Each tests its precondition, and refuses where it is false (R53, R54). -/

namespace Sys2Proof.Machine

/-- A read primitive at the port of the replica `r` returns a value to the host and changes no state of
the block (R55). -/
def reply {U : Type} (r : Option U) (s : State) (f : U → Except Refusal Reply) :
    Host.Outcome State Fault Refusal :=
  match r with
  | none => .refused .noSuchReplica
  | some u =>
    match f u with
    | .ok v => .next { s with replies := v :: s.replies }
    | .error e => .refused e

/-- A defined byte of a space of `size` elements. -/
def readByte (m : Memory) (size i : Nat) : Except Refusal Reply :=
  if i < size then
    match m.read i with
    | some v => .ok (.byte v)
    | none => .error .undefinedElement
  else .error .elementIndex

/-- A byte written to a space of `size` elements: index and value in range. -/
def requireByte (size i v : Nat) : Except Refusal Byte :=
  if i < size then
    if v ≤ 255 then .ok (BitVec.ofNat 8 v) else .error .elementValue
  else .error .elementIndex

/-- `HostWrBLK(i, v)`. -/
def hostWrBlk (i : Nat) (v : Int) (s : State) : Host.Outcome State Fault Refusal :=
  onDctu s fun u =>
    if h : i < 64 then
      if inElem s.cfg.wElem v then .ok { u with blk := u.blk.set ⟨i, h⟩ v }
      else .error .elementValue
    else .error .elementIndex

/-- `HostRdBLK(i)`. -/
def hostRdBlk (i : Nat) (s : State) : Host.Outcome State Fault Refusal :=
  reply s.dctus[s.port]? s fun u =>
    if h : i < 64 then
      match u.blk.get ⟨i, h⟩ with
      | some v => .ok (.elem v)
      | none => .error .undefinedElement
    else .error .elementIndex

/-- `HostWrCMAP(ch, i, v)`: only while `CMAP_FROZEN = 0`. -/
def hostWrCmap (ch : Channel) (i v : Nat) (s : State) : Host.Outcome State Fault Refusal :=
  onColormap s fun s =>
    if s.cmapFrozen then .error .colormapFrozen
    else
      match requireByte cmapDepth i v with
      | .ok w => .ok { s with cmap := s.cmap.write ch i w }
      | .error e => .error e

/-- `HostRdCMAP(ch, i)`. -/
def hostRdCmap (ch : Channel) (i : Nat) (s : State) : Host.Outcome State Fault Refusal :=
  reply s.cexus[s.port]? s fun _ => readByte (s.cmap.channel ch) cmapDepth i

/-- `HostWrIDX(p, v)`. -/
def hostWrIdx (p v : Nat) (s : State) : Host.Outcome State Fault Refusal :=
  onCexu s fun u =>
    match requireByte s.cfg.maxRow.toNat p v with
    | .ok w => .ok { u with idx := u.idx.write p w }
    | .error e => .error e

/-- `HostRdIDX(p)`. -/
def hostRdIdx (p : Nat) (s : State) : Host.Outcome State Fault Refusal :=
  reply s.cexus[s.port]? s fun u => readByte u.idx s.cfg.maxRow.toNat p

/-- `HostRdRGB(k)`. -/
def hostRdRgb (k : Nat) (s : State) : Host.Outcome State Fault Refusal :=
  reply s.cexus[s.port]? s fun u => readByte u.rgb (3 * s.cfg.maxRow.toNat) k

/-- `HostRdCSR(CMAP_STATUS)`. -/
def hostRdCsr (s : State) : Host.Outcome State Fault Refusal :=
  reply s.cexus[s.port]? s fun _ => .ok (.status s.cmapStatus)

end Sys2Proof.Machine
end

