-- ==== Sys2Proof/Machine/HostPort.lean ====
section
/-! DEFINITION. What the outside does to the block, one event at a time: the host primitives of spec
20_memory.md R54, `HostIssue` among them, the pieces of an operation (10_state.md R32), and reset
(70_reset_and_hazards.md R190).

An operation that `HostIssue` carries out (`issue`) is atomic (60_exceptions.md R175). `start` and
`work` carry out the same operation in R32's pieces, between which other replicas and the other unit
may act (20_memory.md R61, R66). On the same replica no host primitive takes effect before the
operation is complete (R175): `settle` completes it first. -/

namespace Sys2Proof.Machine

/-- `HostIssue(cmd)`: decode (R85) and perform; a reserved word is refused (R86). -/
def hostIssue (cmd : Word) (s : State) : Host.Outcome State Fault Refusal :=
  match decode cmd with
  | .ok i => exec i s
  | .error why => .refused (.reservedEncoding why)

/-- R54's list. -/
def hostPrim (p : HostPrim) (s : State) : Host.Outcome State Fault Refusal :=
  match p with
  | .wrBlk i v => hostWrBlk i v s
  | .rdBlk i => hostRdBlk i s
  | .wrCmap ch i v => hostWrCmap ch i v s
  | .rdCmap ch i => hostRdCmap ch i s
  | .wrIdx p v => hostWrIdx p v s
  | .rdIdx p => hostRdIdx p s
  | .rdRgb k => hostRdRgb k s
  | .rdCsr => hostRdCsr s
  | .issue cmd => hostIssue cmd s

/-! ### Which unit a primitive concerns -/

/-- The unit of an operation (R80). -/
def unitOf : Instr → FuncUnit
  | .dctRow _ => .dctu
  | .dctCol _ => .dctu
  | .dctFwdS => .dctu
  | .dctFwdP => .dctu
  | .cmapPublish _ => .cexu
  | .cmapRelease => .cexu
  | .cexpPix _ => .cexu
  | .cexpRowS _ => .cexu
  | .cexpRowP _ => .cexu

/-- The unit of a command word; a reserved word has none. -/
def commandUnit (cmd : Word) : Option FuncUnit :=
  match decode cmd with
  | .ok i => some (unitOf i)
  | .error _ => none

/-- The unit whose ports a host primitive goes to: that of the space it reaches (R50) or of its command
(R80). The shared colormap and `CMAP_STATUS` are reached by the ports of the colour-expansion units
(log 9). -/
def HostPrim.unit : HostPrim → Option FuncUnit
  | .wrBlk _ _ => some .dctu
  | .rdBlk _ => some .dctu
  | .wrCmap _ _ _ => some .cexu
  | .rdCmap _ _ => some .cexu
  | .wrIdx _ _ => some .cexu
  | .rdIdx _ => some .cexu
  | .rdRgb _ => some .cexu
  | .rdCsr => some .cexu
  | .issue cmd => commandUnit cmd

/-! ### Operations in pieces (R32) -/

/-- A `DCT_FWD` begins: the preconditions of R114, tested before any write, then no row done. -/
def beginForward (s : State) : Host.Outcome State Fault Refusal :=
  onDctu s fun u =>
    match requireBlock s.cfg u.blk with
    | .ok () => .ok { u with progress := .forward .row [] }
    | .error e => .error e

/-- A `CEXP_ROW n` begins: the preconditions of R144, tested before any write, then no position done.
An empty row has no piece and is complete at once. -/
def beginRow (n : BitVec 16) (s : State) : Host.Outcome State Fault Refusal :=
  onCexu s fun u =>
    match requireRow s u n with
    | .ok () => .ok { u with progress := if n = 0 then .idle else .row n [] }
    | .error e => .error e

/-- Begin an operation. Those of one piece are complete at once. -/
def beginInstr (i : Instr) (s : State) : Host.Outcome State Fault Refusal :=
  match i with
  | .dctFwdS => beginForward s
  | .dctFwdP => beginForward s
  | .cexpRowS n => beginRow n s
  | .cexpRowP n => beginRow n s
  | .dctRow r => exec (.dctRow r) s
  | .dctCol c => exec (.dctCol c) s
  | .cmapPublish len => exec (.cmapPublish len) s
  | .cmapRelease => exec .cmapRelease s
  | .cexpPix p => exec (.cexpPix p) s

/-- `HostIssue(cmd)` carried out in pieces. -/
def hostStart (cmd : Word) (s : State) : Host.Outcome State Fault Refusal :=
  match decode cmd with
  | .ok i => beginInstr i s
  | .error why => .refused (.reservedEncoding why)

/-- After line `n` of a pass: the columns follow once all 8 rows are done (R115), and the operation is
complete once all 8 columns are. -/
def afterLine (pass : Stage) (done : List (BitVec 3)) : DctProgress :=
  if done.length = 8 then
    match pass with
    | .row => .forward .col []
    | .col => .idle
  else .forward pass done

/-- Line `n` of the `DCT_FWD` that `u` has begun. Any line of the pass not yet done may be next (R115). -/
def dctPiece (c : Config) (u : Dctu) (n : BitVec 3) : Except Refusal Dctu :=
  match u.progress with
  | .idle => .error .noSuchWork
  | .forward pass done =>
    if n ∈ done then .error .noSuchWork
    else
      match transformChecked c pass n u.blk with
      | .ok b => .ok ⟨b, afterLine pass (n :: done)⟩
      | .error e => .error e

/-- Position `p` of the `CEXP_ROW` that `u` has begun. Any position not yet done may be next (R145). -/
def cexPiece (s : State) (u : Cexu) (p : Nat) : Except Refusal Cexu :=
  match u.progress with
  | .idle => .error .noSuchWork
  | .row n done =>
    if p < n.toNat ∧ p ∉ done then
      match expandFrozen s u [p] with
      | .ok rgb =>
        .ok { u with
          rgb := rgb
          progress := if done.length + 1 = n.toNat then .idle else .row n (p :: done) }
      | .error e => .error e
    else .error .noSuchWork

/-- Replica `s.port` of a unit performs piece `j`. -/
def hostWork (unit : FuncUnit) (j : Nat) (s : State) : Host.Outcome State Fault Refusal :=
  match unit with
  | .dctu =>
    onDctu s fun u => if j < 8 then dctPiece s.cfg u (BitVec.ofNat 3 j) else .error .noSuchWork
  | .cexu => onCexu s fun u => cexPiece s u j

/-! ### Completing what is in progress (R175) -/

/-- A stage on the lines `ns`, one after the other, each with its precondition. -/
def passChecked (c : Config) (st : Stage) : List (BitVec 3) → Block → Except Refusal Block
  | [], b => .ok b
  | n :: ns, b =>
    match transformChecked c st n b with
    | .ok b' => passChecked c st ns b'
    | .error e => .error e

/-- The lines of a pass that are left, in ascending order (R114). -/
def linesLeft (done : List (BitVec 3)) : List (BitVec 3) := eightLines.filter fun n => n ∉ done

/-- The DCT unit with its operation complete. -/
def Dctu.finish (c : Config) (u : Dctu) : Except Refusal Dctu :=
  match u.progress with
  | .idle => .ok u
  | .forward .row done =>
    match passChecked c .row (linesLeft done) u.blk with
    | .ok mid => (passChecked c .col eightLines mid).map fun b => ⟨b, .idle⟩
    | .error e => .error e
  | .forward .col done => (passChecked c .col (linesLeft done) u.blk).map fun b => ⟨b, .idle⟩

/-- The positions of a row that are left, in ascending order (R144). -/
def positionsLeft (n : BitVec 16) (done : List Nat) : List Nat :=
  (List.range n.toNat).filter fun p => p ∉ done

/-- The colour-expansion unit with its operation complete. -/
def Cexu.finish (s : State) (u : Cexu) : Except Refusal Cexu :=
  match u.progress with
  | .idle => .ok u
  | .row n done =>
    (expandFrozen s u (positionsLeft n done)).map fun rgb => { u with rgb := rgb, progress := .idle }

/-- Complete what replica `s.port` of the unit is in the middle of: `HostIssue` returns only when every
write of its operation has been made, so the host's next primitive at that replica comes after it
(R175, R59; log 11). -/
def settle (unit : Option FuncUnit) (s : State) : Except Refusal State :=
  match unit with
  | none => .ok s
  | some .dctu =>
    match s.dctus[s.port]? with
    | none => .ok s
    | some u => (u.finish s.cfg).map (s.setDctu s.port)
  | some .cexu =>
    match s.cexus[s.port]? with
    | none => .ok s
    | some u => (u.finish s).map (s.setCexu s.port)

/-- `f` on the state in which the replica is between operations. -/
def onceSettled (unit : Option FuncUnit) (s : State)
    (f : State → Host.Outcome State Fault Refusal) : Host.Outcome State Fault Refusal :=
  match settle unit s with
  | .ok s' => f s'
  | .error e => .refused e

/-! ### Reset -/

/-- R190: whatever was in progress ends, and the state is R34's for this block's parameters. What the
host does next, and what it has read, are the host's and stay (log 13). -/
def resetBlock (s : State) : State :=
  { State.resetOf s.cfg with inputs := s.inputs, replies := s.replies }

/-! ### Events -/

/-- The unit an event concerns. -/
def Event.unit : Event → Option FuncUnit
  | .host _ p => p.unit
  | .start _ cmd => commandUnit cmd
  | .work unit _ _ => some unit
  | .reset => none

/-- The number of the port an event comes in by. -/
def Event.portNumber : Event → Option Nat
  | .host k _ => some k
  | .start k _ => some k
  | .work _ k _ => some k
  | .reset => none

def perform (e : Event) (s : State) : Host.Outcome State Fault Refusal :=
  match e with
  | .host k p => onceSettled p.unit { s with port := k } (hostPrim p)
  | .start k cmd => onceSettled (commandUnit cmd) { s with port := k } (hostStart cmd)
  | .work unit k j => hostWork unit j { s with port := k }
  | .reset => .next (resetBlock s)

end Sys2Proof.Machine
end

