-- ==== Sys2Proof/Machine/Step.lean ====
section
/-! DEFINITION. One step: the block does the next thing the outside asks of it (spec 20_memory.md R59:
one at a time, each completely, in order), and is idle, holding all its state, when nothing is asked
(60_exceptions.md R183). The block fetches nothing (10_state.md R22): the "program" is the list
`inputs`, which is the host's, and `HostIssue` is how an instruction reaches `exec`. -/

namespace Sys2Proof.Machine

def step (s : State) : Host.Outcome State Fault Refusal :=
  match s.inputs with
  | [] => .next s
  | e :: rest => perform e { s with inputs := rest }

/-- `s` with `HostIssue(w)` at the present port as the next thing the host does. A command is one 32-bit word
(R88), so `nbits` cuts `w` to the row's bits and the rest of the word is 0. -/
def State.withFetchWord (s : State) (nbits w : Nat) : State :=
  { s with inputs := .host s.port (.issue (BitVec.ofNat 32 (w % 2 ^ nbits))) :: s.inputs }

end Sys2Proof.Machine
end

