-- ==== Sys2Proof/Machine/Assembler.lean ====
section
/-! DEFINITION. The textual commands (spec 30_encoding.md R89, R90). No part of the block reads text:
this says which words a line of a program listing stands for. -/

namespace Sys2Proof.Machine

/-- The value of a digit in base 10 or 16; letters of either case. -/
def digitValue (base : Nat) (c : Char) : Option Nat :=
  let v :=
    if '0' ≤ c ∧ c ≤ '9' then c.toNat - '0'.toNat
    else if 'a' ≤ c ∧ c ≤ 'f' then c.toNat - 'a'.toNat + 10
    else if 'A' ≤ c ∧ c ≤ 'F' then c.toNat - 'A'.toNat + 10
    else base
  if v < base then some v else none

def digitsFrom (base : Nat) : Nat → List Char → Option Nat
  | acc, [] => some acc
  | acc, c :: cs =>
    match digitValue base c with
    | some d => digitsFrom base (acc * base + d) cs
    | none => none

/-- "decimal or `0x` hexadecimal" (R89). -/
def numeral : List Char → Option Nat
  | [] => none
  | '0' :: 'x' :: c :: cs => digitsFrom 16 0 (c :: cs)
  | c :: cs => digitsFrom 10 0 (c :: cs)

/-- What one line stands for: a command, or one of the two pseudo-instructions of R90. -/
inductive AsmLine where
  | op (i : Instr)
  | dctPass1
  | dctPass2
deriving DecidableEq, Repr

/-- R90's expansions. -/
def AsmLine.commands : AsmLine → List Instr
  | .op i => [i]
  | .dctPass1 => [.dctRow 0, .dctRow 1, .dctRow 2, .dctRow 3, .dctRow 4, .dctRow 5, .dctRow 6, .dctRow 7]
  | .dctPass2 => [.dctCol 0, .dctCol 1, .dctCol 2, .dctCol 3, .dctCol 4, .dctCol 5, .dctCol 6, .dctCol 7]

/-- A line with no operand after its mnemonic. -/
def bareLine (operand : List Char) (l : AsmLine) : Option AsmLine :=
  if operand = [] then some l else none

/-- A line with one operand of at most `top` after its mnemonic. -/
def operandLine (operand : List Char) (top : Nat) (f : Nat → Instr) : Option AsmLine :=
  match numeral operand with
  | some v => if v ≤ top then some (.op (f v)) else none
  | none => none

/-- R89: the mnemonic of R84 and its operand; a bare `DCT_FWD` or `CEXP_ROW` means `.S`. -/
def parseCommand (mnemonic operand : List Char) : Option AsmLine :=
  if mnemonic = "DCT_ROW".toList then operandLine operand 7 fun v => .dctRow (BitVec.ofNat 3 v)
  else if mnemonic = "DCT_COL".toList then operandLine operand 7 fun v => .dctCol (BitVec.ofNat 3 v)
  else if mnemonic = "DCT_FWD".toList ∨ mnemonic = "DCT_FWD.S".toList then
    bareLine operand (.op .dctFwdS)
  else if mnemonic = "DCT_FWD.P".toList then bareLine operand (.op .dctFwdP)
  else if mnemonic = "CMAP_PUBLISH".toList then
    operandLine operand 256 fun v => .cmapPublish (BitVec.ofNat 9 v)
  else if mnemonic = "CMAP_RELEASE".toList then bareLine operand (.op .cmapRelease)
  else if mnemonic = "CEXP_PIX".toList then
    operandLine operand 65535 fun v => .cexpPix (BitVec.ofNat 16 v)
  else if mnemonic = "CEXP_ROW".toList ∨ mnemonic = "CEXP_ROW.S".toList then
    operandLine operand 65535 fun v => .cexpRowS (BitVec.ofNat 16 v)
  else if mnemonic = "CEXP_ROW.P".toList then
    operandLine operand 65535 fun v => .cexpRowP (BitVec.ofNat 16 v)
  else if mnemonic = "DCT_PASS1".toList then bareLine operand .dctPass1
  else if mnemonic = "DCT_PASS2".toList then bareLine operand .dctPass2
  else none

/-- A line without the blanks at its end. -/
def trimEnd (line : List Char) : List Char := (line.reverse.dropWhile fun c => c == ' ').reverse

/-- One line: the mnemonic, then blanks, then the operand where there is one. Blanks at the end of any
line mean nothing, and a blank before the mnemonic makes it no command: a DESIGN CHOICE (log 19). -/
def parseLine (line : List Char) : Option AsmLine :=
  parseCommand (line.takeWhile fun c => c != ' ')
    (((trimEnd line).dropWhile fun c => c != ' ').dropWhile fun c => c == ' ')

/-- The command words a line assembles to, in order. -/
def assembleLine (line : String) : Option (List Word) :=
  match parseLine line.toList with
  | some l => some (l.commands.map encode)
  | none => none

end Sys2Proof.Machine
end

