-- ==== Sys2Proof/Machine/Datapath.lean ====
section
/-! DEFINITION. The 1-D transform on a datapath of finite accumulators (spec 40_dct_forward.md R124,
R125; 70_reset_and_hazards.md R202). The block's own semantics is the exact `dct1d` (R120, 92 D5); this
file says what a builder's datapath computes, so that the widths R124 and R125 name can be claims.

R116 leaves open in which order a datapath accumulates, and R125 where it holds a value: adding the
three-term sums from left to right, as R110 writes them, passing every sum and product through the
accumulator, and holding the biased sum of a DESCALE in it, are a DESIGN CHOICE (log 25). -/

namespace Sys2Proof.Machine

/-- A `w`-bit two's-complement accumulator that wraps around. -/
def wrapAcc (w : Nat) (v : Int) : Int := Int.bmod v (2 ^ w)

/-- A `w`-bit two's-complement accumulator that saturates. -/
def saturateAcc (w : Nat) (v : Int) : Int := max (-(2 ^ (w - 1))) (min v (2 ^ (w - 1) - 1))

/-- `v` is a `w`-bit two's-complement value. -/
def fitsAcc (w : Nat) (v : Int) : Prop := -(2 ^ (w - 1)) ≤ v ∧ v ≤ 2 ^ (w - 1) - 1

/-- DESCALE with the biased sum held in the accumulator. -/
def descaleOn (acc : Int → Int) (x : Int) (n : Nat) : Int := asr (acc (x + 2 ^ (n - 1))) n

def dcScaleOn (acc : Int → Int) (b : Precision) : Stage → Int → Int
  | .row, v => acc (shl v (pass1Bits b))
  | .col, v => descaleOn acc v (pass1Bits b)

/-- `evenPart` with every sum and product held in `acc`. -/
def evenPartOn (acc : Int → Int) (b : Precision) (F : FixName → Int) (st : Stage)
    (tmp0 tmp1 tmp2 tmp3 : Int) : Int × Int × Int × Int :=
  let sh := descaleShift b st
  let tmp10 := acc (tmp0 + tmp3)
  let tmp13 := acc (tmp0 - tmp3)
  let tmp11 := acc (tmp1 + tmp2)
  let tmp12 := acc (tmp1 - tmp2)
  let z1 := acc (multiply (acc (tmp12 + tmp13)) (F .c0_541196100))
  (dcScaleOn acc b st (acc (tmp10 + tmp11)),
   descaleOn acc (acc (z1 + acc (multiply tmp13 (F .c0_765366865)))) sh,
   dcScaleOn acc b st (acc (tmp10 - tmp11)),
   descaleOn acc (acc (z1 + acc (multiply tmp12 (-(F .c1_847759065))))) sh)

/-- `oddPart` with every sum and product held in `acc`. -/
def oddPartOn (acc : Int → Int) (b : Precision) (F : FixName → Int) (st : Stage)
    (tmp4 tmp5 tmp6 tmp7 : Int) : Int × Int × Int × Int :=
  let sh := descaleShift b st
  let z1 := acc (tmp4 + tmp7)
  let z2 := acc (tmp5 + tmp6)
  let z3 := acc (tmp4 + tmp6)
  let z4 := acc (tmp5 + tmp7)
  let z5 := acc (multiply (acc (z3 + z4)) (F .c1_175875602))
  let t4 := acc (multiply tmp4 (F .c0_298631336))
  let t5 := acc (multiply tmp5 (F .c2_053119869))
  let t6 := acc (multiply tmp6 (F .c3_072711026))
  let t7 := acc (multiply tmp7 (F .c1_501321110))
  let m1 := acc (multiply z1 (-(F .c0_899976223)))
  let m2 := acc (multiply z2 (-(F .c2_562915447)))
  let m3 := acc (acc (multiply z3 (-(F .c1_961570560))) + z5)
  let m4 := acc (acc (multiply z4 (-(F .c0_390180644))) + z5)
  (descaleOn acc (acc (acc (t7 + m1) + m4)) sh, descaleOn acc (acc (acc (t6 + m2) + m3)) sh,
   descaleOn acc (acc (acc (t5 + m2) + m4)) sh, descaleOn acc (acc (acc (t4 + m1) + m3)) sh)

/-- `DCT1D` on a datapath whose every sum and product passes through the accumulator `acc`. -/
def dct1dOn (acc : Int → Int) (b : Precision) (F : FixName → Int) (st : Stage) (x : Vec8) : Vec8 :=
  let e := evenPartOn acc b F st (acc (x.x0 + x.x7)) (acc (x.x1 + x.x6)) (acc (x.x2 + x.x5))
    (acc (x.x3 + x.x4))
  let o := oddPartOn acc b F st (acc (x.x3 - x.x4)) (acc (x.x2 - x.x5)) (acc (x.x1 - x.x6))
    (acc (x.x0 - x.x7))
  ⟨e.1, o.1, e.2.1, o.2.1, e.2.2.1, o.2.2.1, e.2.2.2, o.2.2.2⟩

end Sys2Proof.Machine
end

