-- ==== Sys2Proof/Safety.lean ====
section
/-! DEFINITION. What counts as a safe run, in the terms claims use. The block raises no error (spec
60_exceptions.md R170): the one bad thing is use outside the contract, which the model refuses
(00_scope.md R11). So a run is safe when every operation is in contract; this file says what that is,
operation by operation, in the words of the preconditions and not of the meanings, and which
invariant every step keeps. -/

namespace Sys2Proof.Machine

/-! ### What a rule's hypotheses say -/

/-- `u` is the DCT unit whose port the present operation came in by. -/
def AtDctu (s : State) (u : Dctu) : Prop := s.dctus[s.port]? = some u

/-- `u` is the colour-expansion unit whose port the present operation came in by. -/
def AtCexu (s : State) (u : Cexu) : Prop := s.cexus[s.port]? = some u

/-- Replica `k` of the unit, if there is one, has no operation in progress (R175). -/
def IdleAt (s : State) (unit : FuncUnit) (k : Nat) : Prop :=
  match unit with
  | .dctu => ∀ u, s.dctus[k]? = some u → u.progress = .idle
  | .cexu => ∀ u, s.cexus[k]? = some u → u.progress = .idle

/-- The 8 elements of line `n` are defined and are `x`. -/
def LineIs (b : Block) (st : Stage) (n : BitVec 3) (x : Vec8) : Prop :=
  ∀ k : Fin 8, b.get (lineElement st n k) = some (x.get k)

/-- All 8 values lie in the stage's domain (R118). -/
def LineInDomain (p : Precision) (st : Stage) (x : Vec8) : Prop :=
  ∀ k : Fin 8, inDomain p st (x.get k) = true

/-- R112's and R113's precondition on line `n`. -/
def LineReady (p : Precision) (st : Stage) (n : BitVec 3) (b : Block) : Prop :=
  ∃ x, LineIs b st n x ∧ LineInDomain p st x

/-- R114's precondition: 64 defined elements in `DOM_S`. -/
def BlockReady (p : Precision) (b : Block) : Prop :=
  ∀ i : Fin 64, ∃ v, b.get i = some v ∧ inDomS p v = true

/-- R141's "fully populated": every entry below `len` of every channel is defined. -/
def Populated (m : Colormap) (len : Nat) : Prop :=
  ∀ i, i < len → ∀ ch, ∃ v, (m.channel ch).read i = some v

/-- R143's precondition on position `p` besides `CMAP_FROZEN = 1`. -/
def PositionReady (s : State) (u : Cexu) (p : Nat) : Prop :=
  p < s.cfg.maxRow.toNat ∧
    ∃ i : Byte, u.idx.read p = some i ∧ i.toNat < s.cmapLen.toNat

/-- R144's precondition besides `CMAP_FROZEN = 1`. -/
def RowReady (s : State) (u : Cexu) (n : Nat) : Prop :=
  n ≤ s.cfg.maxRow.toNat ∧ ∀ p, p < n → PositionReady s u p

/-- An operation in contract at the present port (the preconditions of R112, R113, R114, R117, R141,
R142, R143, R144, R147). -/
def InContract (s : State) : Instr → Prop
  | .dctRow r => ∃ u, AtDctu s u ∧ LineReady s.cfg.precision .row r u.blk
  | .dctCol c => ∃ u, AtDctu s u ∧ LineReady s.cfg.precision .col c u.blk
  | .dctFwdS => ∃ u, AtDctu s u ∧ BlockReady s.cfg.precision u.blk
  | .dctFwdP => ∃ u, AtDctu s u ∧ BlockReady s.cfg.precision u.blk
  | .cmapPublish len =>
    (∃ u, AtCexu s u) ∧ s.anyExpanding = false ∧ s.cmapFrozen = false ∧ len.toNat ≤ cmapDepth ∧
      Populated s.cmap len.toNat
  | .cmapRelease => (∃ u, AtCexu s u) ∧ s.anyExpanding = false ∧ s.cmapFrozen = true
  | .cexpPix p => ∃ u, AtCexu s u ∧ s.cmapFrozen = true ∧ PositionReady s u p.toNat
  | .cexpRowS n => ∃ u, AtCexu s u ∧ s.cmapFrozen = true ∧ RowReady s u n.toNat
  | .cexpRowP n => ∃ u, AtCexu s u ∧ s.cmapFrozen = true ∧ RowReady s u n.toNat

/-! ### The invariant -/

/-- A byte space in canonical form whose elements all lie below `size`. -/
def Memory.Fits (m : Memory) (size : Nat) : Prop := m.wf = true ∧ ∀ c ∈ m, c.1 < size

/-- A `DCT_FWD` in pieces never has a line left that is out of contract: what R119 and R115 guarantee
half-way through. -/
def ForwardOk (p : Precision) (b : Block) : DctProgress → Prop
  | .idle => True
  | .forward .row done =>
    done.Nodup ∧ done.length < 8 ∧
      ∀ n : BitVec 3,
        if n ∈ done then ∃ y, LineIs b .row n y ∧ LineInDomain p .col y else LineReady p .row n b
  | .forward .col done =>
    done.Nodup ∧ done.length < 8 ∧ ∀ n : BitVec 3, n ∉ done → LineReady p .col n b

/-- A `CEXP_ROW` in pieces never has a position left that is out of contract: what the frozen colormap
(R150) guarantees half-way through. -/
def RowOk (s : State) (u : Cexu) : CexProgress → Prop
  | .idle => True
  | .row n done =>
    done.Nodup ∧ done.length < n.toNat ∧ (∀ p ∈ done, p < n.toNat) ∧ s.cmapFrozen = true ∧
      RowReady s u n.toNat

/-- A DCT unit's state is legal. -/
structure DctuOk (s : State) (u : Dctu) : Prop where
  /-- Every element is a `W_ELEM`-bit value (R8, R20, R119). -/
  elements : ∀ i : Fin 64, inElem s.cfg.wElem u.blk.val[i] = true
  progress : ForwardOk s.cfg.precision u.blk u.progress

/-- A colour-expansion unit's state is legal. -/
structure CexuOk (s : State) (u : Cexu) : Prop where
  idx : u.idx.Fits s.cfg.maxRow.toNat
  rgb : u.rgb.Fits (3 * s.cfg.maxRow.toNat)
  progress : RowOk s u u.progress

/-- The state is legal. -/
structure State.Inv (s : State) : Prop where
  /-- `NUM_UNITS` replicas of each unit (R37). -/
  dctuCount : s.dctus.length = s.cfg.numUnits
  cexuCount : s.cexus.length = s.cfg.numUnits
  /-- `CMAP_LEN` is 0..256 (R27). -/
  len : s.cmapLen.toNat ≤ cmapDepth
  colormap : ∀ ch, (s.cmap.channel ch).Fits cmapDepth
  /-- R150: while `CMAP_FROZEN = 1` every entry below `CMAP_LEN` is defined. -/
  frozen : s.cmapFrozen = true → Populated s.cmap s.cmapLen.toNat
  dctus : ∀ u ∈ s.dctus, DctuOk s u
  cexus : ∀ u ∈ s.cexus, CexuOk s u

/-- How many pieces a DCT unit has left (R204: at most 16). -/
def DctProgress.piecesLeft : DctProgress → Nat
  | .idle => 0
  | .forward .row done => (8 - done.length) + 8
  | .forward .col done => 8 - done.length

/-- How many positions a colour-expansion unit has left (R204: at most `n`). -/
def CexProgress.piecesLeft : CexProgress → Nat
  | .idle => 0
  | .row n done => n.toNat - done.length

/-! ### Runs -/

/-- Operations at the present port, one after the other. -/
def runAll : List Instr → State → Host.Outcome State Fault Refusal
  | [], s => .next s
  | i :: is, s =>
    match exec i s with
    | .next t => runAll is t
    | .fault f => .fault f
    | .refused r => .refused r

/-- Events, one after the other. -/
def performAll : List Event → State → Host.Outcome State Fault Refusal
  | [], s => .next s
  | e :: es, s =>
    match perform e s with
    | .next t => performAll es t
    | .fault f => .fault f
    | .refused r => .refused r

/-- The answer is a refusal. -/
def Refuses (o : Host.Outcome State Fault Refusal) : Prop := ∃ r, o = .refused r

/-- The operation is an expansion. -/
def isExpansion : Instr → Bool
  | .dctRow _ => false
  | .dctCol _ => false
  | .dctFwdS => false
  | .dctFwdP => false
  | .cmapPublish _ => false
  | .cmapRelease => false
  | .cexpPix _ => true
  | .cexpRowS _ => true
  | .cexpRowP _ => true

end Sys2Proof.Machine
end

