-- ==== Sys2Proof/Certificates/Slice0/Obligations.lean ====
section
/-! DEFINITION. The statements for the provers. Each docstring names the rule of spec/ it formalises.
Refusals are stated without their names (`Refuses`): the spec has one outcome and no cause (R173). -/

open Sys2Proof Sys2Proof.Machine

/-! ### Encoding (30_encoding.md) -/

/-- R84, R85, R89: decoding an operation's own word gives the operation back, with every operand. -/
def Obligations.DecodeOfEncode : Prop :=
  ∀ i : Instr, i.wellFormed = true → decode (encode i) = .ok i

/-- R84, R85: a word that decodes is the word of what it decodes to, which is well formed. -/
def Obligations.EncodeOfDecode : Prop :=
  ∀ (w : Word) (i : Instr), decode w = .ok i → encode i = w ∧ i.wellFormed = true

/-- R84: a word selects the row whose `cmd & mask = match` (with `len ≤ 256` for CMAP_PUBLISH), and at
most one row matches. -/
def Obligations.DecodeSelectsTheTableRow : Prop :=
  (∀ (w : Word) (row : OpcodeRow), row ∈ opcodeTable →
    ((∃ i, decode w = .ok i ∧ i.mnemonic = row.mnemonic) ↔
      row.selects w = true ∧
        (row.mnemonic = "CMAP_PUBLISH" → (w.extractLsb' 0 9).toNat ≤ 256))) ∧
  ∀ (w : Word) (row row' : OpcodeRow), row ∈ opcodeTable → row' ∈ opcodeTable →
    row.selects w = true → row'.selects w = true → row = row'

/-- R86: exactly these words are reserved, and issuing one is refused. -/
def Obligations.ReservedWordsAreRefused : Prop :=
  (∀ w : Word,
    (∃ why, decode w = .error why) ↔
      opField w ∉ ([0x10, 0x11, 0x12, 0x20, 0x21, 0x22, 0x23] : List (BitVec 8)) ∨
      zField w ≠ 0 ∨
      (stratField w = 1 ∧ opField w ∈ ([0x10, 0x11, 0x20, 0x21, 0x22] : List (BitVec 8))) ∨
      (opField w ∈ ([0x10, 0x11] : List (BitVec 8)) ∧ (argField w).extractLsb' 3 13 ≠ 0) ∨
      (opField w ∈ ([0x12, 0x21] : List (BitVec 8)) ∧ argField w ≠ 0) ∨
      (opField w = 0x20 ∧ (argField w).extractLsb' 9 7 ≠ 0) ∨
      (opField w = 0x20 ∧ 256 < ((argField w).extractLsb' 0 9).toNat)) ∧
  ∀ (s : State) (k : Nat) (w : Word) (rest : List Event) (why : Reserved),
    s.inputs = .host k (.issue w) :: rest → decode w = .error why → Refuses (step s)

/-- R84, R85 and the words of 95_test_vectors.md V5.1: one word of every operation, and reserved ones
(whatever reason the model names, log 20). -/
def Obligations.SampleWordsDecode : Prop :=
  (decode 0x10000003 = .ok (.dctRow 3) ∧ decode 0x11000007 = .ok (.dctCol 7) ∧
    decode 0x12000000 = .ok .dctFwdS ∧ decode 0x12800000 = .ok .dctFwdP ∧
    decode 0x20000100 = .ok (.cmapPublish 256) ∧ decode 0x21000000 = .ok .cmapRelease ∧
    decode 0x2200FFFF = .ok (.cexpPix 65535) ∧ decode 0x23000004 = .ok (.cexpRowS 4) ∧
    decode 0x23800280 = .ok (.cexpRowP 640)) ∧
  ∀ w ∈ ([0x10000008, 0x127F0000, 0x20000101, 0x22800005, 0x00000000, 0xFFFFFFFF] : List Word),
    ∃ why, decode w = .error why

/-- R87: a well-formed word whose operand value breaks a precondition of its operation is no reserved
encoding: it decodes, and the operation refuses (`CEXP_PIX p` with `p ≥ MAX_ROW`, `CEXP_ROW n` with
`n > MAX_ROW`, any expansion while `CMAP_FROZEN = 0`, `CMAP_PUBLISH len` while frozen or with an entry
below `len` missing). -/
def Obligations.OperandValueIsNoReservedEncoding : Prop :=
  ∀ (n : BitVec 16) (s : State),
    (decode (encode (.cexpPix n)) = .ok (.cexpPix n) ∧
      decode (encode (.cexpRowS n)) = .ok (.cexpRowS n) ∧
      decode (encode (.cexpRowP n)) = .ok (.cexpRowP n)) ∧
    (s.cmapFrozen = false ∨ s.cfg.maxRow.toNat ≤ n.toNat → Refuses (exec (.cexpPix n) s)) ∧
    (s.cmapFrozen = false ∨ s.cfg.maxRow.toNat < n.toNat →
      Refuses (exec (.cexpRowS n) s) ∧ Refuses (exec (.cexpRowP n) s)) ∧
    ∀ len : BitVec 9, len.toNat ≤ 256 →
      decode (encode (.cmapPublish len)) = .ok (.cmapPublish len) ∧
      (s.cmapFrozen = true ∨ ¬Populated s.cmap len.toNat → Refuses (exec (.cmapPublish len) s))

/-- R89, R90 and 95_test_vectors.md V5.2: the text of a command and the word it stands for. -/
def Obligations.SampleLinesAssemble : Prop :=
  assembleLine "DCT_ROW 7" = some [0x10000007] ∧ assembleLine "DCT_COL 4" = some [0x11000004] ∧
  assembleLine "DCT_FWD" = some [0x12000000] ∧ assembleLine "DCT_FWD.P" = some [0x12800000] ∧
  assembleLine "CMAP_PUBLISH 256" = some [0x20000100] ∧
  assembleLine "CMAP_RELEASE" = some [0x21000000] ∧
  assembleLine "CEXP_PIX 0x1234" = some [0x22001234] ∧
  assembleLine "CEXP_ROW 640" = some [0x23000280] ∧
  assembleLine "CEXP_ROW.P 65535" = some [0x2380FFFF] ∧
  assembleLine "DCT_PASS2" =
    some [0x11000000, 0x11000001, 0x11000002, 0x11000003, 0x11000004, 0x11000005, 0x11000006,
      0x11000007]

/-! ### The step -/

/-- R54, R59, R80 (`HostIssue` performs what the word encodes, in the host's order), in the model's form:
when the host's next primitive is `HostIssue(w)` at port `k` and `w` decodes to `i`, the step is `exec i`
at that port, with the primitive taken off the list. The list of inputs and `withFetchWord`, which puts
exactly that primitive there, are the model's choice (log 5). That `exec i` runs on the state in which
replica `k` of `i`'s unit has completed what it was in the middle of (the state itself, when that is
nothing) is the model's, deduced from R175 and R59 (log 11). -/
def Obligations.StepRunsTheIssuedOperation : Prop :=
  (∀ (s : State) (k : Nat) (w : Word) (rest : List Event) (i : Instr),
    s.inputs = .host k (.issue w) :: rest → decode w = .ok i →
      (IdleAt s (unitOf i) k → step s = exec i { s with inputs := rest, port := k }) ∧
      ∀ s', settle (some (unitOf i)) { s with inputs := rest, port := k } = .ok s' →
        step s = exec i s') ∧
  ∀ (s : State) (i : Instr), i.wellFormed = true → IdleAt s (unitOf i) s.port →
    step (s.withFetchWord 32 (encode i).toNat) = exec i s

/-- R183: between operations, with nothing asked of it, the block holds all its state (that a step with
nothing asked is idle is the model's, log 6). -/
def Obligations.IdleStepHoldsTheState : Prop :=
  ∀ s : State, s.inputs = [] → step s = .next s

/-- R190 (and R34's table): whatever the block was in the middle of, after the reset event `CMAP_LEN`
and `CMAP_FROZEN` are 0, `CMAP_STATUS` reads 0, every element of every buffer of every replica is
undefined, no operation is in progress, and the parameters (`FIX` among them) are as built. That the
host's own lists of what it does next and has read stay is the model's (log 13). -/
def Obligations.ResetFromAnyState : Prop :=
  ∀ (s : State) (rest : List Event), s.inputs = .reset :: rest →
    ∃ t, step s = .next t ∧ t.cfg = s.cfg ∧ t.cmapLen = 0 ∧ t.cmapFrozen = false ∧
      t.cmapStatus = 0x00000000 ∧ t.dctus.length = s.cfg.numUnits ∧
      t.cexus.length = s.cfg.numUnits ∧ (∀ ch i, (t.cmap.channel ch).read i = none) ∧
      (∀ u ∈ t.dctus, u.progress = .idle ∧ ∀ i : Fin 64, u.blk.get i = none) ∧
      (∀ u ∈ t.cexus, u.progress = .idle ∧ (∀ p, u.idx.read p = none) ∧ ∀ k, u.rgb.read k = none) ∧
      t.inputs = rest ∧ t.replies = s.replies

/-- R34, R7: the reset state of every configuration meets the invariant. -/
def Obligations.ResetMeetsTheStateInvariant : Prop :=
  ∀ c : Config, (State.resetOf c).Inv

/-- R20, R27, R35, R115, R119, R150: every step, whatever the outside does, keeps the state legal:
elements are `W_ELEM`-bit values, the byte spaces are in canonical form and within their sizes,
`CMAP_LEN ≤ 256`, a frozen colormap is populated, and an operation in progress has no piece left that
is out of contract. -/
def Obligations.StepKeepsTheStateInvariant : Prop :=
  ∀ s t : State, s.Inv → step s = .next t → t.Inv

/-- R24: no operation and no host access writes `FIX` or any other parameter. -/
def Obligations.StepNeverWritesTheParameters : Prop :=
  ∀ s t : State, step s = .next t → t.cfg = s.cfg

/-- R204, R175 (every operation in contract completes in finitely many steps), for the small steps that
R32, R115 and R145 allow: an operation in progress can always go on. That an operation goes on by work
events, and that any piece left may be the next, is the model's choice (log 10). In a legal state every line left of a
`DCT_FWD`'s pass, and every position left of a `CEXP_ROW`, can be the next piece; it completes, and one
piece fewer is left, of at most 16, respectively `n`. -/
def Obligations.EveryPieceLeftCompletes : Prop :=
  ∀ (s : State) (k : Nat), s.Inv →
    (∀ (u : Dctu) (pass : Stage) (done : List (BitVec 3)) (n : BitVec 3), s.dctus[k]? = some u →
      u.progress = .forward pass done → n ∉ done →
        u.progress.piecesLeft ≤ 16 ∧
        ∃ t u', perform (.work .dctu k n.toNat) s = .next t ∧ t.dctus[k]? = some u' ∧
          u'.progress.piecesLeft + 1 = u.progress.piecesLeft) ∧
    ∀ (u : Cexu) (n : BitVec 16) (done : List Nat) (p : Nat), s.cexus[k]? = some u →
      u.progress = .row n done → p < n.toNat → p ∉ done →
        u.progress.piecesLeft ≤ n.toNat ∧
        ∃ t u', perform (.work .cexu k p) s = .next t ∧ t.cexus[k]? = some u' ∧
          u'.progress.piecesLeft + 1 = u.progress.piecesLeft

/-- R112, R113, R114, R117, R141, R142, R143, R144, R147 with R11: an operation answers a next state
exactly when it is in contract, and refuses otherwise. -/
def Obligations.OperationCompletesExactlyInContract : Prop :=
  ∀ (s : State) (i : Instr), s.Inv →
    ((∃ t, exec i s = .next t) ↔ InContract s i) ∧ (Refuses (exec i s) ↔ ¬InContract s i)

/-! ### Arithmetic of the DCT unit (40_dct_forward.md) -/

/-- R6: `B + CONST_BITS + PASS1_BITS ≤ 26` in both configurations. -/
def Obligations.PrecisionBound : Prop :=
  ∀ b : Precision, sampleBits b + constBits + pass1Bits b ≤ 26

/-- R24, R25: the twelve integers are `floor (c * 2^13)`, respectively `floor (c * 2^13 + 0.5)`, of the
nine-decimal literals, and the two tables differ in exactly six entries, each larger by 1. -/
def Obligations.FixTablesFromTheLiterals : Prop :=
  (∀ k, fixTrunc k = ((fixLiteral k * 2 ^ 13 / 10 ^ 9 : Nat) : Int)) ∧
  (∀ k, fixRef k = (((2 * fixLiteral k * 2 ^ 13 + 10 ^ 9) / (2 * 10 ^ 9) : Nat) : Int)) ∧
  (∀ k, fixRef k = fixTrunc k +
    if k ∈ [FixName.c0_765366865, .c0_899976223, .c1_175875602, .c1_501321110, .c1_847759065,
      .c3_072711026] then 1 else 0) ∧
  ∀ t k, 0 < fix t k ∧ fix t k < 2 ^ 15

/-- R9: `shl` is multiplication by a power of two, for negative values as well; `asr` is what an
arithmetic right shift of a two's-complement word computes, and undoes `shl`. -/
def Obligations.AsrIsTheArithmeticWordShift : Prop :=
  (∀ (x : Int) (k : Nat), shl x k = x * 2 ^ k) ∧
  (∀ (w : Nat) (x : BitVec w) (k : Nat), (x.sshiftRight k).toInt = asr x.toInt k) ∧
  ∀ (x : Int) (k : Nat), asr (shl x k) k = x

/-- R101: `DESCALE(x, n)` is the one integer `y` with `2^n * y ≤ x + 2^(n-1) < 2^n * (y + 1)`. -/
def Obligations.DescaleIsTheBiasedFloor : Prop :=
  ∀ (x : Int) (n : Nat), 1 ≤ n → ∀ y : Int,
    descale x n = y ↔ 2 ^ n * y ≤ x + 2 ^ (n - 1) ∧ x + 2 ^ (n - 1) < 2 ^ n * (y + 1)

/-- R102: `DESCALE` rounds to a nearest integer, an exact half goes up for both signs, so that
`DESCALE(-x, n) = -DESCALE(x, n)` fails exactly when `x` is an odd multiple of `2^(n-1)`. -/
def Obligations.DescaleRoundsHalvesUp : Prop :=
  ∀ (x : Int) (n : Nat), 1 ≤ n →
    |2 * (2 ^ n * descale x n - x)| ≤ 2 ^ n ∧
    (∀ m : Int, descale ((2 * m + 1) * 2 ^ (n - 1)) n = m + 1) ∧
    (descale (-x) n ≠ -descale x n ↔ ∃ m : Int, x = (2 * m + 1) * 2 ^ (n - 1)) ∧
    descale 0 n = 0

/-- R112, R113, R122 (c), under any constant table: a line of 8 equal values `v` has `y[0] = 8v *
2^PASS1_BITS` after the row stage and `DESCALE(8v, PASS1_BITS)` after the column stage, and zeros
elsewhere. -/
def Obligations.ConstantLine : Prop :=
  ∀ (b : Precision) (F : FixName → Int) (v : Int),
    dct1d b F .row ⟨v, v, v, v, v, v, v, v⟩ = ⟨8 * v * 2 ^ pass1Bits b, 0, 0, 0, 0, 0, 0, 0⟩ ∧
    dct1d b F .col ⟨v, v, v, v, v, v, v, v⟩ = ⟨descale (8 * v) (pass1Bits b), 0, 0, 0, 0, 0, 0, 0⟩

/-- R122 (e), under any constant table: reversing the 8 inputs keeps the even outputs and negates the four
sums that the odd outputs are the DESCALE of. So each odd output, which was `DESCALE(a, sh)`, becomes
`DESCALE(-a, sh)`. -/
def Obligations.MirroredLine : Prop :=
  ∀ (b : Precision) (F : FixName → Int) (st : Stage) (x : Vec8),
    let r : Vec8 := ⟨x.x7, x.x6, x.x5, x.x4, x.x3, x.x2, x.x1, x.x0⟩
    let y := dct1d b F st x
    let z := dct1d b F st r
    let a := lineOddSums F x
    let sh := descaleShift b st
    lineOddSums F r = (-a.1, -a.2.1, -a.2.2.1, -a.2.2.2) ∧
    (z.x0 = y.x0 ∧ z.x2 = y.x2 ∧ z.x4 = y.x4 ∧ z.x6 = y.x6) ∧
    (y.x1 = descale a.1 sh ∧ y.x3 = descale a.2.1 sh ∧ y.x5 = descale a.2.2.1 sh ∧
      y.x7 = descale a.2.2.2 sh) ∧
    z.x1 = descale (-a.1) sh ∧ z.x3 = descale (-a.2.1) sh ∧ z.x5 = descale (-a.2.2.1) sh ∧
      z.x7 = descale (-a.2.2.2) sh

/-- R119: the row stage maps `DOM_S⁸` into `DOM_I⁸`, under either table. -/
def Obligations.RowStageStaysInTheIntermediateDomain : Prop :=
  ∀ (b : Precision) (t : FixTab) (x : Vec8), LineInDomain b .row x →
    LineInDomain b .col (dct1d b (fix t) .row x)

/-- R119: the column stage on `DOM_I⁸` gives values of magnitude at most `2^(B+5)`, which every
admitted `W_ELEM` holds, under either table. -/
def Obligations.ColumnStageFitsTheElement : Prop :=
  ∀ (b : Precision) (t : FixTab) (x : Vec8), LineInDomain b .col x → ∀ k : Fin 8,
    |(dct1d b (fix t) .col x).get k| ≤ 2 ^ (sampleBits b + 5) ∧
    ∀ w, b.minElemWidth ≤ w → inElem w ((dct1d b (fix t) .col x).get k) = true

/-- R119 prints 7568 as the largest magnitude of the column stage's outputs 1, 2, 3, 5, 6, 7 for
`B = 8`. It is 7569: these inputs of `DOM_I` reach it under `FIXTAB_REF`. -/
def Obligations.ColumnStageReaches7569 : Prop :=
  LineInDomain .b8 .col ⟨4096, -4096, 4096, -4096, -4096, 4096, -4096, 4096⟩ ∧
  (dct1d .b8 (fix .ref) .col ⟨4096, -4096, 4096, -4096, -4096, 4096, -4096, 4096⟩).x6 = 7569

/-- R124 for `B = 8`: a 30-bit signed datapath (adding in the model's order, log 25) never overflows: any accumulator that holds 30-bit values
unchanged, whatever it does with others, gives the exact transform in both stages. -/
def Obligations.ThirtyBitDatapathIsExactAtEightBits : Prop :=
  ∀ (acc : Int → Int), (∀ v, fitsAcc 30 v → acc v = v) →
    ∀ (t : FixTab) (st : Stage) (x : Vec8), LineInDomain .b8 st x →
      dct1dOn acc .b8 (fix t) st x = dct1d .b8 (fix t) st x

/-- R125 (b) for `B = 12`: the same of a 33-bit datapath (log 25). -/
def Obligations.ThirtyThreeBitDatapathIsExactAtTwelveBits : Prop :=
  ∀ (acc : Int → Int), (∀ v, fitsAcc 33 v → acc v = v) →
    ∀ (t : FixTab) (st : Stage) (x : Vec8), LineInDomain .b12 st x →
      dct1dOn acc .b12 (fix t) st x = dct1d .b12 (fix t) st x

/-- R125 (b), R202 for `B = 12`: a 32-bit datapath (adding in the model's order, log 25) that wraps on every multiply and add gives the exact
transform in both stages, although partial products exceed 32 bits. -/
def Obligations.WrappingThirtyTwoBitDatapathIsExactAtTwelveBits : Prop :=
  ∀ (t : FixTab) (st : Stage) (x : Vec8), LineInDomain .b12 st x →
    dct1dOn (wrapAcc 32) .b12 (fix t) st x = dct1d .b12 (fix t) st x

/-- R125 (c), 95_test_vectors.md V3.11: a 32-bit saturating datapath (adding in the model's order, log 25) does not match, on a column of
`DOM_I`. -/
def Obligations.SaturatingThirtyTwoBitDatapathDiffers : Prop :=
  LineInDomain .b12 .col ⟨0, -32768, -32768, 0, 0, 32752, 32752, 0⟩ ∧
  ∀ t : FixTab,
    dct1dOn (saturateAcc 32) .b12 (fix t) .col ⟨0, -32768, -32768, 0, 0, 32752, 32752, 0⟩ ≠
      dct1d .b12 (fix t) .col ⟨0, -32768, -32768, 0, 0, 32752, 32752, 0⟩

/-! ### The operations of the DCT unit -/

/-- R112, R113 (R111, R118): on a line of defined elements in the stage's domain, `DCT_ROW r` and
`DCT_COL c` answer the state in which the line's 8 elements are `DCT1D` of what they were, the other 56
keep their value and defined-ness, and nothing else changes; on any other line they refuse. -/
def Obligations.DctLineResult : Prop :=
  ∀ (st : Stage) (n : BitVec 3) (s : State) (u : Dctu), AtDctu s u →
    let i : Instr := match st with | .row => .dctRow n | .col => .dctCol n
    (∀ x, LineIs u.blk st n x → LineInDomain s.cfg.precision st x →
      ∃ b, exec i s = .next (s.setDctu s.port { u with blk := b }) ∧
        LineIs b st n (dct1d s.cfg.precision (fix s.cfg.fixTab) st x) ∧
        ∀ e : Fin 64, (∀ k, lineElement st n k ≠ e) →
          b.val[e] = u.blk.val[e] ∧ b.defd[e] = u.blk.defd[e]) ∧
    ((∃ k, u.blk.get (lineElement st n k) = none ∨
        ∃ v, u.blk.get (lineElement st n k) = some v ∧ inDomain s.cfg.precision st v = false) →
      Refuses (exec i s))

/-- R114, R117: on a block of 64 defined elements in `DOM_S`, `DCT_FWD` of either strategy answers the
state in which every column of the block is the column stage of the column of the intermediate whose
every row is the row stage of that row; nothing else changes. On any other block it refuses. -/
def Obligations.DctForwardResult : Prop :=
  ∀ (i : Instr) (s : State) (u : Dctu), i = .dctFwdS ∨ i = .dctFwdP → AtDctu s u →
    (BlockReady s.cfg.precision u.blk →
      ∃ mid b : Block, exec i s = .next (s.setDctu s.port { u with blk := b }) ∧
        (∀ r, LineIs mid .row r
          (dct1d s.cfg.precision (fix s.cfg.fixTab) .row (u.blk.readLine .row r))) ∧
        ∀ c, LineIs b .col c
          (dct1d s.cfg.precision (fix s.cfg.fixTab) .col (mid.readLine .col c))) ∧
    (¬BlockReady s.cfg.precision u.blk → Refuses (exec i s))

/-- R116: the two strategies of `DCT_FWD` give the same answer in every state and for every `LANES`. -/
def Obligations.ForwardStrategiesAgree : Prop :=
  ∀ s : State, exec .dctFwdP s = exec .dctFwdS s

/-- R115, R90: on a block in contract, the eight `DCT_ROW` in any order and then the eight `DCT_COL` in
any order, `DCT_PASS1; DCT_PASS2` among them, all complete and leave the state of one `DCT_FWD`; a row
operation and a column operation do not commute. -/
def Obligations.ForwardDecomposesInAnyOrder : Prop :=
  (∀ (s : State) (u : Dctu) (rs cs : List (BitVec 3)),
    AtDctu s u → BlockReady s.cfg.precision u.blk → rs.Perm eightLines → cs.Perm eightLines →
      ∃ t, exec .dctFwdS s = .next t ∧ exec .dctFwdP s = .next t ∧
        runAll (rs.map Instr.dctRow ++ cs.map Instr.dctCol) s = .next t ∧
        runAll (AsmLine.dctPass1.commands ++ AsmLine.dctPass2.commands) s = .next t) ∧
  ∃ s t t' : State, runAll [.dctRow 0, .dctCol 0] s = .next t ∧
    runAll [.dctCol 0, .dctRow 0] s = .next t' ∧ t ≠ t'

/-- R32, R115, R175 (by the model's events of log 10): a `DCT_FWD` carried out in pieces, the rows in any order and then the columns in any
order, ends idle in the state of the atomic operation, for every start in contract. -/
def Obligations.ForwardInPiecesIsTheAtomicOperation : Prop :=
  ∀ (s : State) (u : Dctu) (i : Instr) (rs cs : List (BitVec 3)),
    i = .dctFwdS ∨ i = .dctFwdP → AtDctu s u → u.progress = .idle → BlockReady s.cfg.precision u.blk →
    rs.Perm eightLines → cs.Perm eightLines →
      ∃ t, exec i s = .next t ∧
        performAll (.start s.port (encode i) ::
          (rs ++ cs).map fun n => Event.work .dctu s.port n.toNat) s = .next t

/-- R122 (a), (b), (c): after `DCT_FWD`, `BLK(0,0)` is exactly the sum of the 64 samples; a block of 64
equal samples `v` (0 among them) leaves `64v` there and 0 everywhere else. -/
def Obligations.ForwardDcIsTheSum : Prop :=
  ∀ (s t : State) (u u' : Dctu), AtDctu s u → BlockReady s.cfg.precision u.blk →
    exec .dctFwdS s = .next t → t.dctus[s.port]? = some u' →
      u'.blk.get 0 = some ((List.finRange 64).map fun i => u.blk.val[i]).sum ∧
      ∀ v : Int, (∀ i : Fin 64, u.blk.val[i] = v) →
        ∀ i : Fin 64, u'.blk.get i = some (if i = 0 then 64 * v else 0)

/-- R123 (90_conflicts.md C5): the forward transform is linear up to rounding. For samples `X`, `Y` and
`Z = aX + bY` in `DOM_S`, every coefficient of `DCT_FWD(Z)` is within `(1 + |a| + |b|) * e` of `a` times
that of `DCT_FWD(X)` plus `b` times that of `DCT_FWD(Y)`, with `e = 3/2` for `B = 8` and `5/2` for
`B = 12`, under either table. -/
def Obligations.ForwardIsLinearUpToRounding : Prop :=
  ∀ (i : Instr) (sX sY sZ : State) (uX uY uZ : Dctu) (a b : Int), i = .dctFwdS ∨ i = .dctFwdP →
    AtDctu sX uX → AtDctu sY uY → AtDctu sZ uZ → sX.cfg = sZ.cfg → sY.cfg = sZ.cfg →
    BlockReady sZ.cfg.precision uX.blk → BlockReady sZ.cfg.precision uY.blk →
    BlockReady sZ.cfg.precision uZ.blk →
    (∀ k : Fin 64, uZ.blk.val[k] = a * uX.blk.val[k] + b * uY.blk.val[k]) →
      ∃ bX bY bZ : Block,
        exec i sX = .next (sX.setDctu sX.port { uX with blk := bX }) ∧
        exec i sY = .next (sY.setDctu sY.port { uY with blk := bY }) ∧
        exec i sZ = .next (sZ.setDctu sZ.port { uZ with blk := bZ }) ∧
        ∀ k : Fin 64,
          2 * |bZ.val[k] - a * bX.val[k] - b * bY.val[k]| ≤
            (match sZ.cfg.precision with | .b8 => 3 | .b12 => 5) * (1 + |a| + |b|)

/-- R122 (d), R113: ties round up for both signs, so the transform is not odd: the columns `[2,0,…]` and
`[-2,0,…]` for `B = 8`, under either table. -/
def Obligations.ColumnStageIsNotOdd : Prop :=
  ∀ t : FixTab,
    dct1d .b8 (fix t) .col ⟨2, 0, 0, 0, 0, 0, 0, 0⟩ = ⟨1, 1, 1, 1, 1, 0, 0, 0⟩ ∧
    dct1d .b8 (fix t) .col ⟨-2, 0, 0, 0, 0, 0, 0, 0⟩ = ⟨0, -1, -1, -1, 0, 0, 0, 0⟩

/-- What every operation of the DCT unit leaves alone (R112, R113, R114, R117, R36, R2): all of the
colormap, its length and its phase, every colour-expansion unit (`IDX`, `RGB` and progress), every other
replica of the DCT unit, its own replica's progress, and what the host has yet to do and has read. -/
def Obligations.DctFrame : Prop :=
  ∀ (i : Instr) (s t : State), unitOf i = .dctu → exec i s = .next t →
    t.cmap = s.cmap ∧ t.cmapLen = s.cmapLen ∧ t.cmapFrozen = s.cmapFrozen ∧ t.cfg = s.cfg ∧
    t.port = s.port ∧ t.inputs = s.inputs ∧ t.replies = s.replies ∧ t.cexus = s.cexus ∧
    (∀ k, k ≠ s.port → t.dctus[k]? = s.dctus[k]?) ∧
    ∃ u u', s.dctus[s.port]? = some u ∧ t.dctus[s.port]? = some u' ∧ u'.progress = u.progress

/-! ### The colour-expansion unit (41_color_expand.md) -/

/-- R141: with the colormap open, nobody expanding and entries `0 … len-1` of all three channels
defined, `CMAP_PUBLISH len` (0 and 256 among the lengths) sets `CMAP_LEN` to `len` and `CMAP_FROZEN` to
1 and changes nothing else; published already, or with an entry missing, it refuses. -/
def Obligations.PublishResult : Prop :=
  ∀ (len : BitVec 9) (s : State) (u : Cexu), AtCexu s u → len.toNat ≤ 256 →
    (s.anyExpanding = false → s.cmapFrozen = false → Populated s.cmap len.toNat →
      exec (.cmapPublish len) s = .next { s with cmapLen := len, cmapFrozen := true }) ∧
    (s.cmapFrozen = true ∨ ¬Populated s.cmap len.toNat → Refuses (exec (.cmapPublish len) s))

/-- R142: with the colormap frozen and nobody expanding, `CMAP_RELEASE` clears `CMAP_FROZEN` and changes
nothing else (`CMAP_LEN`, the entries, their defined-ness, `IDX` and `RGB` among it); open already, or
with an expansion in progress on some replica, it refuses. -/
def Obligations.ReleaseResult : Prop :=
  ∀ (s : State) (u : Cexu), AtCexu s u →
    (s.anyExpanding = false → s.cmapFrozen = true →
      exec .cmapRelease s = .next { s with cmapFrozen := false }) ∧
    (s.anyExpanding = true ∨ s.cmapFrozen = false → Refuses (exec .cmapRelease s))

/-- R28: the layout of `CMAP_STATUS`, and that `HostRdCSR` returns it. -/
def Obligations.StatusWordLayout : Prop :=
  (∀ s : State,
    s.cmapStatus.extractLsb' 0 9 = s.cmapLen ∧ s.cmapStatus.extractLsb' 9 7 = 0 ∧
    s.cmapStatus.extractLsb' 16 1 = BitVec.ofBool s.cmapFrozen ∧
    s.cmapStatus.extractLsb' 17 15 = 0) ∧
  ∀ (s : State) (u : Cexu), AtCexu s u →
    hostPrim .rdCsr s = .next { s with replies := .status s.cmapStatus :: s.replies }

/-- R143, R140: with the colormap frozen, `p < MAX_ROW`, `IDX[p] = i` defined and below `CMAP_LEN`, and
the three entries `i` defined, `CEXP_PIX p` writes them to `RGB[3p]`, `RGB[3p+1]`, `RGB[3p+2]` in the
order R, G, B and changes nothing else. -/
def Obligations.ExpandPixelResult : Prop :=
  ∀ (p : BitVec 16) (s : State) (u : Cexu) (i r g b : Byte), AtCexu s u →
    s.cmapFrozen = true → p.toNat < s.cfg.maxRow.toNat → u.idx.read p.toNat = some i →
    i.toNat < s.cmapLen.toNat → s.cmap.r.read i.toNat = some r → s.cmap.g.read i.toNat = some g →
    s.cmap.b.read i.toNat = some b →
      ∃ rgb, exec (.cexpPix p) s = .next (s.setCexu s.port { u with rgb := rgb }) ∧
        rgb.read (3 * p.toNat) = some r ∧ rgb.read (3 * p.toNat + 1) = some g ∧
        rgb.read (3 * p.toNat + 2) = some b ∧
        ∀ k, k ≠ 3 * p.toNat → k ≠ 3 * p.toNat + 1 → k ≠ 3 * p.toNat + 2 →
          rgb.read k = u.rgb.read k

/-- R151 (R144, R147): for every frozen colormap, every `n ≤ MAX_ROW`, every row of `n` valid indices
(repeated ones and the empty row among them) and both strategies, `CEXP_ROW n` leaves for every `p < n`
the three bytes of entry `IDX[p]` in `RGB[3p …]` in the order R, G, B, every byte from `RGB[3n]` on as
it was, defined or not, and all other state unchanged. -/
def Obligations.ExpandRowResult : Prop :=
  ∀ (n : BitVec 16) (i : Instr) (s : State) (u : Cexu), s.Inv → i = .cexpRowS n ∨ i = .cexpRowP n →
    AtCexu s u → s.cmapFrozen = true → RowReady s u n.toNat →
      ∃ rgb, exec i s = .next (s.setCexu s.port { u with rgb := rgb }) ∧
        (∀ (p : Nat) (ix : Byte), p < n.toNat → u.idx.read p = some ix →
          rgb.read (3 * p) = s.cmap.r.read ix.toNat ∧
          rgb.read (3 * p + 1) = s.cmap.g.read ix.toNat ∧
          rgb.read (3 * p + 2) = s.cmap.b.read ix.toNat ∧
          ∀ ch, ((s.cmap.channel ch).read ix.toNat).isSome = true) ∧
        ∀ k, 3 * n.toNat ≤ k → rgb.read k = u.rgb.read k

/-- R146: the two strategies of `CEXP_ROW` give the same answer in every state and for every `LANES`. -/
def Obligations.RowStrategiesAgree : Prop :=
  ∀ (n : BitVec 16) (s : State), exec (.cexpRowP n) s = exec (.cexpRowS n) s

/-- R145: a row in contract leaves exactly the state of its `CEXP_PIX` in any order. -/
def Obligations.RowDecomposesInAnyOrder : Prop :=
  ∀ (n : BitVec 16) (s : State) (u : Cexu) (ps : List (BitVec 16)), s.Inv → AtCexu s u →
    s.cmapFrozen = true → RowReady s u n.toNat → (ps.map BitVec.toNat).Perm (List.range n.toNat) →
      ∃ t, exec (.cexpRowS n) s = .next t ∧ exec (.cexpRowP n) s = .next t ∧
        runAll (ps.map Instr.cexpPix) s = .next t

/-- R32, R145, R175 (by the model's events of log 10; an empty row is complete at its start): a `CEXP_ROW n` carried out in pieces, the positions in any order, ends idle in the state
of the atomic operation. -/
def Obligations.RowInPiecesIsTheAtomicOperation : Prop :=
  ∀ (n : BitVec 16) (i : Instr) (s : State) (u : Cexu) (ps : List Nat), s.Inv →
    i = .cexpRowS n ∨ i = .cexpRowP n → AtCexu s u → u.progress = .idle → s.cmapFrozen = true → RowReady s u n.toNat →
    ps.Perm (List.range n.toNat) →
      ∃ t, exec i s = .next t ∧
        performAll (.start s.port (encode i) :: ps.map fun p => Event.work .cexu s.port p) s = .next t

/-- R149: an expansion repeated with the same `IDX` and colormap writes the same bytes again. -/
def Obligations.ExpansionIsIdempotent : Prop :=
  ∀ (i : Instr) (s t : State), s.Inv → isExpansion i = true → exec i s = .next t →
    exec i t = .next t

/-- R148, R144, R143: an undefined index, or one not below `CMAP_LEN`, at any position it reads makes an
expansion refuse, whatever stands at the others. -/
def Obligations.InvalidIndexRefuses : Prop :=
  ∀ (n p : BitVec 16) (s : State) (u : Cexu), AtCexu s u → p.toNat < n.toNat →
    (∀ ix : Byte, u.idx.read p.toNat = some ix → s.cmapLen.toNat ≤ ix.toNat) →
      Refuses (exec (.cexpPix p) s) ∧ Refuses (exec (.cexpRowS n) s) ∧
        Refuses (exec (.cexpRowP n) s)

/-- What an expansion leaves alone (R143, R144, R147, R149, R2): the colormap, its length and phase,
every DCT unit (`BLK` and progress), every other replica of the colour-expansion unit, its own replica's
`IDX` and progress, and every byte of `RGB` outside the triplets of the positions it names. -/
def Obligations.ExpansionFrame : Prop :=
  ∀ (i : Instr) (s t : State), isExpansion i = true → exec i s = .next t →
    t.cmap = s.cmap ∧ t.cmapLen = s.cmapLen ∧ t.cmapFrozen = s.cmapFrozen ∧ t.cfg = s.cfg ∧
    t.port = s.port ∧ t.inputs = s.inputs ∧ t.replies = s.replies ∧ t.dctus = s.dctus ∧
    (∀ k, k ≠ s.port → t.cexus[k]? = s.cexus[k]?) ∧
    ∃ u u', s.cexus[s.port]? = some u ∧ t.cexus[s.port]? = some u' ∧
      (∀ p, u'.idx.read p = u.idx.read p) ∧ u'.progress = u.progress ∧
      ∀ k, (match i with
          | .cexpPix p => ∀ ch, k ≠ tripletElement p.toNat ch
          | .cexpRowS n => ∀ p ch, p < n.toNat → k ≠ tripletElement p ch
          | .cexpRowP n => ∀ p ch, p < n.toNat → k ≠ tripletElement p ch
          | _ => False) →
        u'.rgb.read k = u.rgb.read k

/-! ### The whole block -/

/-- R61, R2: the two units are independent. An operation of the DCT unit and one of the colour-expansion
unit give the same final state in either order, at the same port number or not. So do any two things
that happen at a DCT unit and at a colour-expansion unit (a host access to its state, the beginning of
an operation, a piece of one in progress, an operation), in any order and with the other unit in the
middle of an operation (but for the model's note of which port acted last and the order in which the
host got its replies). -/
def Obligations.UnitsCommute : Prop :=
  (∀ (d e : Instr) (s t : State), unitOf d = .dctu → unitOf e = .cexu →
    (runAll [d, e] s = .next t ↔ runAll [e, d] s = .next t)) ∧
  ∀ (e f : Event) (s t : State), e.unit = some .dctu → f.unit = some .cexu →
    (performAll [e, f] s = .next t →
      ∃ t', performAll [f, e] s = .next t' ∧ t'.replies.Perm t.replies ∧
        { t' with port := t.port, replies := t.replies } = t) ∧
    (performAll [f, e] s = .next t →
      ∃ t', performAll [e, f] s = .next t' ∧ t'.replies.Perm t.replies ∧
        { t' with port := t.port, replies := t.replies } = t)

/-- R66, R184: transforms and expansions issued at two replicas give the same final state in either
order (but for the model's note of which port acted last). -/
def Obligations.ReplicasCommute : Prop :=
  ∀ (j k : Nat) (a b : Instr) (s t : State), j ≠ k →
    (unitOf a = .dctu ∨ isExpansion a = true) → (unitOf b = .dctu ∨ isExpansion b = true) →
    performAll [.host j (.issue (encode a)), .host k (.issue (encode b))] s = .next t →
      ∃ t', performAll [.host k (.issue (encode b)), .host j (.issue (encode a))] s = .next t' ∧
        { t' with port := t.port } = t

/-- R33, as a rule of the whole machine: in a step that is no reset, `BLK` of DCT unit `k` is written only
by a DCT operation or the host at port `k`, `IDX` of colour-expansion unit `k` only by the host there,
`RGB` only by an expansion there, the colormap only by the host, `CMAP_LEN` only by `CMAP_PUBLISH`, and
`CMAP_FROZEN` only by `CMAP_PUBLISH` (to 1) and `CMAP_RELEASE` (to 0). The operation is one issued in
this step, or one that this very unit is in the middle of and that goes on in this step, at its port. -/
def Obligations.WhoWritesWhat : Prop :=
  ∀ (s t : State) (e : Event) (rest : List Event), s.inputs = e :: rest → e ≠ .reset →
    step s = .next t →
    let issues := fun (k : Nat) (p : Instr → Bool) =>
      ∃ w i, (e = .host k (.issue w) ∨ e = .start k w) ∧ decode w = .ok i ∧ p i = true
    (∀ (k : Nat) (u u' : Dctu), s.dctus[k]? = some u → t.dctus[k]? = some u' → u'.blk ≠ u.blk →
      issues k (fun i => unitOf i == .dctu) ∨ (∃ i v, e = .host k (.wrBlk i v)) ∨
        (∃ pass done, u.progress = .forward pass done) ∧ e.unit = some .dctu ∧
          e.portNumber = some k) ∧
    (∀ (k : Nat) (u u' : Cexu), s.cexus[k]? = some u → t.cexus[k]? = some u' →
      (u'.idx ≠ u.idx → ∃ p v, e = .host k (.wrIdx p v)) ∧
      (u'.rgb ≠ u.rgb → issues k isExpansion ∨
        (∃ n done, u.progress = .row n done) ∧ e.unit = some .cexu ∧ e.portNumber = some k)) ∧
    (t.cmap ≠ s.cmap → ∃ k ch i v, e = .host k (.wrCmap ch i v)) ∧
    (t.cmapLen ≠ s.cmapLen → ∃ k, issues k fun i => i == .cmapPublish t.cmapLen) ∧
    (t.cmapFrozen ≠ s.cmapFrozen →
      (t.cmapFrozen = true ∧ ∃ k, issues k fun i => i == .cmapPublish t.cmapLen) ∨
      (t.cmapFrozen = false ∧ ∃ k, issues k fun i => i == .cmapRelease))

/-- R150, R198: while the colormap stays frozen, no step but a reset changes an entry or the length. -/
def Obligations.FrozenColormapDoesNotChange : Prop :=
  ∀ (s t : State) (e : Event) (rest : List Event), s.inputs = e :: rest → e ≠ .reset →
    s.cmapFrozen = true → step s = .next t →
      t.cmap = s.cmap ∧ t.cmapLen = s.cmapLen

/-- R55: a read changes nothing of the block; it only hands the host a value, the same one if read
again. -/
def Obligations.ReadsHaveNoSideEffect : Prop :=
  ∀ (p : HostPrim) (s t : State),
    (match p with
      | .rdBlk _ | .rdCmap _ _ | .rdIdx _ | .rdRgb _ | .rdCsr => True
      | _ => False) →
    hostPrim p s = .next t →
      ∃ r, t = { s with replies := r :: s.replies } ∧
        hostPrim p t = .next { t with replies := r :: t.replies }

/-- R54: `HostWrBLK` and `HostRdBLK`, each with its precondition. -/
def Obligations.HostBlockAccess : Prop :=
  ∀ (s : State) (u : Dctu), AtDctu s u →
    (∀ (i : Fin 64) (v : Int),
      -(2 ^ (s.cfg.wElem - 1)) ≤ v → v ≤ 2 ^ (s.cfg.wElem - 1) - 1 →
      ∃ b, hostPrim (.wrBlk i v) s = .next (s.setDctu s.port { u with blk := b }) ∧
        b.get i = some v ∧
        ∀ j : Fin 64, j ≠ i → b.val[j] = u.blk.val[j] ∧ b.defd[j] = u.blk.defd[j]) ∧
    (∀ (i : Fin 64) (v : Int), u.blk.get i = some v →
      hostPrim (.rdBlk i) s = .next { s with replies := .elem v :: s.replies }) ∧
    (∀ (i : Nat) (v : Int),
      64 ≤ i ∨ v < -(2 ^ (s.cfg.wElem - 1)) ∨ 2 ^ (s.cfg.wElem - 1) - 1 < v →
      Refuses (hostPrim (.wrBlk i v) s)) ∧
    (∀ i : Fin 64, u.blk.get i = none → Refuses (hostPrim (.rdBlk i) s)) ∧
    ∀ i : Nat, 64 ≤ i → Refuses (hostPrim (.rdBlk i) s)

/-- R54: `HostWrCMAP` and `HostRdCMAP`, each with its precondition (and R66's, that nobody expands). -/
def Obligations.HostColormapAccess : Prop :=
  ∀ (s : State) (u : Cexu) (ch : Channel), AtCexu s u →
    (∀ i v : Nat, i ≤ 255 → v ≤ 255 → s.cmapFrozen = false → s.anyExpanding = false →
      ∃ m, hostPrim (.wrCmap ch i v) s = .next { s with cmap := m } ∧
        (m.channel ch).read i = some (BitVec.ofNat 8 v) ∧
        ∀ ch' j, ch' ≠ ch ∨ j ≠ i → (m.channel ch').read j = (s.cmap.channel ch').read j) ∧
    (∀ (i : Nat) (v : Byte), i ≤ 255 → (s.cmap.channel ch).read i = some v →
      hostPrim (.rdCmap ch i) s = .next { s with replies := .byte v :: s.replies }) ∧
    (∀ i v : Nat, 255 < i ∨ 255 < v ∨ s.cmapFrozen = true ∨ s.anyExpanding = true →
      Refuses (hostPrim (.wrCmap ch i v) s)) ∧
    ∀ i : Nat, 255 < i ∨ (s.cmap.channel ch).read i = none → Refuses (hostPrim (.rdCmap ch i) s)

/-- R54: `HostWrIDX`, `HostRdIDX` and `HostRdRGB`, each with its precondition. -/
def Obligations.HostRowBufferAccess : Prop :=
  ∀ (s : State) (u : Cexu), AtCexu s u →
    (∀ p v : Nat, p < s.cfg.maxRow.toNat → v ≤ 255 →
      ∃ m, hostPrim (.wrIdx p v) s = .next (s.setCexu s.port { u with idx := m }) ∧
        m.read p = some (BitVec.ofNat 8 v) ∧ ∀ q, q ≠ p → m.read q = u.idx.read q) ∧
    (∀ (p : Nat) (v : Byte), p < s.cfg.maxRow.toNat → u.idx.read p = some v →
      hostPrim (.rdIdx p) s = .next { s with replies := .byte v :: s.replies }) ∧
    (∀ (k : Nat) (v : Byte), k < 3 * s.cfg.maxRow.toNat → u.rgb.read k = some v →
      hostPrim (.rdRgb k) s = .next { s with replies := .byte v :: s.replies }) ∧
    (∀ p v : Nat, s.cfg.maxRow.toNat ≤ p ∨ 255 < v → Refuses (hostPrim (.wrIdx p v) s)) ∧
    (∀ p : Nat, s.cfg.maxRow.toNat ≤ p ∨ u.idx.read p = none → Refuses (hostPrim (.rdIdx p) s)) ∧
    ∀ k : Nat, 3 * s.cfg.maxRow.toNat ≤ k ∨ u.rgb.read k = none → Refuses (hostPrim (.rdRgb k) s)

/-- R59: a host read gives the value of the most recent write to that element. -/
def Obligations.ReadAfterWrite : Prop :=
  ∀ (s t : State) (j k : Nat),
    (∀ i v, performAll [.host k (.wrBlk i v), .host k (.rdBlk i)] s = .next t →
      t.replies = .elem v :: s.replies) ∧
    (∀ p v, performAll [.host k (.wrIdx p v), .host k (.rdIdx p)] s = .next t →
      t.replies = .byte (BitVec.ofNat 8 v) :: s.replies) ∧
    ∀ ch i v, performAll [.host j (.wrCmap ch i v), .host k (.rdCmap ch i)] s = .next t →
      t.replies = .byte (BitVec.ofNat 8 v) :: s.replies

/-- R175, R59 (log 11): no host primitive takes effect in the middle of an operation of the replica it
concerns. In a legal state with replica `k` of a unit in the middle of an operation, the pieces left of
it can all be performed, which leaves the replica idle, and a primitive at port `k` for that unit, or
the beginning of an operation there, does exactly what it does after them. -/
def Obligations.PrimitiveTakesEffectAfterTheOperation : Prop :=
  ∀ (s : State) (unit : FuncUnit) (k : Nat), s.Inv → ¬IdleAt s unit k →
    ∃ (js : List Nat) (s' : State), performAll (js.map (Event.work unit k)) s = .next s' ∧
      IdleAt s' unit k ∧
      (∀ p : HostPrim, p.unit = some unit → perform (.host k p) s = perform (.host k p) s') ∧
      ∀ w : Word, commandUnit w = some unit → perform (.start k w) s = perform (.start k w) s'

/-- R66, R142, R184 (93 U5): while another replica is expanding, no port can write, publish or release
the colormap. -/
def Obligations.NoColormapWriteDuringAnExpansion : Prop :=
  ∀ (s : State) (j k : Nat) (u : Cexu) (ch : Channel) (i v : Nat) (len : BitVec 9), j ≠ k →
    s.cexus[j]? = some u → u.progress ≠ .idle →
      Refuses (perform (.host k (.wrCmap ch i v)) s) ∧
      Refuses (perform (.host k (.issue (encode (.cmapPublish len)))) s) ∧
      Refuses (perform (.host k (.issue (encode .cmapRelease))) s)
end

