-- ==== Sys2Proof/Laws/Arith.lean ====
section
/-! SUPPORT. The domains of R118 and the element range as inequalities, and the shift amounts of R103 as
numerals. -/

namespace Sys2Proof.Machine

theorem inDomS_iff (b : Precision) (v : Int) :
    inDomS b v = true ↔ -(2 ^ (sampleBits b - 1)) ≤ v ∧ v ≤ 2 ^ (sampleBits b - 1) - 1 := by
  rw [inDomS, Bool.and_eq_true, decide_eq_true_iff, decide_eq_true_iff]

theorem inDomI_iff (b : Precision) (v : Int) :
    inDomI b v = true ↔
      -(2 ^ (sampleBits b + pass1Bits b + 2)) ≤ v ∧ v ≤ 2 ^ (sampleBits b + pass1Bits b + 2) := by
  rw [inDomI, Bool.and_eq_true, decide_eq_true_iff, decide_eq_true_iff]

theorem inElem_iff (w : Nat) (v : Int) :
    inElem w v = true ↔ -(2 ^ (w - 1)) ≤ v ∧ v ≤ 2 ^ (w - 1) - 1 := by
  rw [inElem, Bool.and_eq_true, decide_eq_true_iff, decide_eq_true_iff]

/-! ### The four domains in numbers (R118) -/

theorem inDomain_row_b8 (v : Int) : inDomain .b8 .row v = true ↔ -128 ≤ v ∧ v ≤ 127 :=
  inDomS_iff .b8 v

theorem inDomain_row_b12 (v : Int) : inDomain .b12 .row v = true ↔ -2048 ≤ v ∧ v ≤ 2047 :=
  inDomS_iff .b12 v

theorem inDomain_col_b8 (v : Int) : inDomain .b8 .col v = true ↔ -4096 ≤ v ∧ v ≤ 4096 :=
  inDomI_iff .b8 v

theorem inDomain_col_b12 (v : Int) : inDomain .b12 .col v = true ↔ -32768 ≤ v ∧ v ≤ 32768 :=
  inDomI_iff .b12 v

/-- A line lies in the stage's domain when its 8 values do. -/
theorem lineInDomain_iff (b : Precision) (st : Stage) (x : Vec8) :
    LineInDomain b st x ↔
      inDomain b st x.x0 = true ∧ inDomain b st x.x1 = true ∧ inDomain b st x.x2 = true ∧
      inDomain b st x.x3 = true ∧ inDomain b st x.x4 = true ∧ inDomain b st x.x5 = true ∧
      inDomain b st x.x6 = true ∧ inDomain b st x.x7 = true := by
  constructor
  · exact fun h => ⟨h 0, h 1, h 2, h 3, h 4, h 5, h 6, h 7⟩
  · rintro ⟨h0, h1, h2, h3, h4, h5, h6, h7⟩ k
    match k with
    | 0 | 1 | 2 | 3 | 4 | 5 | 6 | 7 => assumption

/-! ### `SH_ROW` and `SH_COL` (R103) -/

@[simp] theorem descaleShift_row_b8 : descaleShift .b8 .row = 11 := rfl

@[simp] theorem descaleShift_row_b12 : descaleShift .b12 .row = 12 := rfl

@[simp] theorem descaleShift_col_b8 : descaleShift .b8 .col = 15 := rfl

@[simp] theorem descaleShift_col_b12 : descaleShift .b12 .col = 14 := rfl

/-! ### Rounding -/

/-- `DESCALE` as one division (R101). -/
theorem descale_eq_ediv (x : Int) (n : Nat) : descale x n = (x + 2 ^ (n - 1)) / 2 ^ n := rfl

/-- `DESCALE` keeps order, so a bound on a sum bounds its rounded value. -/
theorem descale_mono {x y : Int} (n : Nat) (h : x ≤ y) : descale x n ≤ descale y n :=
  Int.ediv_le_ediv (by positivity) (by omega)

end Sys2Proof.Machine
end

