-- ==== Sys2Proof/Laws/State.lean ====
section
/-! SUPPORT. One lemma per field per update of the state, so that no later proof unfolds a record
update. -/

namespace Sys2Proof.Machine

/-! ### `State.setDctu` -/

@[simp] theorem State.setDctu_cfg (s : State) (k : Nat) (u : Dctu) :
    (s.setDctu k u).cfg = s.cfg := rfl

@[simp] theorem State.setDctu_cmap (s : State) (k : Nat) (u : Dctu) :
    (s.setDctu k u).cmap = s.cmap := rfl

@[simp] theorem State.setDctu_cmapLen (s : State) (k : Nat) (u : Dctu) :
    (s.setDctu k u).cmapLen = s.cmapLen := rfl

@[simp] theorem State.setDctu_cmapFrozen (s : State) (k : Nat) (u : Dctu) :
    (s.setDctu k u).cmapFrozen = s.cmapFrozen := rfl

@[simp] theorem State.setDctu_cexus (s : State) (k : Nat) (u : Dctu) :
    (s.setDctu k u).cexus = s.cexus := rfl

@[simp] theorem State.setDctu_port (s : State) (k : Nat) (u : Dctu) :
    (s.setDctu k u).port = s.port := rfl

@[simp] theorem State.setDctu_inputs (s : State) (k : Nat) (u : Dctu) :
    (s.setDctu k u).inputs = s.inputs := rfl

@[simp] theorem State.setDctu_replies (s : State) (k : Nat) (u : Dctu) :
    (s.setDctu k u).replies = s.replies := rfl

@[simp] theorem State.setDctu_dctus (s : State) (k : Nat) (u : Dctu) :
    (s.setDctu k u).dctus = s.dctus.set k u := rfl

/-- The replica just written. -/
theorem State.setDctu_same {s : State} {k : Nat} {u : Dctu} (u' : Dctu)
    (h : s.dctus[k]? = some u) : (s.setDctu k u').dctus[k]? = some u' := by
  obtain ⟨hk, -⟩ := List.getElem?_eq_some_iff.mp h
  simp [hk]

/-- Every other replica. -/
theorem State.setDctu_other (s : State) {j k : Nat} (u : Dctu) (h : j ≠ k) :
    (s.setDctu k u).dctus[j]? = s.dctus[j]? := by
  simp [List.getElem?_set_ne (Ne.symm h)]

theorem State.setDctu_twice (s : State) (k : Nat) (u v : Dctu) :
    (s.setDctu k u).setDctu k v = s.setDctu k v := by
  simp [State.setDctu]

theorem State.setDctu_comm (s : State) {j k : Nat} (u v : Dctu) (h : j ≠ k) :
    (s.setDctu j u).setDctu k v = (s.setDctu k v).setDctu j u := by
  simp [State.setDctu, List.set_comm u v h]

/-- Writing back the replica that is there changes nothing. -/
theorem State.setDctu_self {s : State} {k : Nat} {u : Dctu} (h : s.dctus[k]? = some u) :
    s.setDctu k u = s := by
  obtain ⟨hk, rfl⟩ := List.getElem?_eq_some_iff.mp h
  simp [State.setDctu]

/-! ### `State.setCexu` -/

@[simp] theorem State.setCexu_cfg (s : State) (k : Nat) (u : Cexu) :
    (s.setCexu k u).cfg = s.cfg := rfl

@[simp] theorem State.setCexu_cmap (s : State) (k : Nat) (u : Cexu) :
    (s.setCexu k u).cmap = s.cmap := rfl

@[simp] theorem State.setCexu_cmapLen (s : State) (k : Nat) (u : Cexu) :
    (s.setCexu k u).cmapLen = s.cmapLen := rfl

@[simp] theorem State.setCexu_cmapFrozen (s : State) (k : Nat) (u : Cexu) :
    (s.setCexu k u).cmapFrozen = s.cmapFrozen := rfl

@[simp] theorem State.setCexu_dctus (s : State) (k : Nat) (u : Cexu) :
    (s.setCexu k u).dctus = s.dctus := rfl

@[simp] theorem State.setCexu_port (s : State) (k : Nat) (u : Cexu) :
    (s.setCexu k u).port = s.port := rfl

@[simp] theorem State.setCexu_inputs (s : State) (k : Nat) (u : Cexu) :
    (s.setCexu k u).inputs = s.inputs := rfl

@[simp] theorem State.setCexu_replies (s : State) (k : Nat) (u : Cexu) :
    (s.setCexu k u).replies = s.replies := rfl

@[simp] theorem State.setCexu_cexus (s : State) (k : Nat) (u : Cexu) :
    (s.setCexu k u).cexus = s.cexus.set k u := rfl

/-- The replica just written. -/
theorem State.setCexu_same {s : State} {k : Nat} {u : Cexu} (u' : Cexu)
    (h : s.cexus[k]? = some u) : (s.setCexu k u').cexus[k]? = some u' := by
  obtain ⟨hk, -⟩ := List.getElem?_eq_some_iff.mp h
  simp [hk]

/-- Every other replica. -/
theorem State.setCexu_other (s : State) {j k : Nat} (u : Cexu) (h : j ≠ k) :
    (s.setCexu k u).cexus[j]? = s.cexus[j]? := by
  simp [List.getElem?_set_ne (Ne.symm h)]

theorem State.setCexu_twice (s : State) (k : Nat) (u v : Cexu) :
    (s.setCexu k u).setCexu k v = s.setCexu k v := by
  simp [State.setCexu]

theorem State.setCexu_comm (s : State) {j k : Nat} (u v : Cexu) (h : j ≠ k) :
    (s.setCexu j u).setCexu k v = (s.setCexu k v).setCexu j u := by
  simp [State.setCexu, List.set_comm u v h]

/-- Writing back the replica that is there changes nothing. -/
theorem State.setCexu_self {s : State} {k : Nat} {u : Cexu} (h : s.cexus[k]? = some u) :
    s.setCexu k u = s := by
  obtain ⟨hk, rfl⟩ := List.getElem?_eq_some_iff.mp h
  simp [State.setCexu]

/-- The two units' states are apart (R2). -/
theorem State.setDctu_setCexu (s : State) (j k : Nat) (u : Dctu) (v : Cexu) :
    (s.setDctu j u).setCexu k v = (s.setCexu k v).setDctu j u := rfl

@[simp] theorem State.setDctu_anyExpanding (s : State) (k : Nat) (u : Dctu) :
    (s.setDctu k u).anyExpanding = s.anyExpanding := rfl

/-! ### Reset -/

@[simp] theorem State.resetOf_cfg (c : Config) : (State.resetOf c).cfg = c := rfl

@[simp] theorem State.resetOf_cmap (c : Config) : (State.resetOf c).cmap = ⟨[], [], []⟩ := rfl

@[simp] theorem State.resetOf_cmapLen (c : Config) : (State.resetOf c).cmapLen = 0 := rfl

@[simp] theorem State.resetOf_cmapFrozen (c : Config) : (State.resetOf c).cmapFrozen = false := rfl

@[simp] theorem State.resetOf_dctus (c : Config) :
    (State.resetOf c).dctus = List.replicate c.numUnits Dctu.reset := rfl

@[simp] theorem State.resetOf_cexus (c : Config) :
    (State.resetOf c).cexus = List.replicate c.numUnits Cexu.reset := rfl

@[simp] theorem State.resetOf_port (c : Config) : (State.resetOf c).port = 0 := rfl

@[simp] theorem State.resetOf_inputs (c : Config) : (State.resetOf c).inputs = [] := rfl

@[simp] theorem State.resetOf_replies (c : Config) : (State.resetOf c).replies = [] := rfl

/-! ### The next input -/

@[simp] theorem State.withFetchWord_cfg (s : State) (nbits w : Nat) :
    (s.withFetchWord nbits w).cfg = s.cfg := rfl

@[simp] theorem State.withFetchWord_cmap (s : State) (nbits w : Nat) :
    (s.withFetchWord nbits w).cmap = s.cmap := rfl

@[simp] theorem State.withFetchWord_cmapLen (s : State) (nbits w : Nat) :
    (s.withFetchWord nbits w).cmapLen = s.cmapLen := rfl

@[simp] theorem State.withFetchWord_cmapFrozen (s : State) (nbits w : Nat) :
    (s.withFetchWord nbits w).cmapFrozen = s.cmapFrozen := rfl

@[simp] theorem State.withFetchWord_dctus (s : State) (nbits w : Nat) :
    (s.withFetchWord nbits w).dctus = s.dctus := rfl

@[simp] theorem State.withFetchWord_cexus (s : State) (nbits w : Nat) :
    (s.withFetchWord nbits w).cexus = s.cexus := rfl

@[simp] theorem State.withFetchWord_port (s : State) (nbits w : Nat) :
    (s.withFetchWord nbits w).port = s.port := rfl

@[simp] theorem State.withFetchWord_replies (s : State) (nbits w : Nat) :
    (s.withFetchWord nbits w).replies = s.replies := rfl

@[simp] theorem State.withFetchWord_inputs (s : State) (nbits w : Nat) :
    (s.withFetchWord nbits w).inputs =
      .host s.port (.issue (BitVec.ofNat 32 (w % 2 ^ nbits))) :: s.inputs := rfl

/-! ### The colormap -/

@[simp] theorem Colormap.channel_r (m : Colormap) : m.channel .r = m.r := rfl

@[simp] theorem Colormap.channel_g (m : Colormap) : m.channel .g = m.g := rfl

@[simp] theorem Colormap.channel_b (m : Colormap) : m.channel .b = m.b := rfl

theorem Colormap.channel_write_same (m : Colormap) (ch : Channel) (i : Nat) (v : Byte) :
    (m.write ch i v).channel ch = (m.channel ch).write i v := by cases ch <;> rfl

theorem Colormap.channel_write_other (m : Colormap) {ch ch' : Channel} (i : Nat) (v : Byte)
    (h : ch' ≠ ch) : (m.write ch i v).channel ch' = m.channel ch' := by
  cases ch <;> cases ch' <;> first | rfl | exact absurd rfl h

end Sys2Proof.Machine
end

