-- ==== Sys2Proof/Laws/Block.lean ====
section
/-! SUPPORT. The SampleBlock: element reads after element and line writes, which lines share elements,
and what one stage on one line does. -/

namespace Sys2Proof.Machine

/-! ### Elements -/

theorem Block.set_val (b : Block) (i j : Fin 64) (v : Int) :
    (b.set i v).val[j] = if i = j then v else b.val[j] := by
  simp [Block.set, Vector.getElem_set, Fin.ext_iff]

theorem Block.set_defd (b : Block) (i j : Fin 64) (v : Int) :
    (b.set i v).defd[j] = (decide (i = j) || b.defd[j]) := by
  simp only [Block.set, Fin.getElem_fin, Vector.getElem_set, Fin.ext_iff]
  split <;> simp_all

theorem Block.get_set (b : Block) (i j : Fin 64) (v : Int) :
    (b.set i v).get j = if i = j then some v else b.get j := by
  simp only [Block.get, Block.set_val, Block.set_defd]
  by_cases h : i = j <;> simp [h]

/-- Two blocks whose elements and defined-ness bits agree are the same data. -/
theorem Block.ext_elements {b c : Block} (hv : ∀ i : Fin 64, b.val[i] = c.val[i])
    (hd : ∀ i : Fin 64, b.defd[i] = c.defd[i]) : b = c := by
  obtain ⟨bv, bd⟩ := b
  obtain ⟨cv, cd⟩ := c
  congr
  · ext i hi; exact hv ⟨i, hi⟩
  · ext i hi; exact hd ⟨i, hi⟩

/-- A defined element's value is what a read of it gives. -/
theorem Block.val_of_get {b : Block} {i : Fin 64} {v : Int} (h : b.get i = some v) :
    b.val[i] = v := by
  simp only [Block.get] at h
  split at h <;> simp_all

theorem Block.defd_of_get {b : Block} {i : Fin 64} {v : Int} (h : b.get i = some v) :
    b.defd[i] = true := by
  simp only [Block.get] at h
  split at h <;> simp_all

theorem Block.get_of_defd {b : Block} {i : Fin 64} (h : b.defd[i] = true) :
    b.get i = some b.val[i] := by simp only [Block.get, h, if_true]

/-! ### Lines -/

/-- A line has 8 different elements. -/
theorem lineElement_inj {st : Stage} {n : BitVec 3} {j k : Fin 8}
    (h : lineElement st n j = lineElement st n k) : j = k := by
  cases st <;> simp only [lineElement, rowElement, columnElement, Fin.mk.injEq] at h <;> omega

/-- Two lines of one stage share no element (R60). -/
theorem lineElement_ne {st : Stage} {m n : BitVec 3} (h : m ≠ n) (j k : Fin 8) :
    lineElement st m j ≠ lineElement st n k := by
  have hmn : m.toNat ≠ n.toNat := fun e => h (BitVec.eq_of_toNat_eq e)
  cases st <;> simp only [lineElement, rowElement, columnElement, ne_eq, Fin.mk.injEq] <;> omega

/-- Every element is on a line of each stage. -/
theorem exists_lineElement (st : Stage) (i : Fin 64) :
    ∃ (n : BitVec 3) (k : Fin 8), lineElement st n k = i := by
  cases st
  · refine ⟨BitVec.ofNat 3 (i.val / 8), ⟨i.val % 8, by omega⟩, ?_⟩
    simp only [lineElement, rowElement, Fin.ext_iff, BitVec.toNat_ofNat]
    omega
  · refine ⟨BitVec.ofNat 3 (i.val % 8), ⟨i.val / 8, by omega⟩, ?_⟩
    simp only [lineElement, columnElement, Fin.ext_iff, BitVec.toNat_ofNat]
    omega

/-- Element `k` of row `r` is element `r` of column `k`. -/
theorem rowElement_eq_columnElement (r c : BitVec 3) :
    rowElement r ⟨c.toNat, by omega⟩ = columnElement c ⟨r.toNat, by omega⟩ := rfl

theorem Block.readLine_get (b : Block) (st : Stage) (n : BitVec 3) (k : Fin 8) :
    (b.readLine st n).get k = b.val[lineElement st n k] := by
  match k with
  | 0 | 1 | 2 | 3 | 4 | 5 | 6 | 7 => rfl

/-- Vectors of 8 that agree at every place are the same. -/
theorem Vec8.ext_get {x y : Vec8} (h : ∀ k, x.get k = y.get k) : x = y := by
  obtain ⟨⟩ := x
  obtain ⟨⟩ := y
  simp only [Vec8.mk.injEq]
  exact ⟨h 0, h 1, h 2, h 3, h 4, h 5, h 6, h 7⟩

theorem mem_eight (k : Fin 8) : k ∈ eight := by revert k; decide

theorem mem_eightLines (n : BitVec 3) : n ∈ eightLines := by revert n; decide

theorem eightLines_nodup : eightLines.Nodup := by decide

/-- Folding writes at different places over a list of them. -/
theorem foldl_set_val (f : Fin 8 → Fin 64) (y : Fin 8 → Int) (ks : List (Fin 8)) (b : Block)
    (i : Fin 64) (hf : ∀ j k, f j = f k → j = k) :
    (ks.foldl (fun b k => b.set (f k) (y k)) b).val[i] =
      if h : ∃ k ∈ ks, f k = i then y h.choose else b.val[i] := by
  induction ks generalizing b with
  | nil => simp
  | cons k ks ih =>
    rw [List.foldl_cons, ih, Block.set_val]
    by_cases h : ∃ j ∈ ks, f j = i
    · have h' : ∃ j ∈ k :: ks, f j = i := by
        obtain ⟨j, hj, e⟩ := h; exact ⟨j, by simp [hj], e⟩
      rw [dif_pos h, dif_pos h']
      exact congrArg y (hf _ _ (h.choose_spec.2.trans h'.choose_spec.2.symm))
    · by_cases hk : f k = i
      · have h' : ∃ j ∈ k :: ks, f j = i := ⟨k, by simp, hk⟩
        rw [dif_neg h, dif_pos h', if_pos hk]
        exact congrArg y (hf _ _ (hk.trans h'.choose_spec.2.symm))
      · have h' : ¬∃ j ∈ k :: ks, f j = i := by
          rintro ⟨j, hj, e⟩
          rcases List.mem_cons.mp hj with rfl | hj
          · exact hk e
          · exact h ⟨j, hj, e⟩
        rw [dif_neg h, dif_neg h', if_neg hk]

theorem foldl_set_defd (f : Fin 8 → Fin 64) (y : Fin 8 → Int) (ks : List (Fin 8)) (b : Block)
    (i : Fin 64) :
    (ks.foldl (fun b k => b.set (f k) (y k)) b).defd[i] =
      (decide (∃ k ∈ ks, f k = i) || b.defd[i]) := by
  induction ks generalizing b with
  | nil => simp
  | cons k ks ih =>
    rw [List.foldl_cons, ih, Block.set_defd, ← Bool.or_assoc]
    congr 1
    simp only [List.exists_mem_cons_iff, Bool.decide_or]
    exact Bool.or_comm _ _

/-- A line's write: its own elements. -/
theorem Block.writeLine_val_own (b : Block) (st : Stage) (n : BitVec 3) (y : Vec8) (k : Fin 8) :
    (b.writeLine st n y).val[lineElement st n k] = y.get k := by
  have h : ∃ j ∈ eight, lineElement st n j = lineElement st n k := ⟨k, mem_eight k, rfl⟩
  rw [Block.writeLine, foldl_set_val _ _ _ _ _ fun _ _ => lineElement_inj, dif_pos h]
  exact congrArg y.get (lineElement_inj h.choose_spec.2)

theorem Block.writeLine_defd_own (b : Block) (st : Stage) (n : BitVec 3) (y : Vec8) (k : Fin 8) :
    (b.writeLine st n y).defd[lineElement st n k] = true := by
  have h : ∃ j ∈ eight, lineElement st n j = lineElement st n k := ⟨k, mem_eight k, rfl⟩
  rw [Block.writeLine, foldl_set_defd, decide_eq_true h, Bool.true_or]

theorem Block.writeLine_get_own (b : Block) (st : Stage) (n : BitVec 3) (y : Vec8) (k : Fin 8) :
    (b.writeLine st n y).get (lineElement st n k) = some (y.get k) := by
  rw [Block.get_of_defd (b.writeLine_defd_own st n y k), Block.writeLine_val_own]

/-- A line's write: every other element keeps its value and its bit. -/
theorem Block.writeLine_val_other (b : Block) {st : Stage} {n : BitVec 3} (y : Vec8) {i : Fin 64}
    (hi : ∀ k, lineElement st n k ≠ i) : (b.writeLine st n y).val[i] = b.val[i] := by
  rw [Block.writeLine, foldl_set_val _ _ _ _ _ fun _ _ => lineElement_inj, dif_neg]
  rintro ⟨k, -, e⟩
  exact hi k e

theorem Block.writeLine_defd_other (b : Block) {st : Stage} {n : BitVec 3} (y : Vec8) {i : Fin 64}
    (hi : ∀ k, lineElement st n k ≠ i) : (b.writeLine st n y).defd[i] = b.defd[i] := by
  rw [Block.writeLine, foldl_set_defd, decide_eq_false, Bool.false_or]
  rintro ⟨k, -, e⟩
  exact hi k e

theorem Block.writeLine_get_other (b : Block) {st : Stage} {n : BitVec 3} (y : Vec8) {i : Fin 64}
    (hi : ∀ k, lineElement st n k ≠ i) : (b.writeLine st n y).get i = b.get i := by
  simp only [Block.get, b.writeLine_val_other y hi, b.writeLine_defd_other y hi]

/-- Reading one line after another was written. -/
theorem Block.readLine_writeLine_other (b : Block) {st : Stage} {m n : BitVec 3} (y : Vec8)
    (h : m ≠ n) : (b.writeLine st n y).readLine st m = b.readLine st m := by
  refine Vec8.ext_get fun k => ?_
  rw [Block.readLine_get, Block.readLine_get,
    b.writeLine_val_other y fun j => lineElement_ne (Ne.symm h) j k]

theorem Block.readLine_writeLine_own (b : Block) (st : Stage) (n : BitVec 3) (y : Vec8) :
    (b.writeLine st n y).readLine st n = y :=
  Vec8.ext_get fun k => by rw [Block.readLine_get, Block.writeLine_val_own]

/-- Writes to two lines of one stage commute (R60). -/
theorem Block.writeLine_comm (b : Block) {st : Stage} {m n : BitVec 3} (y z : Vec8) (h : m ≠ n) :
    (b.writeLine st m y).writeLine st n z = (b.writeLine st n z).writeLine st m y := by
  refine Block.ext_elements (fun i => ?_) (fun i => ?_) <;>
    obtain ⟨l, k, rfl⟩ := exists_lineElement st i
  · by_cases hm : l = m
    · subst hm
      rw [Block.writeLine_val_other _ _ fun j => lineElement_ne (Ne.symm h) j k,
        Block.writeLine_val_own, Block.writeLine_val_own]
    · rw [Block.writeLine_val_other (b.writeLine st n z) _ fun j => lineElement_ne (Ne.symm hm) j k]
      by_cases hn : l = n
      · subst hn; rw [Block.writeLine_val_own, Block.writeLine_val_own]
      · rw [Block.writeLine_val_other _ _ fun j => lineElement_ne (Ne.symm hn) j k,
          Block.writeLine_val_other _ _ fun j => lineElement_ne (Ne.symm hm) j k,
          Block.writeLine_val_other _ _ fun j => lineElement_ne (Ne.symm hn) j k]
  · by_cases hm : l = m
    · subst hm
      rw [Block.writeLine_defd_other _ _ fun j => lineElement_ne (Ne.symm h) j k,
        Block.writeLine_defd_own, Block.writeLine_defd_own]
    · rw [Block.writeLine_defd_other (b.writeLine st n z) _ fun j => lineElement_ne (Ne.symm hm) j k]
      by_cases hn : l = n
      · subst hn; rw [Block.writeLine_defd_own, Block.writeLine_defd_own]
      · rw [Block.writeLine_defd_other _ _ fun j => lineElement_ne (Ne.symm hn) j k,
          Block.writeLine_defd_other _ _ fun j => lineElement_ne (Ne.symm hm) j k,
          Block.writeLine_defd_other _ _ fun j => lineElement_ne (Ne.symm hn) j k]

/-! ### One stage on one line -/

/-- The line's own elements become the transform of the line (R111). -/
theorem transformLine_get_own (c : Config) (st : Stage) (n : BitVec 3) (b : Block) (k : Fin 8) :
    (transformLine c st n b).get (lineElement st n k) =
      some ((dct1d c.precision (fix c.fixTab) st (b.readLine st n)).get k) :=
  Block.writeLine_get_own ..

theorem transformLine_val_other (c : Config) {st : Stage} {n : BitVec 3} (b : Block) {i : Fin 64}
    (hi : ∀ k, lineElement st n k ≠ i) : (transformLine c st n b).val[i] = b.val[i] :=
  Block.writeLine_val_other _ _ hi

theorem transformLine_defd_other (c : Config) {st : Stage} {n : BitVec 3} (b : Block) {i : Fin 64}
    (hi : ∀ k, lineElement st n k ≠ i) : (transformLine c st n b).defd[i] = b.defd[i] :=
  Block.writeLine_defd_other _ _ hi

theorem transformLine_get_other (c : Config) {st : Stage} {n : BitVec 3} (b : Block) {i : Fin 64}
    (hi : ∀ k, lineElement st n k ≠ i) : (transformLine c st n b).get i = b.get i :=
  Block.writeLine_get_other _ _ hi

/-- Another line of the same stage is as it was. -/
theorem transformLine_readLine_other (c : Config) {st : Stage} {m n : BitVec 3} (b : Block)
    (h : m ≠ n) : (transformLine c st n b).readLine st m = b.readLine st m :=
  Block.readLine_writeLine_other _ _ h

/-- Two lines of one stage may be transformed in either order (R115). -/
theorem transformLine_comm (c : Config) {st : Stage} {m n : BitVec 3} (b : Block) (h : m ≠ n) :
    transformLine c st m (transformLine c st n b) = transformLine c st n (transformLine c st m b) := by
  rw [transformLine, transformLine_readLine_other c b h]
  conv_rhs => rw [transformLine, transformLine_readLine_other c b (Ne.symm h)]
  exact Block.writeLine_comm _ _ _ (Ne.symm h)

/-! ### Preconditions -/

/-- R112's to R114's `require` succeeds exactly when every element is defined and in the domain. -/
theorem requireElements_ok (dom : Int → Bool) (b : Block) (is : List (Fin 64)) :
    requireElements dom b is = .ok () ↔ ∀ i ∈ is, ∃ v, b.get i = some v ∧ dom v = true := by
  induction is with
  | nil => simp [requireElements]
  | cons i is ih =>
    simp only [requireElements, List.mem_cons, forall_eq_or_imp]
    cases hg : b.get i with
    | none => simp
    | some v =>
      cases hd : dom v <;> simp [hd, ih]

theorem requireElements_error {dom : Int → Bool} {b : Block} {is : List (Fin 64)}
    (h : ¬∀ i ∈ is, ∃ v, b.get i = some v ∧ dom v = true) :
    ∃ e, requireElements dom b is = .error e := by
  cases hr : requireElements dom b is with
  | ok u => exact absurd ((requireElements_ok ..).mp hr) h
  | error e => exact ⟨e, rfl⟩

theorem mem_lineElements (st : Stage) (n : BitVec 3) (i : Fin 64) :
    i ∈ lineElements st n ↔ ∃ k, lineElement st n k = i := by
  simp only [lineElements, List.mem_map]
  exact ⟨fun ⟨k, _, e⟩ => ⟨k, e⟩, fun ⟨k, e⟩ => ⟨k, mem_eight k, e⟩⟩

theorem mem_allElements (i : Fin 64) : i ∈ allElements := by
  obtain ⟨n, k, rfl⟩ := exists_lineElement .row i
  simp only [allElements, List.mem_flatten, List.mem_map]
  exact ⟨_, ⟨n, mem_eightLines n, rfl⟩, (mem_lineElements ..).mpr ⟨k, rfl⟩⟩

end Sys2Proof.Machine
end

