-- ==== Sys2Proof/Laws/Memory.lean ====
section
/-! SUPPORT. Byte spaces: read after write, the canonical form, and that the canonical form makes equal
contents equal data. -/

namespace Sys2Proof.Machine

@[simp] theorem Memory.read_nil (a : Nat) : Memory.read [] a = none := rfl

theorem Memory.read_cons (b : Nat) (v : Byte) (m : Memory) (a : Nat) :
    Memory.read ((b, v) :: m) a = if b = a then some v else m.read a := rfl

/-- A read gives the last value written there, and a write changes no other element. -/
theorem Memory.read_write (m : Memory) (a b : Nat) (v : Byte) :
    (m.write a v).read b = if a = b then some v else m.read b := by
  induction m with
  | nil => rfl
  | cons c m ih =>
    obtain ⟨c, w⟩ := c
    simp only [Memory.write]
    split
    · rfl
    · split
      · subst_vars
        simp only [Memory.read_cons]
        split <;> simp_all
      · simp only [Memory.read_cons, ih]
        split <;> split <;> simp_all

@[simp] theorem Memory.read_write_same (m : Memory) (a : Nat) (v : Byte) :
    (m.write a v).read a = some v := by simp [Memory.read_write]

theorem Memory.read_write_other (m : Memory) {a b : Nat} (v : Byte) (h : b ≠ a) :
    (m.write a v).read b = m.read b := by simp [Memory.read_write, Ne.symm h]

/-! ### The canonical form -/

theorem Memory.wf_cons (a : Nat) (v : Byte) (m : Memory) :
    Memory.wf ((a, v) :: m) = true ↔ m.wf = true ∧ ∀ c ∈ m, a < c.1 := by
  induction m generalizing a v with
  | nil => simp [Memory.wf]
  | cons c m ih =>
    obtain ⟨b, w⟩ := c
    simp only [Memory.wf, Bool.and_eq_true, decide_eq_true_eq, List.mem_cons, forall_eq_or_imp]
    constructor
    · rintro ⟨hab, h⟩
      exact ⟨h, hab, fun c hc => lt_trans hab (((ih b w).mp h).2 c hc)⟩
    · rintro ⟨h, hab, -⟩
      exact ⟨hab, h⟩

/-- What a write lists: the new element and what was listed. -/
theorem Memory.mem_write {m : Memory} {a : Nat} {v : Byte} {c : Host.Cell}
    (h : c ∈ m.write a v) : c = (a, v) ∨ c ∈ m := by
  induction m with
  | nil => simpa [Memory.write] using h
  | cons d m ih =>
    obtain ⟨b, w⟩ := d
    simp only [Memory.write] at h
    split at h
    · simpa using h
    · split at h
      · rcases List.mem_cons.mp h with h | h <;> simp [h]
      · rcases List.mem_cons.mp h with h | h
        · simp [h]
        · rcases ih h with h | h <;> simp [h]

/-- Every write keeps the canonical form. -/
theorem Memory.wf_write {m : Memory} (a : Nat) (v : Byte) (h : m.wf = true) :
    (m.write a v).wf = true := by
  induction m with
  | nil => rfl
  | cons c m ih =>
    obtain ⟨b, w⟩ := c
    obtain ⟨hm, hb⟩ := (Memory.wf_cons b w m).mp h
    simp only [Memory.write]
    split
    · rename_i hab
      refine (Memory.wf_cons ..).mpr ⟨h, fun c hc => ?_⟩
      rcases List.mem_cons.mp hc with rfl | hc
      · exact hab
      · exact lt_trans hab (hb c hc)
    · split
      · subst_vars
        exact (Memory.wf_cons ..).mpr ⟨hm, hb⟩
      · refine (Memory.wf_cons ..).mpr ⟨ih hm, fun c hc => ?_⟩
        rcases Memory.mem_write hc with rfl | hc
        · simp only; omega
        · exact hb c hc

/-- An element below every listed one is not listed. -/
theorem Memory.read_eq_none {m : Memory} {a : Nat} (h : ∀ c ∈ m, a < c.1) : m.read a = none := by
  induction m with
  | nil => rfl
  | cons c m ih =>
    obtain ⟨b, w⟩ := c
    have hb : a < b := h (b, w) (by simp)
    rw [Memory.read_cons, if_neg (by omega), ih fun c hc => h c (by simp [hc])]

/-- Two spaces in canonical form that read alike are the same data. -/
theorem Memory.ext {m n : Memory} (hm : m.wf = true) (hn : n.wf = true)
    (h : ∀ a, m.read a = n.read a) : m = n := by
  induction m generalizing n with
  | nil =>
    cases n with
    | nil => rfl
    | cons d n => have := h d.1; simp [Memory.read] at this
  | cons c m ih =>
    obtain ⟨a, v⟩ := c
    cases n with
    | nil => have := h a; simp [Memory.read] at this
    | cons d n =>
      obtain ⟨b, w⟩ := d
      obtain ⟨hm', ha⟩ := (Memory.wf_cons ..).mp hm
      obtain ⟨hn', hb⟩ := (Memory.wf_cons ..).mp hn
      have hab : a = b := by
        by_contra hne
        rcases Nat.lt_or_gt_of_ne hne with hlt | hlt
        · have := h a
          rw [Memory.read_cons, if_pos rfl, Memory.read_cons, if_neg (by omega),
            Memory.read_eq_none fun c hc => lt_trans hlt (hb c hc)] at this
          simp at this
        · have := h b
          rw [Memory.read_cons, if_neg (by omega), Memory.read_cons, if_pos rfl,
            Memory.read_eq_none fun c hc => lt_trans hlt (ha c hc)] at this
          simp at this
      subst hab
      have hvw : v = w := by simpa [Memory.read_cons] using h a
      subst hvw
      refine congrArg _ (ih hm' hn' fun x => ?_)
      by_cases hx : a = x
      · subst hx; rw [Memory.read_eq_none ha, Memory.read_eq_none hb]
      · simpa [Memory.read_cons, hx] using h x

/-- Writes to different elements commute. -/
theorem Memory.write_comm {m : Memory} {a b : Nat} (v w : Byte) (hm : m.wf = true) (h : a ≠ b) :
    (m.write a v).write b w = (m.write b w).write a v := by
  refine Memory.ext (Memory.wf_write _ _ (Memory.wf_write _ _ hm))
    (Memory.wf_write _ _ (Memory.wf_write _ _ hm)) fun x => ?_
  simp only [Memory.read_write]
  split <;> split <;> simp_all

/-! ### Triplets -/

/-- What a triplet's write does, element by element (R143). -/
theorem read_writeTriplet (rgb : Memory) (p : Nat) (t : Triplet) (a : Nat) :
    (writeTriplet rgb p t).read a =
      if a = 3 * p then some t.r
      else if a = 3 * p + 1 then some t.g
      else if a = 3 * p + 2 then some t.b
      else rgb.read a := by
  simp only [writeTriplet, tripletElement, channelOffset, Memory.read_write]
  split_ifs <;> first | rfl | omega

theorem wf_writeTriplet {rgb : Memory} (p : Nat) (t : Triplet) (h : rgb.wf = true) :
    (writeTriplet rgb p t).wf = true :=
  Memory.wf_write _ _ (Memory.wf_write _ _ (Memory.wf_write _ _ h))

theorem mem_writeTriplet {rgb : Memory} {p : Nat} {t : Triplet} {c : Host.Cell}
    (h : c ∈ writeTriplet rgb p t) : c.1 < 3 * (p + 1) ∨ c ∈ rgb := by
  simp only [writeTriplet, tripletElement, channelOffset] at h
  rcases Memory.mem_write h with rfl | h
  · left; simp only; omega
  rcases Memory.mem_write h with rfl | h
  · left; simp only; omega
  rcases Memory.mem_write h with rfl | h
  · left; simp only; omega
  · exact .inr h

/-- Positions write disjoint triplets (R60, R145). -/
theorem writeTriplet_comm {rgb : Memory} {p q : Nat} (t u : Triplet) (h : rgb.wf = true)
    (hpq : p ≠ q) :
    writeTriplet (writeTriplet rgb p t) q u = writeTriplet (writeTriplet rgb q u) p t := by
  refine Memory.ext (wf_writeTriplet _ _ (wf_writeTriplet _ _ h))
    (wf_writeTriplet _ _ (wf_writeTriplet _ _ h)) fun a => ?_
  simp only [read_writeTriplet]
  split_ifs <;> first | rfl | omega

/-- The bytes of a position's own triplet. -/
theorem read_writeTriplet_own (rgb : Memory) (p : Nat) (t : Triplet) (ch : Channel) :
    (writeTriplet rgb p t).read (tripletElement p ch) =
      some (t.channel ch) := by
  rw [read_writeTriplet]
  cases ch <;> simp [tripletElement, channelOffset, Triplet.channel]

end Sys2Proof.Machine
end

