-- ==== Sys2Proof/Laws/Ops.lean ====
section
/-! SUPPORT. Everything the shared operations on a replica and on the colormap can do: each has one
inversion lemma (if it answers a next state, then …) and one lemma that says where it does. -/

namespace Sys2Proof.Machine

/-- An answer is a refusal exactly when it is no next state: there are no faults. -/
theorem refuses_iff (o : Host.Outcome State Fault Refusal) : Refuses o ↔ ∀ t, o ≠ .next t := by
  cases o with
  | next t => simp [Refuses]
  | fault f => cases f
  | refused r => simp [Refuses]

/-! ### `onDctu` -/

/-- Everything `onDctu` can answer with a next state. -/
theorem onDctu_next {s t : State} {f : Dctu → Except Refusal Dctu} :
    onDctu s f = .next t ↔ ∃ u u', AtDctu s u ∧ f u = .ok u' ∧ t = s.setDctu s.port u' := by
  unfold onDctu AtDctu
  cases s.dctus[s.port]? with
  | none => simp
  | some u => cases hf : f u <;> simp [hf, eq_comm]

theorem onDctu_eq {s : State} {u : Dctu} (f : Dctu → Except Refusal Dctu) (h : AtDctu s u) :
    onDctu s f =
      match f u with
      | .ok u' => .next (s.setDctu s.port u')
      | .error e => .refused e := by
  cases hf : f u <;> simp only [onDctu, show s.dctus[s.port]? = some u from h, hf]

theorem onDctu_ok {s : State} {u u' : Dctu} {f : Dctu → Except Refusal Dctu} (h : AtDctu s u)
    (hf : f u = .ok u') : onDctu s f = .next (s.setDctu s.port u') := by
  simp only [onDctu_eq f h, hf]

theorem onDctu_error {s : State} {u : Dctu} {e : Refusal} {f : Dctu → Except Refusal Dctu}
    (h : AtDctu s u) (hf : f u = .error e) : onDctu s f = .refused e := by
  simp only [onDctu_eq f h, hf]

/-! ### `onCexu` -/

/-- Everything `onCexu` can answer with a next state. -/
theorem onCexu_next {s t : State} {f : Cexu → Except Refusal Cexu} :
    onCexu s f = .next t ↔ ∃ u u', AtCexu s u ∧ f u = .ok u' ∧ t = s.setCexu s.port u' := by
  unfold onCexu AtCexu
  cases s.cexus[s.port]? with
  | none => simp
  | some u => cases hf : f u <;> simp [hf, eq_comm]

theorem onCexu_eq {s : State} {u : Cexu} (f : Cexu → Except Refusal Cexu) (h : AtCexu s u) :
    onCexu s f =
      match f u with
      | .ok u' => .next (s.setCexu s.port u')
      | .error e => .refused e := by
  cases hf : f u <;> simp only [onCexu, show s.cexus[s.port]? = some u from h, hf]

theorem onCexu_ok {s : State} {u u' : Cexu} {f : Cexu → Except Refusal Cexu} (h : AtCexu s u)
    (hf : f u = .ok u') : onCexu s f = .next (s.setCexu s.port u') := by
  simp only [onCexu_eq f h, hf]

theorem onCexu_error {s : State} {u : Cexu} {e : Refusal} {f : Cexu → Except Refusal Cexu}
    (h : AtCexu s u) (hf : f u = .error e) : onCexu s f = .refused e := by
  simp only [onCexu_eq f h, hf]

/-! ### `onColormap` -/

/-- Everything `onColormap` can answer with a next state. -/
theorem onColormap_next {s t : State} {f : State → Except Refusal State} :
    onColormap s f = .next t ↔ (∃ u, AtCexu s u) ∧ s.anyExpanding = false ∧ f s = .ok t := by
  unfold onColormap AtCexu
  cases s.cexus[s.port]? with
  | none => simp
  | some u => cases hx : s.anyExpanding <;> cases hf : f s <;> simp

theorem onColormap_eq {s : State} {u : Cexu} (f : State → Except Refusal State)
    (h : AtCexu s u) (hx : s.anyExpanding = false) :
    onColormap s f =
      match f s with
      | .ok s' => .next s'
      | .error e => .refused e := by
  cases hf : f s <;>
    simp only [onColormap, show s.cexus[s.port]? = some u from h, hx, Bool.false_eq_true, if_false, hf]

/-! ### `reply` -/

/-- Everything a read primitive can answer with a next state. -/
theorem reply_next {U : Type} {r : Option U} {s t : State} {f : U → Except Refusal Reply} :
    reply r s f = .next t ↔
      ∃ u v, r = some u ∧ f u = .ok v ∧ t = { s with replies := v :: s.replies } := by
  unfold reply
  cases r with
  | none => simp
  | some u => cases hf : f u <;> simp [hf, eq_comm]

theorem reply_eq {U : Type} {u : U} (s : State) (f : U → Except Refusal Reply) :
    reply (some u) s f =
      match f u with
      | .ok v => .next { s with replies := v :: s.replies }
      | .error e => .refused e := rfl

/-! ### Completing what is in progress -/

theorem Dctu.finish_idle {u : Dctu} (c : Config) (h : u.progress = .idle) : u.finish c = .ok u := by
  simp only [Dctu.finish, h]

theorem Cexu.finish_idle {u : Cexu} (s : State) (h : u.progress = .idle) : u.finish s = .ok u := by
  simp only [Cexu.finish, h]

/-- A completed DCT unit is between operations. -/
theorem Dctu.finish_progress {u u' : Dctu} {c : Config} (h : u.finish c = .ok u') :
    u'.progress = .idle := by
  obtain ⟨b, p⟩ := u
  cases p with
  | idle => cases h; rfl
  | forward st done =>
    cases st with
    | row =>
      simp only [Dctu.finish] at h
      split at h
      · rename_i mid _
        cases hm : passChecked c .col eightLines mid <;> rw [hm] at h <;> cases h
        rfl
      · cases h
    | col =>
      simp only [Dctu.finish] at h
      cases hm : passChecked c .col (linesLeft done) b <;> rw [hm] at h <;> cases h
      rfl

/-- A completed colour-expansion unit is between operations and has its indices. -/
theorem Cexu.finish_progress {u u' : Cexu} {s : State} (h : u.finish s = .ok u') :
    u'.progress = .idle ∧ u'.idx = u.idx := by
  obtain ⟨x, r, p⟩ := u
  cases p with
  | idle => cases h; exact ⟨rfl, rfl⟩
  | row n done =>
    simp only [Cexu.finish] at h
    cases hm : expandFrozen s ⟨x, r, .row n done⟩ (positionsLeft n done) <;> rw [hm] at h <;> cases h
    exact ⟨rfl, rfl⟩

/-- Between operations there is nothing to complete. -/
theorem settle_idle {s : State} {unit : FuncUnit} (h : IdleAt s unit s.port) :
    settle (some unit) s = .ok s := by
  cases unit with
  | dctu =>
    cases hu : s.dctus[s.port]? with
    | none => simp only [settle, hu]
    | some u =>
      simp only [settle, hu, Dctu.finish_idle s.cfg (h u hu)]
      exact congrArg Except.ok (State.setDctu_self hu)
  | cexu =>
    cases hu : s.cexus[s.port]? with
    | none => simp only [settle, hu]
    | some u =>
      simp only [settle, hu, Cexu.finish_idle s (h u hu)]
      exact congrArg Except.ok (State.setCexu_self hu)

/-- Everything `settle` can do at a DCT unit. -/
theorem settle_dctu {s t : State} :
    settle (some .dctu) s = .ok t ↔
      (s.dctus[s.port]? = none ∧ t = s) ∨
        ∃ u u', AtDctu s u ∧ u.finish s.cfg = .ok u' ∧ t = s.setDctu s.port u' := by
  unfold AtDctu
  cases hu : s.dctus[s.port]? with
  | none => simp [settle, hu, eq_comm]
  | some u => cases hf : u.finish s.cfg <;> simp [settle, hu, hf, Except.map, eq_comm]

/-- Everything `settle` can do at a colour-expansion unit. -/
theorem settle_cexu {s t : State} :
    settle (some .cexu) s = .ok t ↔
      (s.cexus[s.port]? = none ∧ t = s) ∨
        ∃ u u', AtCexu s u ∧ u.finish s = .ok u' ∧ t = s.setCexu s.port u' := by
  unfold AtCexu
  cases hu : s.cexus[s.port]? with
  | none => simp [settle, hu, eq_comm]
  | some u => cases hf : u.finish s <;> simp [settle, hu, hf, Except.map, eq_comm]

/-- Everything a primitive that waits for the replica can answer with a next state. -/
theorem onceSettled_next {unit : Option FuncUnit} {s t : State}
    {f : State → Host.Outcome State Fault Refusal} :
    onceSettled unit s f = .next t ↔ ∃ s', settle unit s = .ok s' ∧ f s' = .next t := by
  unfold onceSettled
  cases settle unit s <;> simp

theorem onceSettled_idle {unit : FuncUnit} {s : State}
    {f : State → Host.Outcome State Fault Refusal} (h : IdleAt s unit s.port) :
    onceSettled (some unit) s f = f s := by
  simp only [onceSettled, settle_idle h]

/-! ### Issued commands -/

theorem commandUnit_of_decode {w : Word} {i : Instr} (h : decode w = .ok i) :
    commandUnit w = some (unitOf i) := by simp only [commandUnit, h]

/-- `HostIssue` of a word that decodes: the operation, once the replica of its unit is settled. -/
theorem perform_issue {w : Word} {i : Instr} (h : decode w = .ok i) (k : Nat) (s : State) :
    perform (.host k (.issue w)) s = onceSettled (some (unitOf i)) { s with port := k } (exec i) := by
  simp only [perform, HostPrim.unit, commandUnit_of_decode h]
  congr 1
  funext s'
  simp only [hostPrim, hostIssue, h]

/-! ### Single elements -/

/-- `readByte` succeeds exactly on a defined element of the space. -/
theorem readByte_ok {m : Memory} {size i : Nat} {r : Reply} :
    readByte m size i = .ok r ↔ i < size ∧ ∃ v, m.read i = some v ∧ r = .byte v := by
  unfold readByte
  split <;> [skip; simp_all]
  cases m.read i with
  | none => simp
  | some v => simp_all [@eq_comm _ r]

/-- `requireByte` succeeds exactly on an index and a value in range. -/
theorem requireByte_ok {size i v : Nat} {w : Byte} :
    requireByte size i v = .ok w ↔ i < size ∧ v ≤ 255 ∧ w = BitVec.ofNat 8 v := by
  unfold requireByte
  split <;> [skip; simp_all]
  split <;> simp_all [eq_comm]

/-! ### Running several -/

theorem runAll_cons_next {i : Instr} {is : List Instr} {s t : State} (h : exec i s = .next t) :
    runAll (i :: is) s = runAll is t := by simp only [runAll, h]

theorem performAll_cons_next {e : Event} {es : List Event} {s t : State}
    (h : perform e s = .next t) : performAll (e :: es) s = performAll es t := by
  simp only [performAll, h]

theorem runAll_append {is js : List Instr} {s t : State} (h : runAll is s = .next t) :
    runAll (is ++ js) s = runAll js t := by
  induction is generalizing s with
  | nil => cases h; rfl
  | cons i is ih =>
    simp only [runAll] at h
    split at h
    · rename_i s' hs
      rw [List.cons_append, runAll_cons_next hs, ih h]
    · cases h
    · cases h

theorem performAll_append {es fs : List Event} {s t : State} (h : performAll es s = .next t) :
    performAll (es ++ fs) s = performAll fs t := by
  induction es generalizing s with
  | nil => cases h; rfl
  | cons e es ih =>
    simp only [performAll] at h
    split at h
    · rename_i s' hs
      rw [List.cons_append, performAll_cons_next hs, ih h]
    · cases h
    · cases h

end Sys2Proof.Machine
end

