-- ==== Sys2Proof/Laws/Cexu.lean ====
section
/-! SUPPORT. The operations of the colour-expansion unit: what each can do, what an expansion leaves in
`RGB`, and that the grouping into lanes cannot be observed. -/

namespace Sys2Proof.Machine

/-! ### The lifecycle -/

/-- Everything `CMAP_PUBLISH` can do (R141). -/
theorem execCmapPublish_next {len : BitVec 9} {s t : State} :
    execCmapPublish len s = .next t ↔
      (∃ u, AtCexu s u) ∧ s.anyExpanding = false ∧ s.cmapFrozen = false ∧
        len.toNat ≤ cmapDepth ∧ (List.range len.toNat).all s.cmap.entryDefined = true ∧
        t = { s with cmapLen := len, cmapFrozen := true } := by
  simp only [execCmapPublish, onColormap_next]
  constructor
  · rintro ⟨hu, hx, h⟩
    split at h
    · cases h
    · rename_i hf
      split at h
      · rename_i hp
        cases h
        exact ⟨hu, hx, by simpa using hf, hp.1, hp.2, rfl⟩
      · cases h
  · rintro ⟨hu, hx, hf, hl, hp, rfl⟩
    refine ⟨hu, hx, ?_⟩
    rw [if_neg (by simp [hf]), if_pos ⟨hl, hp⟩]

/-- `CMAP_PUBLISH`'s test of the entries, in words. -/
theorem entriesDefined_iff (m : Colormap) (len : Nat) :
    (List.range len).all m.entryDefined = true ↔ Populated m len := by
  simp only [List.all_eq_true, List.mem_range, Colormap.entryDefined, Bool.and_eq_true,
    Option.isSome_iff_exists]
  refine forall_congr' fun i => imp_congr_right fun _ => ?_
  constructor
  · rintro ⟨⟨hr, hg⟩, hb⟩ ch
    cases ch <;> assumption
  · exact fun h => ⟨⟨h .r, h .g⟩, h .b⟩

/-- Everything `CMAP_RELEASE` can do (R142). -/
theorem execCmapRelease_next {s t : State} :
    execCmapRelease s = .next t ↔
      (∃ u, AtCexu s u) ∧ s.anyExpanding = false ∧ s.cmapFrozen = true ∧
        t = { s with cmapFrozen := false } := by
  simp only [execCmapRelease, onColormap_next]
  constructor
  · rintro ⟨hu, hx, h⟩
    split at h
    · rename_i hf; cases h; exact ⟨hu, hx, hf, rfl⟩
    · cases h
  · rintro ⟨hu, hx, hf, rfl⟩
    exact ⟨hu, hx, if_pos hf⟩

/-! ### One position -/

theorem lookup_ok {m : Colormap} {i : Nat} {t : Triplet} :
    lookup m i = .ok t ↔ m.r.read i = some t.r ∧ m.g.read i = some t.g ∧ m.b.read i = some t.b := by
  obtain ⟨r, g, b⟩ := t
  unfold lookup
  cases m.r.read i <;> cases m.g.read i <;> cases m.b.read i <;> simp

/-- Everything `pixel` can answer. -/
theorem pixel_ok {s : State} {u : Cexu} {p : Nat} {t : Triplet} :
    pixel s u p = .ok t ↔
      p < s.cfg.maxRow.toNat ∧ ∃ i : Byte, u.idx.read p = some i ∧ i.toNat < s.cmapLen.toNat ∧
        s.cmap.r.read i.toNat = some t.r ∧ s.cmap.g.read i.toNat = some t.g ∧
        s.cmap.b.read i.toNat = some t.b := by
  unfold pixel rowPosition gatherElement
  split <;> [skip; simp_all]
  cases hi : u.idx.read p with
  | none => simp
  | some i =>
    simp only [Option.some.injEq, exists_eq_left']
    split <;> simp_all [lookup_ok]

/-- The colour of a position is what the three channels hold at its palette index. -/
theorem pixel_channel {s : State} {u : Cexu} {p : Nat} {t : Triplet} {i : Byte}
    (h : pixel s u p = .ok t) (hi : u.idx.read p = some i) (ch : Channel) :
    (s.cmap.channel ch).read i.toNat = some (t.channel ch) := by
  obtain ⟨-, j, hj, -, hr, hg, hb⟩ := pixel_ok.mp h
  rw [hi] at hj
  cases hj
  cases ch <;> assumption

/-- A position in contract has a colour, once the colormap below `CMAP_LEN` is populated (R150). -/
theorem PositionReady.hasPixel {s : State} {u : Cexu} {p : Nat} (h : PositionReady s u p)
    (hm : Populated s.cmap s.cmapLen.toNat) : ∃ t, pixel s u p = .ok t := by
  obtain ⟨hp, i, hi, hl⟩ := h
  obtain ⟨r, hr⟩ := hm _ hl .r
  obtain ⟨g, hg⟩ := hm _ hl .g
  obtain ⟨b, hb⟩ := hm _ hl .b
  exact ⟨⟨r, g, b⟩, pixel_ok.mpr ⟨hp, i, hi, hl, hr, hg, hb⟩⟩

theorem PositionReady.of_pixel {s : State} {u : Cexu} {p : Nat} {t : Triplet}
    (h : pixel s u p = .ok t) : PositionReady s u p := by
  obtain ⟨hp, i, hi, hl, -⟩ := pixel_ok.mp h
  exact ⟨hp, i, hi, hl⟩

/-! ### Several positions -/

theorem expandScalar_cons {s : State} {u : Cexu} {p : Nat} {t : Triplet}
    (h : pixel s u p = .ok t) (ps : List Nat) (rgb : Memory) :
    expandScalar s u (p :: ps) rgb = expandScalar s u ps (writeTriplet rgb p t) := by
  simp only [expandScalar, h]

theorem expandScalar_append {s : State} {u : Cexu} (ps qs : List Nat) (rgb : Memory) :
    expandScalar s u (ps ++ qs) rgb =
      match expandScalar s u ps rgb with
      | .ok rgb' => expandScalar s u qs rgb'
      | .error e => .error e := by
  induction ps generalizing rgb with
  | nil => rfl
  | cons p ps ih =>
    cases h : pixel s u p with
    | ok t => rw [List.cons_append, expandScalar_cons h, expandScalar_cons h, ih]
    | error e => simp only [List.cons_append, expandScalar, h]

/-- It succeeds exactly when every position has a colour. -/
theorem expandScalar_isOk {s : State} {u : Cexu} (ps : List Nat) (rgb : Memory) :
    (∃ rgb', expandScalar s u ps rgb = .ok rgb') ↔ ∀ p ∈ ps, ∃ t, pixel s u p = .ok t := by
  induction ps generalizing rgb with
  | nil => simp [expandScalar]
  | cons p ps ih =>
    cases h : pixel s u p with
    | ok t => rw [expandScalar_cons h, ih]; simp [h]
    | error e => simp [expandScalar, h]

/-- What an expansion leaves in `RGB`: the colour of each of its positions, and the rest as it was. -/
theorem expandScalar_read {s : State} {u : Cexu} {ps : List Nat} {rgb rgb' : Memory}
    (h : expandScalar s u ps rgb = .ok rgb') :
    (∀ p ∈ ps, ∀ t, pixel s u p = .ok t → ∀ ch, rgb'.read (tripletElement p ch) =
      some (t.channel ch)) ∧
    ∀ a, a / 3 ∉ ps → rgb'.read a = rgb.read a := by
  induction ps generalizing rgb with
  | nil => cases h; simp
  | cons p ps ih =>
    cases hp : pixel s u p with
    | error e => simp [expandScalar, hp] at h
    | ok t =>
      rw [expandScalar_cons hp] at h
      obtain ⟨h₁, h₂⟩ := ih h
      constructor
      · intro q hq t' ht' ch
        by_cases hqs : q ∈ ps
        · exact h₁ q hqs t' ht' ch
        · have : q = p := by simpa [hqs] using hq
          subst this
          rw [hp] at ht'
          cases ht'
          rw [h₂ _ (by
            have : tripletElement q ch / 3 = q := by
              cases ch <;> simp only [tripletElement, channelOffset] <;> omega
            rwa [this]), read_writeTriplet_own]
      · intro a ha
        rw [List.mem_cons, not_or] at ha
        rw [h₂ a ha.2, read_writeTriplet, if_neg (by omega), if_neg (by omega), if_neg (by omega)]

theorem expandScalar_wf {s : State} {u : Cexu} {ps : List Nat} {rgb rgb' : Memory}
    (h : expandScalar s u ps rgb = .ok rgb') (hw : rgb.wf = true) : rgb'.wf = true := by
  induction ps generalizing rgb with
  | nil => cases h; exact hw
  | cons p ps ih =>
    cases hp : pixel s u p with
    | error e => simp [expandScalar, hp] at h
    | ok t => exact ih (expandScalar_cons hp .. ▸ h) (wf_writeTriplet p t hw)

theorem expandScalar_mem {s : State} {u : Cexu} {ps : List Nat} {rgb rgb' : Memory}
    (h : expandScalar s u ps rgb = .ok rgb') {c : Host.Cell} (hc : c ∈ rgb') :
    (∃ p ∈ ps, c.1 < 3 * (p + 1)) ∨ c ∈ rgb := by
  induction ps generalizing rgb with
  | nil => cases h; exact .inr hc
  | cons p ps ih =>
    cases hp : pixel s u p with
    | error e => simp [expandScalar, hp] at h
    | ok t =>
      rcases ih (expandScalar_cons hp .. ▸ h) with ⟨q, hq, hlt⟩ | hm
      · exact .inl ⟨q, by simp [hq], hlt⟩
      · rcases mem_writeTriplet hm with hlt | hm
        · exact .inl ⟨p, by simp, hlt⟩
        · exact .inr hm

/-- The order of the positions of an expansion cannot be observed (R145). -/
theorem expandScalar_perm {s : State} {u : Cexu} {ps qs : List Nat} {rgb : Memory}
    (h : ps.Perm qs) (hps : ps.Nodup) (hw : rgb.wf = true)
    (hp : ∀ p ∈ ps, ∃ t, pixel s u p = .ok t) :
    expandScalar s u ps rgb = expandScalar s u qs rgb := by
  induction h generalizing rgb with
  | nil => rfl
  | cons p _ ih =>
    obtain ⟨t, ht⟩ := hp p (by simp)
    rw [expandScalar_cons ht, expandScalar_cons ht]
    exact ih (List.nodup_cons.mp hps).2 (wf_writeTriplet p t hw) fun q hq => hp q (by simp [hq])
  | swap p q l =>
    obtain ⟨t, ht⟩ := hp p (by simp)
    obtain ⟨v, hv⟩ := hp q (by simp)
    have hne : q ≠ p := fun e => by simp [e] at hps
    rw [expandScalar_cons hv, expandScalar_cons ht, expandScalar_cons ht, expandScalar_cons hv,
      writeTriplet_comm v t hw hne]
  | trans h₁ _ ih₁ ih₂ =>
    rw [ih₁ hps hw hp, ih₂ (h₁.nodup_iff.mp hps) hw fun p hq => hp p (h₁.mem_iff.mpr hq)]

/-! ### Lanes -/

/-- A gather succeeds exactly when every lane's position has a colour. -/
theorem gatherLanes_isOk {s : State} {u : Cexu} (ps : List Nat) :
    (∃ ts, gatherLanes s u ps = .ok ts) ↔ ∀ p ∈ ps, ∃ t, pixel s u p = .ok t := by
  induction ps with
  | nil => simp [gatherLanes]
  | cons p ps ih =>
    cases h : pixel s u p with
    | error e => simp [gatherLanes, h]
    | ok t =>
      cases hg : gatherLanes s u ps with
      | ok ts => simpa [gatherLanes, h, hg] using ih.mp ⟨ts, hg⟩
      | error e => simpa [gatherLanes, h, hg] using ih

/-- A group of lanes, all reads before all writes, does what its positions do one after the other. -/
theorem gatherLanes_foldl {s : State} {u : Cexu} {ps : List Nat} {ts : List (Nat × Triplet)}
    (h : gatherLanes s u ps = .ok ts) (rgb : Memory) :
    expandScalar s u ps rgb =
      .ok (ts.foldl (fun rgb pt => writeTriplet rgb pt.1 pt.2) rgb) := by
  induction ps generalizing ts rgb with
  | nil => cases h; rfl
  | cons p ps ih =>
    cases hp : pixel s u p with
    | error e => simp [gatherLanes, hp] at h
    | ok t =>
      cases hg : gatherLanes s u ps with
      | error e => simp [gatherLanes, hp, hg] at h
      | ok ts' =>
        simp only [gatherLanes, hp, hg, Except.ok.injEq] at h
        subst h
        rw [expandScalar_cons hp, ih hg, List.foldl_cons]

/-- Group by group is position by position. -/
theorem expandParallel_eq {s : State} {u : Cexu} (gs : List (List Nat)) (rgb : Memory)
    (h : ∀ p ∈ gs.flatten, ∃ t, pixel s u p = .ok t) :
    expandParallel s u gs rgb = expandScalar s u gs.flatten rgb := by
  induction gs generalizing rgb with
  | nil => rfl
  | cons ps gs ih =>
    obtain ⟨ts, hts⟩ := (gatherLanes_isOk ps).mpr fun p hp => h p (by simp [hp])
    rw [List.flatten_cons, expandScalar_append, gatherLanes_foldl hts]
    simp only [expandParallel, hts]
    exact ih _ fun p hp => h p (by rw [List.flatten_cons, List.mem_append]; exact .inr hp)

/-- `g` full groups and the tail of the next are an initial piece of the row. -/
theorem cexGroups_flatten_aux (lanes n : Nat) (hl : 1 ≤ lanes) (g : Nat) :
    ((List.range g).map fun g =>
      ((List.range lanes).map fun l => g * lanes + l).filter fun p => p < n).flatten =
      List.range (min (g * lanes) n) := by
  induction g with
  | zero => simp
  | succ g ih =>
    rw [List.range_succ, List.map_append, List.flatten_append, ih]
    simp only [List.map_cons, List.map_nil, List.flatten_cons, List.flatten_nil, List.append_nil]
    have hmap : (List.range lanes).map (fun l => g * lanes + l) =
        List.range' (g * lanes) lanes := by
      rw [List.range_eq_range', List.map_add_range']; simp
    rw [hmap]
    have hf : ∀ k a, (List.range' a k).filter (fun p => decide (p < n)) =
        List.range' a (min k (n - a)) := by
      intro k
      induction k with
      | zero => simp
      | succ k ihk =>
        intro a
        rw [List.range'_succ, List.filter_cons, ihk]
        by_cases ha : a < n
        · rw [if_pos (by simpa using ha)]
          have : min (k + 1) (n - a) = min k (n - (a + 1)) + 1 := by omega
          rw [this, List.range'_succ]
        · rw [if_neg (by simpa using ha)]
          have h1 : min k (n - (a + 1)) = 0 := by omega
          have h2 : min (k + 1) (n - a) = 0 := by omega
          rw [h1, h2]; simp
    rw [hf]
    by_cases hgn : g * lanes ≤ n
    · have h1 : min (g * lanes) n = g * lanes := by omega
      have h2 : min ((g + 1) * lanes) n = g * lanes + min lanes (n - g * lanes) := by
        rw [Nat.add_mul, Nat.one_mul]; omega
      rw [h1, h2, List.range_add, List.range'_eq_map_range]
    · have h1 : min (g * lanes) n = n := by omega
      have h2 : min ((g + 1) * lanes) n = n := by rw [Nat.add_mul, Nat.one_mul]; omega
      have h3 : min lanes (n - g * lanes) = 0 := by omega
      rw [h1, h2, h3]; simp

/-- The groups of R147 are the row in order, each position once. -/
theorem cexGroups_flatten (lanes n : Nat) (hl : 1 ≤ lanes) :
    (cexGroups lanes n).flatten = List.range n := by
  rw [cexGroups, cexGroups_flatten_aux lanes n hl]
  have : n ≤ (n + lanes - 1) / lanes * lanes := by
    have := Nat.div_add_mod (n + lanes - 1) lanes
    have := Nat.mod_lt (n + lanes - 1) hl
    rw [Nat.mul_comm]
    omega
  rw [Nat.min_eq_right this]

/-! ### Whole rows -/

/-- `requireRow` succeeds exactly on a frozen colormap and a row every position of which has a
colour. -/
theorem requireRow_ok {s : State} {u : Cexu} {n : BitVec 16} :
    requireRow s u n = .ok () ↔
      s.cmapFrozen = true ∧ n.toNat ≤ s.cfg.maxRow.toNat ∧
        ∀ p, p < n.toNat → ∃ t, pixel s u p = .ok t := by
  have hg := gatherLanes_isOk (s := s) (u := u) (List.range n.toNat)
  simp only [List.mem_range] at hg
  rw [← hg]
  unfold requireRow
  split <;> [skip; simp_all]
  split <;> [skip; simp_all]
  cases gatherLanes s u (List.range n.toNat) <;> simp_all

theorem withRgb_ok {u u' : Cexu} {r : Except Refusal Memory} :
    withRgb u r = .ok u' ↔ ∃ rgb, r = .ok rgb ∧ u' = { u with rgb := rgb } := by
  cases r <;> simp [withRgb, eq_comm]

/-- Everything `CEXP_PIX` can do (R143). -/
theorem execCexpPix_next {p : BitVec 16} {s t : State} :
    execCexpPix p s = .next t ↔
      ∃ u c, AtCexu s u ∧ s.cmapFrozen = true ∧ pixel s u p.toNat = .ok c ∧
        t = s.setCexu s.port { u with rgb := writeTriplet u.rgb p.toNat c } := by
  simp only [execCexpPix, onCexu_next, withRgb_ok, expandFrozen]
  constructor
  · rintro ⟨u, -, hu, ⟨rgb, h, rfl⟩, rfl⟩
    split at h
    · rename_i hf
      obtain ⟨c, hc⟩ := (expandScalar_isOk _ _).mp ⟨rgb, h⟩ p.toNat (by simp)
      rw [expandScalar_cons hc] at h
      cases h
      exact ⟨u, c, hu, hf, hc, rfl⟩
    · cases h
  · rintro ⟨u, c, hu, hf, hc, rfl⟩
    exact ⟨u, _, hu, ⟨_, by rw [if_pos hf, expandScalar_cons hc]; rfl, rfl⟩, rfl⟩

/-- Everything `CEXP_ROW.S` can do (R144). -/
theorem execCexpRowS_next {n : BitVec 16} {s t : State} :
    execCexpRowS n s = .next t ↔
      ∃ u rgb, AtCexu s u ∧ requireRow s u n = .ok () ∧
        expandScalar s u (List.range n.toNat) u.rgb = .ok rgb ∧
        t = s.setCexu s.port { u with rgb := rgb } := by
  simp only [execCexpRowS, onCexu_next]
  constructor
  · rintro ⟨u, u', hu, h, rfl⟩
    split at h
    · rename_i hr
      obtain ⟨rgb, hrgb, rfl⟩ := withRgb_ok.mp h
      exact ⟨u, rgb, hu, hr, hrgb, rfl⟩
    · cases h
  · rintro ⟨u, rgb, hu, hr, hrgb, rfl⟩
    exact ⟨u, _, hu, by simp only [hr]; exact withRgb_ok.mpr ⟨rgb, hrgb, rfl⟩, rfl⟩

/-- Everything `CEXP_ROW.P` can do (R147). -/
theorem execCexpRowP_next {n : BitVec 16} {s t : State} :
    execCexpRowP n s = .next t ↔
      ∃ u rgb, AtCexu s u ∧ requireRow s u n = .ok () ∧
        expandParallel s u (cexGroups s.cfg.cexLanes n.toNat) u.rgb = .ok rgb ∧
        t = s.setCexu s.port { u with rgb := rgb } := by
  simp only [execCexpRowP, onCexu_next]
  constructor
  · rintro ⟨u, u', hu, h, rfl⟩
    split at h
    · rename_i hr
      obtain ⟨rgb, hrgb, rfl⟩ := withRgb_ok.mp h
      exact ⟨u, rgb, hu, hr, hrgb, rfl⟩
    · cases h
  · rintro ⟨u, rgb, hu, hr, hrgb, rfl⟩
    exact ⟨u, _, hu, by simp only [hr]; exact withRgb_ok.mpr ⟨rgb, hrgb, rfl⟩, rfl⟩

end Sys2Proof.Machine
end

