-- ==== Sys2Proof/Laws/Dct.lean ====
section
/-! SUPPORT. The operations of the DCT unit: what each can do, and that a pass over the 8 lines of a
stage does one 1-D transform per line, whatever the order or the grouping. -/

namespace Sys2Proof.Machine

/-! ### One line -/

/-- The `require` of a line operation, as a precondition. -/
theorem requireLine_ok (p : Precision) (st : Stage) (n : BitVec 3) (b : Block) :
    requireElements (inDomain p st) b (lineElements st n) = .ok () ↔ LineReady p st n b := by
  rw [requireElements_ok]
  constructor
  · intro h
    have hk : ∀ k, ∃ v, b.get (lineElement st n k) = some v ∧ inDomain p st v = true := fun k =>
      h _ ((mem_lineElements ..).mpr ⟨k, rfl⟩)
    have hv : ∀ k, b.get (lineElement st n k) = some ((b.readLine st n).get k) := fun k => by
      obtain ⟨v, hv, -⟩ := hk k
      rw [Block.readLine_get, Block.val_of_get hv, hv]
    refine ⟨b.readLine st n, hv, fun k => ?_⟩
    obtain ⟨v, hv', hd⟩ := hk k
    rw [hv k] at hv'
    cases hv'
    exact hd
  · rintro ⟨x, hx, hd⟩ i hi
    obtain ⟨k, rfl⟩ := (mem_lineElements ..).mp hi
    exact ⟨_, hx k, hd k⟩

/-- A line known to be `x` is read as `x`. -/
theorem readLine_of_lineIs {b : Block} {st : Stage} {n : BitVec 3} {x : Vec8}
    (h : LineIs b st n x) : b.readLine st n = x :=
  Vec8.ext_get fun k => by rw [Block.readLine_get, Block.val_of_get (h k)]

/-- Everything `transformChecked` can do. -/
theorem transformChecked_ok {c : Config} {st : Stage} {n : BitVec 3} {b b' : Block} :
    transformChecked c st n b = .ok b' ↔
      LineReady c.precision st n b ∧ b' = transformLine c st n b := by
  rw [← requireLine_ok]
  unfold transformChecked
  cases h : requireElements (inDomain c.precision st) b (lineElements st n) <;> simp [eq_comm]

theorem withBlk_ok {u u' : Dctu} {r : Except Refusal Block} :
    withBlk u r = .ok u' ↔ ∃ b, r = .ok b ∧ u' = { u with blk := b } := by
  cases r <;> simp [withBlk, eq_comm]

/-- Everything `DCT_ROW` and `DCT_COL` can do. -/
theorem dctLine_next {st : Stage} {n : BitVec 3} {s t : State} :
    dctLine st n s = .next t ↔
      ∃ u, AtDctu s u ∧ LineReady s.cfg.precision st n u.blk ∧
        t = s.setDctu s.port { u with blk := transformLine s.cfg st n u.blk } := by
  simp only [dctLine, onDctu_next, withBlk_ok, transformChecked_ok]
  constructor
  · rintro ⟨u, -, hu, ⟨-, ⟨hr, rfl⟩, rfl⟩, rfl⟩
    exact ⟨u, hu, hr, rfl⟩
  · rintro ⟨u, hu, hr, rfl⟩
    exact ⟨u, _, hu, ⟨_, ⟨hr, rfl⟩, rfl⟩, rfl⟩

/-! ### The whole block -/

theorem requireBlock_ok (c : Config) (b : Block) :
    requireBlock c b = .ok () ↔ BlockReady c.precision b := by
  rw [requireBlock, requireElements_ok]
  exact ⟨fun h i => h i (mem_allElements i), fun h i _ => h i⟩

/-- Everything a whole transform can do. -/
theorem dctForward_next {run : Config → Block → Block} {s t : State} :
    dctForward run s = .next t ↔
      ∃ u, AtDctu s u ∧ BlockReady s.cfg.precision u.blk ∧
        t = s.setDctu s.port { u with blk := run s.cfg u.blk } := by
  simp only [dctForward, onDctu_next]
  constructor
  · rintro ⟨u, u', hu, h, rfl⟩
    split at h
    · rename_i hr
      cases h
      exact ⟨u, hu, (requireBlock_ok ..).mp hr, rfl⟩
    · cases h
  · rintro ⟨u, hu, hr, rfl⟩
    exact ⟨u, _, hu, by rw [(requireBlock_ok ..).mpr hr]; rfl, rfl⟩

/-- A block ready for a transform has every row ready. -/
theorem LineReady.of_block {p : Precision} {b : Block} (h : BlockReady p b) (r : BitVec 3) :
    LineReady p .row r b :=
  (requireLine_ok ..).mp ((requireElements_ok ..).mpr fun i _ => h i)

/-! ### Passes -/

theorem scalarPass_cons (c : Config) (st : Stage) (n : BitVec 3) (ns : List (BitVec 3)) (b : Block) :
    scalarPass c st (n :: ns) b = scalarPass c st ns (transformLine c st n b) := rfl

/-- A line not yet transformed is as it was. -/
theorem scalarPass_readLine (c : Config) (st : Stage) (ns : List (BitVec 3)) (b : Block)
    {n : BitVec 3} (h : n ∉ ns) : (scalarPass c st ns b).readLine st n = b.readLine st n := by
  induction ns generalizing b with
  | nil => rfl
  | cons m ns ih =>
    rw [List.mem_cons, not_or] at h
    rw [scalarPass_cons, ih _ h.2, transformLine_readLine_other c b h.1]

/-- A pass leaves the elements of the lines it does not name. -/
theorem scalarPass_get_other (c : Config) (st : Stage) (ns : List (BitVec 3)) (b : Block)
    {n : BitVec 3} (h : n ∉ ns) (k : Fin 8) :
    (scalarPass c st ns b).get (lineElement st n k) = b.get (lineElement st n k) := by
  induction ns generalizing b with
  | nil => rfl
  | cons m ns ih =>
    rw [List.mem_cons, not_or] at h
    rw [scalarPass_cons, ih _ h.2, transformLine_get_other c b fun j =>
      lineElement_ne (Ne.symm h.1) j k]

/-- A pass makes of each line it names the transform of that line. -/
theorem scalarPass_get (c : Config) (st : Stage) (ns : List (BitVec 3)) (b : Block)
    (hns : ns.Nodup) {n : BitVec 3} (h : n ∈ ns) (k : Fin 8) :
    (scalarPass c st ns b).get (lineElement st n k) =
      some ((dct1d c.precision (fix c.fixTab) st (b.readLine st n)).get k) := by
  induction ns generalizing b with
  | nil => simp at h
  | cons m ns ih =>
    obtain ⟨hm, hns⟩ := List.nodup_cons.mp hns
    rw [scalarPass_cons]
    by_cases hn : n ∈ ns
    · have hne : n ≠ m := fun e => hm (e ▸ hn)
      rw [ih _ hns hn, transformLine_readLine_other c b hne]
    · have : n = m := by simpa [hn] using h
      subst this
      rw [scalarPass_get_other _ _ _ _ hn, transformLine_get_own]

/-- The order of the lines of a pass cannot be observed (R115). -/
theorem scalarPass_perm (c : Config) (st : Stage) {ns ms : List (BitVec 3)} (b : Block)
    (h : ns.Perm ms) (hns : ns.Nodup) : scalarPass c st ns b = scalarPass c st ms b := by
  induction h generalizing b with
  | nil => rfl
  | cons n _ ih => exact ih _ (List.nodup_cons.mp hns).2
  | swap m n l =>
    have hne : n ≠ m := fun e => by simp [e] at hns
    rw [scalarPass_cons, scalarPass_cons, scalarPass_cons, scalarPass_cons,
      transformLine_comm c b (Ne.symm hne)]
  | trans h₁ _ ih₁ ih₂ => rw [ih₁ _ hns, ih₂ _ (h₁.nodup_iff.mp hns)]

/-- A list of the 8 lines in some order. -/
theorem perm_eightLines {ns : List (BitVec 3)} (hns : ns.Nodup) (h : ∀ n, n ∈ ns) :
    ns.Perm eightLines :=
  (List.perm_ext_iff_of_nodup hns eightLines_nodup).mpr fun n =>
    ⟨fun _ => mem_eightLines n, fun _ => h n⟩

/-- Lines left of a pass that are all in contract are all transformed. -/
theorem passChecked_ok {c : Config} {st : Stage} {ns : List (BitVec 3)} {b : Block} (hns : ns.Nodup)
    (h : ∀ n ∈ ns, LineReady c.precision st n b) :
    passChecked c st ns b = .ok (scalarPass c st ns b) := by
  induction ns generalizing b with
  | nil => rfl
  | cons n ns ih =>
    obtain ⟨hn, hns⟩ := List.nodup_cons.mp hns
    simp only [passChecked, transformChecked_ok.mpr ⟨h n (by simp), rfl⟩]
    refine ih hns fun m hm => ?_
    obtain ⟨x, hx, hd⟩ := h m (by simp [hm])
    refine ⟨x, fun k => ?_, hd⟩
    rw [transformLine_get_other c b fun j =>
      lineElement_ne (fun (e : n = m) => hn (e ▸ hm)) j k]
    exact hx k

/-! ### Lanes -/

/-- A group of lanes, all reads before all writes, does what its lines do one after the other. -/
theorem laneGroup_eq (c : Config) (st : Stage) (ns : List (BitVec 3)) (b : Block)
    (h : ns.Nodup) : laneGroup c st ns b = scalarPass c st ns b := by
  suffices H : ∀ (ns : List (BitVec 3)) (b₀ b : Block), ns.Nodup →
      (∀ n ∈ ns, b.readLine st n = b₀.readLine st n) →
      (ns.map fun n => (n, dct1d c.precision (fix c.fixTab) st (b₀.readLine st n))).foldl
        (fun b ny => b.writeLine st ny.1 ny.2) b = scalarPass c st ns b from
    H ns b b h fun _ _ => rfl
  intro ns
  induction ns with
  | nil => intros; rfl
  | cons m ns ih =>
    intro b₀ b hnd hr
    obtain ⟨hm, hnd⟩ := List.nodup_cons.mp hnd
    rw [List.map_cons, List.foldl_cons, scalarPass_cons]
    have hb : b.writeLine st m (dct1d c.precision (fix c.fixTab) st (b₀.readLine st m)) =
        transformLine c st m b := by rw [transformLine, hr m (by simp)]
    rw [hb]
    refine ih b₀ _ hnd fun n hn => ?_
    rw [transformLine_readLine_other c b fun (e : n = m) => hm (e ▸ hn), hr n (by simp [hn])]

/-- The groups of R117 are the 8 lines in order. -/
theorem dctGroups_flatten (lanes : DctLanes) : (dctGroups lanes).flatten = eightLines := by
  cases lanes <;> decide

theorem dctGroups_nodup (lanes : DctLanes) : ∀ ns ∈ dctGroups lanes, ns.Nodup := by
  cases lanes <;> decide

end Sys2Proof.Machine
end

