-- ==== Sys2Proof/Laws/Decode.lean ====
section
/-! SUPPORT. The fields of an assembled command word, and a word from its fields. -/

namespace Sys2Proof

/-! ### Concatenations -/

theorem extract_append_low {w v : Nat} (a : BitVec w) (b : BitVec v) :
    (a ++ b).extractLsb' 0 v = b := by
  apply BitVec.eq_of_getLsbD_eq
  intro i hi
  simp [BitVec.getLsbD_append, hi]

theorem extract_append_high {w v : Nat} (a : BitVec w) (b : BitVec v) (s n : Nat) :
    (a ++ b).extractLsb' (v + s) n = a.extractLsb' s n := by
  apply BitVec.eq_of_getLsbD_eq
  intro i hi
  have h : ¬v + s + i < v := by omega
  simp only [BitVec.getLsbD_extractLsb', BitVec.getLsbD_append, h, if_false]
  congr 2
  omega

theorem append_extract {w v : Nat} (a : BitVec (w + v)) :
    a.extractLsb' v w ++ a.extractLsb' 0 v = a := by
  apply BitVec.eq_of_getLsbD_eq
  intro i hi
  simp only [BitVec.getLsbD_append, BitVec.getLsbD_extractLsb']
  split
  · simp_all
  · simp only [show v + (i - v) = i by omega, show i - v < w by omega, decide_true, Bool.true_and]

theorem extract_extract {w : Nat} (a : BitVec w) (s n t m : Nat) (h : t + m ≤ n) :
    (a.extractLsb' s n).extractLsb' t m = a.extractLsb' (s + t) m := by
  apply BitVec.eq_of_getLsbD_eq
  intro i hi
  simp only [BitVec.getLsbD_extractLsb', hi, decide_true, Bool.true_and,
    show t + i < n by omega, Nat.add_assoc]

/-! ### The command word (R80) -/

theorem argField_commandWord (op : BitVec 8) (strat : BitVec 1) (arg : BitVec 16) :
    argField (commandWord op strat arg) = arg := extract_append_low (w := 16) _ arg

theorem zField_commandWord (op : BitVec 8) (strat : BitVec 1) (arg : BitVec 16) :
    zField (commandWord op strat arg) = 0 :=
  (extract_append_high (w := 16) (op ++ strat ++ (0 : BitVec 7)) arg 0 7).trans
    (extract_append_low (w := 9) (op ++ strat) (0 : BitVec 7))

theorem stratField_commandWord (op : BitVec 8) (strat : BitVec 1) (arg : BitVec 16) :
    stratField (commandWord op strat arg) = strat :=
  (extract_append_high (w := 16) (op ++ strat ++ (0 : BitVec 7)) arg 7 1).trans
    ((extract_append_high (w := 9) (op ++ strat) (0 : BitVec 7) 0 1).trans
      (extract_append_low (w := 8) op strat))

theorem opField_commandWord (op : BitVec 8) (strat : BitVec 1) (arg : BitVec 16) :
    opField (commandWord op strat arg) = op :=
  (extract_append_high (w := 16) (op ++ strat ++ (0 : BitVec 7)) arg 8 8).trans
    ((extract_append_high (w := 9) (op ++ strat) (0 : BitVec 7) 1 8).trans
      ((extract_append_high (w := 8) op strat 0 8).trans (BitVec.extractLsb'_eq_self)))

/-- A word whose `Z` is 0 is assembled from its other fields. -/
theorem commandWord_fields {w : Word} (h : zField w = 0) :
    commandWord (opField w) (stratField w) (argField w) = w := by
  have h1 : w.extractLsb' 24 8 ++ w.extractLsb' 23 1 = w.extractLsb' 23 9 := by
    have := append_extract (w := 8) (v := 1) (w.extractLsb' 23 9)
    rwa [extract_extract _ _ _ _ _ (by decide), extract_extract _ _ _ _ _ (by decide)] at this
  have h2 : w.extractLsb' 23 9 ++ w.extractLsb' 16 7 = w.extractLsb' 16 16 := by
    have := append_extract (w := 9) (v := 7) (w.extractLsb' 16 16)
    rwa [extract_extract _ _ _ _ _ (by decide), extract_extract _ _ _ _ _ (by decide)] at this
  have h3 : w.extractLsb' 16 16 ++ w.extractLsb' 0 16 = w := append_extract (w := 16) (v := 16) w
  have hz : (0 : BitVec 7) = w.extractLsb' 16 7 := h.symm
  unfold commandWord opField stratField argField
  rw [hz]
  exact (congrArg₂ (· ++ ·) ((congrArg₂ (· ++ ·) h1 rfl).trans h2) rfl).trans h3

/-! ### The operand formats (R81) -/

theorem argI3 (n : BitVec 3) :
    ((0 : BitVec 13) ++ n : BitVec 16).extractLsb' 3 13 = 0 ∧
      ((0 : BitVec 13) ++ n : BitVec 16).extractLsb' 0 3 = n :=
  ⟨(extract_append_high (w := 13) (0 : BitVec 13) n 0 13).trans BitVec.extractLsb'_eq_self,
    extract_append_low (w := 13) _ n⟩

theorem argL9 (n : BitVec 9) :
    ((0 : BitVec 7) ++ n : BitVec 16).extractLsb' 9 7 = 0 ∧
      ((0 : BitVec 7) ++ n : BitVec 16).extractLsb' 0 9 = n :=
  ⟨(extract_append_high (w := 7) (0 : BitVec 7) n 0 7).trans BitVec.extractLsb'_eq_self,
    extract_append_low (w := 7) _ n⟩

theorem argI3_of_high {a : BitVec 16} (h : a.extractLsb' 3 13 = 0) :
    (0 : BitVec 13) ++ a.extractLsb' 0 3 = a := by
  have := append_extract (w := 13) (v := 3) a
  rwa [h] at this

theorem argL9_of_high {a : BitVec 16} (h : a.extractLsb' 9 7 = 0) :
    (0 : BitVec 7) ++ a.extractLsb' 0 9 = a := by
  have := append_extract (w := 7) (v := 9) a
  rwa [h] at this

/-! ### What decodes to what -/

/-- Everything R85's case on `OP` can accept. -/
theorem decodeOp_ok {op : BitVec 8} {strat : BitVec 1} {arg : BitVec 16} {i : Instr} :
    decodeOp op strat arg = .ok i ↔
      (op = 0x10 ∧ strat = 0 ∧ arg.extractLsb' 3 13 = 0 ∧ i = .dctRow (arg.extractLsb' 0 3)) ∨
      (op = 0x11 ∧ strat = 0 ∧ arg.extractLsb' 3 13 = 0 ∧ i = .dctCol (arg.extractLsb' 0 3)) ∨
      (op = 0x12 ∧ strat = 0 ∧ arg = 0 ∧ i = .dctFwdS) ∨
      (op = 0x12 ∧ strat = 1 ∧ arg = 0 ∧ i = .dctFwdP) ∨
      (op = 0x20 ∧ strat = 0 ∧ arg.extractLsb' 9 7 = 0 ∧ (arg.extractLsb' 0 9).toNat ≤ 256 ∧
        i = .cmapPublish (arg.extractLsb' 0 9)) ∨
      (op = 0x21 ∧ strat = 0 ∧ arg = 0 ∧ i = .cmapRelease) ∨
      (op = 0x22 ∧ strat = 0 ∧ i = .cexpPix arg) ∨
      (op = 0x23 ∧ strat = 0 ∧ i = .cexpRowS arg) ∨
      (op = 0x23 ∧ strat = 1 ∧ i = .cexpRowP arg) := by
  have hs : strat = 0 ∨ strat = 1 := by revert strat; decide
  unfold decodeOp withoutStrategy operandI3 operandN operandL9
  rcases hs with rfl | rfl <;> split_ifs <;> simp_all [@eq_comm _ _ i]

/-- Everything the decoder can accept. -/
theorem decode_ok {w : Word} {i : Instr} :
    decode w = .ok i ↔ zField w = 0 ∧ decodeOp (opField w) (stratField w) (argField w) = .ok i := by
  unfold decode
  split <;> simp_all

end Sys2Proof
end

