-- ==== Sys2Proof/Laws/PerInstr.lean ====
section
/-! SUPPORT. Statements about every instruction as syntax, one lemma per constructor. -/

namespace Sys2Proof

/-- A word in two halves, masked half by half. -/
theorem and_halves {w v : Nat} (a m : BitVec w) (b n : BitVec v) :
    (a ++ b) &&& (m ++ n) = (a &&& m) ++ (b &&& n) := BitVec.and_append

/-- A mask that keeps the upper 16 bits and drops the operand (format `P16`). -/
theorem mask_p16 (a b : BitVec 16) : ((a ++ b : Word) &&& 0xFFFF0000) = a ++ (0 : BitVec 16) := by
  have h := and_halves a (0xFFFF : BitVec 16) b (0 : BitVec 16)
  rw [show (0xFFFF : BitVec 16) = BitVec.allOnes 16 from rfl, BitVec.and_allOnes,
    show b &&& (0 : BitVec 16) = 0 from BitVec.and_zero] at h
  exact h

/-- A mask that keeps all but the 9 operand bits (format `L9`). -/
theorem mask_l9 (a : BitVec 23) (b : BitVec 9) :
    ((a ++ b : Word) &&& 0xFFFFFE00) = a ++ (0 : BitVec 9) := by
  have h := and_halves a (BitVec.allOnes 23) b (0 : BitVec 9)
  rw [BitVec.and_allOnes, show b &&& (0 : BitVec 9) = 0 from BitVec.and_zero] at h
  exact h

/-- Concatenation may be regrouped. -/
theorem append_append_toNat {w v n : Nat} (a : BitVec w) (b : BitVec v) (c : BitVec n) :
    (a ++ (b ++ c)).toNat = (a ++ b ++ c).toNat := by
  simp [BitVec.toNat_append, Nat.shiftLeft_or_distrib, Nat.shiftLeft_add, Nat.or_assoc]

namespace Laws.TableRow

/-- The instruction's own word selects a row of R84's table that carries its mnemonic. -/
def Statement (i : Instr) : Prop :=
  i.wellFormed = true → ∃ row ∈ opcodeTable, row.mnemonic = i.mnemonic ∧ row.selects (encode i) = true

theorem dctRow (r : BitVec 3) : Statement (.dctRow r) := fun _ =>
  ⟨⟨"DCT_ROW", 0x10000000, 0xFFFFFFF8⟩, by decide, rfl, by revert r; decide⟩

theorem dctCol (c : BitVec 3) : Statement (.dctCol c) := fun _ =>
  ⟨⟨"DCT_COL", 0x11000000, 0xFFFFFFF8⟩, by decide, rfl, by revert c; decide⟩

theorem dctFwdS : Statement .dctFwdS := fun _ =>
  ⟨⟨"DCT_FWD.S", 0x12000000, 0xFFFFFFFF⟩, by decide, rfl, by decide⟩

theorem dctFwdP : Statement .dctFwdP := fun _ =>
  ⟨⟨"DCT_FWD.P", 0x12800000, 0xFFFFFFFF⟩, by decide, rfl, by decide⟩

theorem cmapPublish (len : BitVec 9) : Statement (.cmapPublish len) := fun _ =>
  ⟨⟨"CMAP_PUBLISH", 0x20000000, 0xFFFFFE00⟩, by decide, rfl, by
    have h : encode (.cmapPublish len) = (0x100000 : BitVec 23) ++ len := by
      exact BitVec.eq_of_toNat_eq
        (append_append_toNat (w := 16) (v := 7) (n := 9) (0x2000 : BitVec 16) (0 : BitVec 7) len)
    rw [OpcodeRow.selects, h, mask_l9]
    decide⟩

theorem cmapRelease : Statement .cmapRelease := fun _ =>
  ⟨⟨"CMAP_RELEASE", 0x21000000, 0xFFFFFFFF⟩, by decide, rfl, by decide⟩

theorem cexpPix (p : BitVec 16) : Statement (.cexpPix p) := fun _ =>
  ⟨⟨"CEXP_PIX", 0x22000000, 0xFFFF0000⟩, by decide, rfl, by
    rw [OpcodeRow.selects, encode, commandWord, mask_p16]
    decide⟩

theorem cexpRowS (n : BitVec 16) : Statement (.cexpRowS n) := fun _ =>
  ⟨⟨"CEXP_ROW.S", 0x23000000, 0xFFFF0000⟩, by decide, rfl, by
    rw [OpcodeRow.selects, encode, commandWord, mask_p16]
    decide⟩

theorem cexpRowP (n : BitVec 16) : Statement (.cexpRowP n) := fun _ =>
  ⟨⟨"CEXP_ROW.P", 0x23800000, 0xFFFF0000⟩, by decide, rfl, by
    rw [OpcodeRow.selects, encode, commandWord, mask_p16]
    decide⟩

end Laws.TableRow

end Sys2Proof
end

