-- ==== Sys2Proof/Tests/Slice0.lean ====
section
/-! SUPPORT. The package's own tests. Expected results are the spec's (95_test_vectors.md, or the worked
examples of the rules named); the last part holds, for each obligation with hypotheses, a state and
operands that meet them all. -/

open Sys2Proof Sys2Proof.Machine

namespace Sys2Proof.Tests

/-! ### Well-formedness and decoding -/

/-- R81: `len` must be at most 256. -/
theorem test_publish_257_illformed : Instr.wellFormed (.cmapPublish 257) = false := by decide

theorem test_publish_256_wellformed : Instr.wellFormed (.cmapPublish 256) = true := by decide

/-- The word of an ill-formed instruction is reserved (R86). -/
theorem test_publish_257_reserved : decode (encode (.cmapPublish 257)) = .error .publishLength := by
  decide

/-- 95_test_vectors.md V5.1, the words that decode, every operation among them. -/
theorem test_decode_words :
    ([0x10000000, 0x10000003, 0x10000007, 0x11000000, 0x11000007, 0x12000000, 0x12800000, 0x20000000,
      0x20000004, 0x20000100, 0x21000000] : List Word).map (fun w => decode w) =
    [.ok (.dctRow 0), .ok (.dctRow 3), .ok (.dctRow 7), .ok (.dctCol 0), .ok (.dctCol 7),
      .ok .dctFwdS, .ok .dctFwdP, .ok (.cmapPublish 0), .ok (.cmapPublish 4),
      .ok (.cmapPublish 256), .ok .cmapRelease] := by decide

theorem test_decode_expansions :
    ([0x22000000, 0x22000005, 0x2200FFFF, 0x23000000, 0x23000004, 0x23800004, 0x23800280, 0x2300FFFF,
      0x2380FFFF] : List Word).map (fun w => decode w) =
    [.ok (.cexpPix 0), .ok (.cexpPix 5), .ok (.cexpPix 65535), .ok (.cexpRowS 0), .ok (.cexpRowS 4),
      .ok (.cexpRowP 4), .ok (.cexpRowP 640), .ok (.cexpRowS 65535), .ok (.cexpRowP 65535)] := by
  decide

/-- V5.1, the reserved words. -/
theorem test_decode_reserved :
    ([0x10000008, 0x10800000, 0x10010000, 0x1100FFFF, 0x12000001, 0x12800001, 0x127F0000, 0x13000000,
      0x20000101, 0x200001FF, 0x20000200, 0x20800004, 0x21000001, 0x21800000, 0x22800005, 0x22010005,
      0x23400000, 0x24000000, 0x00000000, 0xFFFFFFFF, 0x1F000000, 0x30000000] : List Word).all
      (fun w => !(decode w).isOk) = true := by decide

/-- One word written out field by field (R80: `OP`, `STRAT`, `Z`, `ARG`): `CEXP_ROW.P 640`. -/
theorem test_decode_bits :
    decode (0b00100011#8 ++ 0b1#1 ++ 0b0000000#7 ++ 0b0000001010000000#16) = .ok (.cexpRowP 640) := by
  decide

/-- The host's numbering: one 32-bit word, bit 0 least significant. -/
theorem test_decode_table_word :
    decodeTableWord 32 0x11000005 = some (.dctCol 5) ∧ decodeTableWord 32 0x11000008 = none := by
  decide

/-- R89, R90 and V5.2. -/
theorem test_assemble :
    assembleLine "DCT_COL 4" = some [0x11000004] ∧ assembleLine "DCT_FWD" = some [0x12000000] ∧
    assembleLine "CMAP_PUBLISH 16" = some [0x20000010] ∧
    assembleLine "CEXP_PIX 0x1234" = some [0x22001234] ∧
    assembleLine "CEXP_ROW.P 65535" = some [0x2380FFFF] ∧
    assembleLine "DCT_PASS1" = some [0x10000000, 0x10000001, 0x10000002, 0x10000003, 0x10000004,
      0x10000005, 0x10000006, 0x10000007] ∧
    assembleLine "DCT_ROW 8" = none ∧
    assembleLine "DCT_COL 0x4  " = some [0x11000004] ∧ assembleLine "DCT_PASS1 1" = none := by decide +kernel

/-! ### Arithmetic -/

/-- V2.1: exact halves go up, for both signs. -/
theorem test_descale :
    [descale 1024 11, descale (-1024) 11, descale (-1025) 11, descale (-3072) 11, descale (-3073) 11,
      descale (-7) 2, descale (-1) 1, descale 16384 15, descale (-16385) 15] =
    [1, 0, -1, -1, -2, -2, 0, 1, -1] := by decide

/-- V2.3: the two tables differ. -/
theorem test_row_stage_tables :
    dct1d .b8 (fix .trunc) .row ⟨127, 127, 127, 127, -128, -128, -128, -128⟩ =
      ⟨-16, 3697, 0, -1299, 0, 867, 0, -736⟩ ∧
    dct1d .b8 (fix .ref) .row ⟨127, 127, 127, 127, -128, -128, -128, -128⟩ =
      ⟨-16, 3697, 0, -1298, 0, 868, 0, -735⟩ := by decide

/-- V2.6: the column of V3.11 with `B = 12`, under both tables. -/
theorem test_column_stage_b12 :
    dct1d .b12 (fix .trunc) .col ⟨0, -32768, -32768, 0, 0, 32752, 32752, 0⟩ =
      ⟨-16, -64256, 0, 54483, 16, 36403, 0, -12777⟩ ∧
    dct1d .b12 (fix .ref) .col ⟨0, -32768, -32768, 0, 0, 32752, 32752, 0⟩ =
      ⟨-16, -64264, 0, 54471, 16, 36395, 0, -12785⟩ := by decide

/-! ### Small states -/

/-- The state an answer gives, or the reset state. -/
def stateOf : Host.Outcome State Fault Refusal → State
  | .next t => t
  | .fault f => nomatch f
  | .refused _ => State.reset

/-- Whether an answer is a refusal, and which. -/
def refusalOf : Host.Outcome State Fault Refusal → Option Refusal
  | .next _ => none
  | .fault f => nomatch f
  | .refused r => some r

/-- DCT unit 0 of a state. -/
def dctu0 (s : State) : Dctu := (s.dctus[0]?).getD Dctu.reset

/-- Colour-expansion unit 0 of a state. -/
def cexu0 (s : State) : Cexu := (s.cexus[0]?).getD Cexu.reset

/-- A block given element by element; `none` is an element never written. -/
def blockOf (f : Fin 64 → Option Int) : Block where
  val := Vector.ofFn fun i => (f i).getD 0
  defd := Vector.ofFn fun i => (f i).isSome

/-- The reset state with the block `b` in DCT unit 0. -/
def withBlock (b : Block) : State := State.reset.setDctu 0 { Dctu.reset with blk := b }

/-- Only row `r` written. -/
def rowOnly (r : BitVec 3) (x : Vec8) : Block := Block.reset.writeLine .row r x

/-- Only column `c` written. -/
def columnOnly (c : BitVec 3) (x : Vec8) : Block := Block.reset.writeLine .col c x

/-- A line of DCT unit 0's block, with its defined-ness. -/
def lineOf (s : State) (st : Stage) (n : BitVec 3) : List (Option Int) :=
  eight.map fun k => (dctu0 s).blk.get (lineElement st n k)

/-- Colormap K of 95_test_vectors.md section 4. -/
def colormapK : Colormap where
  r := [(0, 255), (1, 0), (2, 0), (3, 10)]
  g := [(0, 0), (1, 255), (2, 0), (3, 20)]
  b := [(0, 0), (1, 0), (2, 255), (3, 30)]

/-- Colormap K written and not yet published. -/
def openK : State := { State.reset with cmap := colormapK }

/-- Colormap K published, the row `idx` written. -/
def frozenK (idx : Memory) : State :=
  { State.reset with cmap := colormapK, cmapLen := 4, cmapFrozen := true }.setCexu 0
    { Cexu.reset with idx := idx }

/-- The bytes `RGB[0 … n-1]` of colour-expansion unit 0. -/
def rgbOf (s : State) (n : Nat) : List (Option Byte) :=
  (List.range n).map fun k => (cexu0 s).rgb.read k

/-! ### The DCT unit -/

/-- R112's worked example; V2.2. -/
theorem test_dct_row :
    lineOf (stateOf (exec (.dctRow 3) (withBlock (rowOnly 3 ⟨1, 0, 0, 0, 0, 0, 0, 0⟩)))) .row 3 =
      [some 4, some 6, some 5, some 5, some 4, some 3, some 2, some 1] := by decide +kernel

/-- V2.2's second row, not touching row 1 (never written). -/
theorem test_dct_row_other_row :
    let t := stateOf (exec (.dctRow 0) (withBlock (rowOnly 0 ⟨52, 55, 61, 66, 70, 61, 64, 73⟩)))
    lineOf t .row 0 = [some 2008, some (-163), some (-64), some (-76), some 80, some (-35), some (-8),
      some 27] ∧ lineOf t .row 1 = List.replicate 8 none := by decide +kernel

/-- V2.5. -/
theorem test_dct_col :
    lineOf (stateOf (exec (.dctCol 7) (withBlock (columnOnly 7 ⟨4, -3, 2, 5, -1, 0, 7, -6⟩)))) .col 7 =
      [some 2, some 1, some (-2), some 2, some (-1), some 7, some (-1), some 1] := by decide +kernel

/-- R113: a value of `DOM_I` just outside it is refused. -/
theorem test_dct_col_domain :
    refusalOf (exec (.dctCol 0) (withBlock (columnOnly 0 ⟨4097, 0, 0, 0, 0, 0, 0, 0⟩))) =
      some .outsideDomain := by decide +kernel

/-- The unit impulse (V3.2). -/
def impulse : Block := blockOf fun i => some (if i = 0 then 1 else 0)

/-- V3.2, row 0 and column 1 of the result. -/
theorem test_dct_fwd_s :
    let t := stateOf (exec .dctFwdS (withBlock impulse))
    lineOf t .row 0 = [1, 2, 1, 1, 1, 1, 1, 0].map some ∧
      lineOf t .col 1 = [2, 2, 2, 2, 2, 1, 1, 0].map some := by decide +kernel

/-- V3.2 again, by lanes. -/
theorem test_dct_fwd_p :
    let t := stateOf (exec .dctFwdP (withBlock impulse))
    lineOf t .row 1 = [1, 2, 2, 2, 1, 1, 1, 0].map some ∧
      lineOf t .row 6 = [1, 1, 1, 1, 1, 0, 0, 0].map some := by decide +kernel

/-- U3: from reset no element is defined. -/
theorem test_dct_fwd_after_reset : refusalOf (exec .dctFwdS State.reset) = some .undefinedElement := by
  decide +kernel

/-- Program P5: a block with `BLK(0,0) = 8128` is outside `DOM_S`. -/
theorem test_dct_fwd_twice :
    refusalOf (exec .dctFwdP (withBlock (blockOf fun i => some (if i = 0 then 8128 else 0)))) =
      some .outsideDomain := by decide +kernel

/-! ### The colour-expansion unit -/

/-- R141's worked example. -/
theorem test_publish : (stateOf (exec (.cmapPublish 4) openK)).cmapStatus = 0x00010004 := by decide

/-- V4.7: entry 4 was never written. -/
theorem test_publish_unpopulated :
    refusalOf (exec (.cmapPublish 5) openK) = some .colormapNotPopulated := by decide

/-- R142's worked example. -/
theorem test_release : (stateOf (exec .cmapRelease (frozenK []))).cmapStatus = 0x00000004 := by decide

/-- V4.7: nothing to release after reset. -/
theorem test_release_after_reset : refusalOf (exec .cmapRelease State.reset) = some .colormapOpen := by
  decide

/-- R143's worked example. -/
theorem test_cexp_pix :
    (rgbOf (stateOf (exec (.cexpPix 5) (frozenK [(5, 2)]))) 18).drop 14 =
      [none, some 0, some 0, some 255] := by decide +kernel

/-- V4.7: an index that is not below `CMAP_LEN`. -/
theorem test_cexp_pix_index :
    refusalOf (exec (.cexpPix 1) (frozenK [(0, 0), (1, 4), (2, 1)])) = some .paletteIndex := by decide

/-- R144's worked example (V4.1). -/
theorem test_cexp_row_s :
    rgbOf (stateOf (exec (.cexpRowS 4) (frozenK [(0, 3), (1, 0), (2, 3), (3, 1)]))) 13 =
      [10, 20, 30, 255, 0, 0, 10, 20, 30, 0, 255, 0].map some ++ [none] := by decide +kernel

/-- V4.7: a bad index beyond the row is not read. -/
theorem test_cexp_row_s_tail :
    rgbOf (stateOf (exec (.cexpRowS 1) (frozenK [(0, 0), (1, 4), (2, 1)]))) 4 =
      [some 255, some 0, some 0, none] := by decide +kernel

/-- V4.1, repeated indices, by lanes (one group of 8 lanes, three of them inactive). -/
theorem test_cexp_row_p :
    rgbOf (stateOf (exec (.cexpRowP 5) (frozenK [(0, 2), (1, 2), (2, 2), (3, 2), (4, 2)]))) 16 =
      [0, 0, 255, 0, 0, 255, 0, 0, 255, 0, 0, 255, 0, 0, 255].map some ++ [none] := by decide +kernel

/-- V4.7: one bad index refuses the whole row. -/
theorem test_cexp_row_p_index :
    refusalOf (exec (.cexpRowP 3) (frozenK [(0, 0), (1, 4), (2, 1)])) = some .paletteIndex := by decide

/-- V4.2: the empty row changes nothing, with `IDX` and `RGB` never written. -/
theorem test_empty_row :
    exec (.cexpRowS 0) (frozenK []) = .next (frozenK []) ∧
      exec (.cexpRowP 0) (frozenK []) = .next (frozenK []) := ⟨rfl, rfl⟩

/-! ### Host primitives and the step -/

/-- R54: the smallest 32-bit element is stored and read back. -/
theorem test_host_blk :
    (stateOf (hostRdBlk 63 (stateOf (hostWrBlk 63 (-2147483648) State.reset)))).replies =
      [.elem (-2147483648)] := by decide +kernel

/-- V4.7: a colormap write while frozen; a value outside 0..255. -/
theorem test_host_refusals :
    refusalOf (hostWrCmap .g 1 7 (frozenK [])) = some .colormapFrozen ∧
    refusalOf (hostWrIdx 0 256 State.reset) = some .elementValue ∧
    refusalOf (hostRdRgb 0 State.reset) = some .undefinedElement := by decide

/-- V4.7: the first command after reset, `CMAP_PUBLISH 0`. -/
theorem test_step_publish_empty :
    (stateOf (step (State.reset.withFetchWord 32 0x20000000))).cmapStatus = 0x00010000 := by decide

/-- R28, R54: `HostRdCSR`. -/
theorem test_step_csr :
    (stateOf (step { frozenK [] with inputs := [.host 0 .rdCsr] })).replies = [.status 0x00010004] := by
  decide

/-! ### Witnesses: states and operands that meet an obligation's hypotheses -/

theorem blockOf_get (f : Fin 64 → Option Int) (i : Fin 64) : (blockOf f).get i = f i := by
  simp only [Block.get, blockOf, Fin.getElem_fin, Vector.getElem_ofFn]
  cases f i <;> rfl

theorem ready_blockOf {p : Precision} {f : Fin 64 → Int} (h : ∀ i, inDomS p (f i) = true) :
    BlockReady p (blockOf fun i => some (f i)) := fun i => ⟨f i, blockOf_get _ i, h i⟩

theorem not_ready_reset (p : Precision) : ¬BlockReady p Block.reset := fun h => by
  obtain ⟨v, hv, -⟩ := h 0
  cases hv

/-- The DCT unit of `withBlock`. -/
def holder (b : Block) : Dctu := { Dctu.reset with blk := b }

theorem at_withBlock (b : Block) : AtDctu (withBlock b) (holder b) := rfl

theorem lineIs_rowOnly (r : BitVec 3) (x : Vec8) : LineIs (rowOnly r x) .row r x := fun _ =>
  Block.writeLine_get_own ..

theorem lineIs_columnOnly (c : BitVec 3) (x : Vec8) : LineIs (columnOnly c x) .col c x := fun _ =>
  Block.writeLine_get_own ..

/-- The colour-expansion unit of `frozenK`. -/
def rowHolder (idx : Memory) : Cexu := { Cexu.reset with idx := idx }

theorem at_frozenK (idx : Memory) : AtCexu (frozenK idx) (rowHolder idx) := rfl

theorem dctu_at_reset : AtDctu State.reset Dctu.reset := rfl

theorem cexu_at_reset : AtCexu State.reset Cexu.reset := rfl

theorem populatedK : Populated colormapK 4 := (entriesDefined_iff _ _).mp (by decide)

/-- Four valid indices, one of them repeated. -/
def row4 : Memory := [(0, 3), (1, 0), (2, 3), (3, 1)]

/-- Every configuration field at its default but `MAX_ROW`. -/
def shortRows (n : BitVec 16) : Config := { Config.default with maxRow := n }

theorem elements_reset (w : Nat) (i : Fin 64) : inElem w Block.reset.val[i] = true := by
  rw [inElem_iff]
  have h : Block.reset.val[i] = 0 := by simp [Block.reset]
  rw [h]
  have h2 : (0 : Int) < 2 ^ (w - 1) := by positivity
  omega

theorem row_ready_4 : RowReady (frozenK row4) (rowHolder row4) 4 :=
  ⟨by decide, fun p hp => by
    interval_cases p <;> exact ⟨by decide, _, rfl, by decide⟩⟩

theorem dctuOk_reset (s : State) : DctuOk s Dctu.reset := ⟨elements_reset _, trivial⟩

theorem inv_frozenK : (frozenK row4).Inv where
  dctuCount := rfl
  cexuCount := rfl
  len := by decide
  colormap ch := by cases ch <;> exact ⟨by decide, by decide⟩
  frozen _ := populatedK
  dctus u hu := by
    have h : u = Dctu.reset := List.mem_singleton.mp (show u ∈ [Dctu.reset] from hu)
    subst h
    exact dctuOk_reset _
  cexus u hu := by
    have h : u = rowHolder row4 := List.mem_singleton.mp (show u ∈ [rowHolder row4] from hu)
    subst h
    exact ⟨⟨by decide, by decide⟩, ⟨by decide, by decide⟩, trivial⟩

/-! #### Encoding -/

theorem witness_DecodeOfEncode : Instr.wellFormed (.cmapPublish 256) = true := by decide

theorem witness_EncodeOfDecode : decode 0x20000100 = .ok (.cmapPublish 256) := by decide

theorem witness_DecodeSelectsTheTableRow :
    ∃ row ∈ opcodeTable, row.selects 0x20000100 = true ∧ row.mnemonic = "CMAP_PUBLISH" ∧
      (BitVec.extractLsb' 0 9 (0x20000100 : Word)).toNat ≤ 256 := by decide

theorem witness_ReservedWordsAreRefused :
    ({ State.reset with inputs := [.host 0 (.issue 0x20000101)] } : State).inputs =
      .host 0 (.issue 0x20000101) :: [] ∧ decode 0x20000101 = .error .publishLength :=
  ⟨rfl, by decide⟩

/-- Each way an operand's value can break a precondition, at its boundary. -/
theorem witness_OperandValueIsNoReservedEncoding :
    State.reset.cmapFrozen = false ∧
    ((frozenK []).cmapFrozen = true ∧ (frozenK []).cfg.maxRow.toNat ≤ (65535 : BitVec 16).toNat) ∧
    ({ frozenK [] with cfg := shortRows 1024 } : State).cfg.maxRow.toNat <
      (1025 : BitVec 16).toNat ∧ (256 : BitVec 9).toNat ≤ 256 := by decide

/-! #### The step -/

theorem witness_StepRunsTheIssuedOperation :
    ({ State.reset with inputs := [.host 0 (.issue 0x20000000)] } : State).inputs =
      .host 0 (.issue 0x20000000) :: [] ∧ decode 0x20000000 = .ok (.cmapPublish 0) ∧
      Instr.wellFormed (.cmapPublish 0) = true ∧
    IdleAt State.reset (unitOf (.cmapPublish 0)) State.reset.port ∧
    ∃ s', settle (some .cexu) State.reset = .ok s' :=
  ⟨rfl, by decide, by decide, fun u hu => by cases hu; rfl, _, rfl⟩

theorem witness_IdleStepHoldsTheState : State.reset.inputs = [] := rfl

theorem witness_ResetFromAnyState :
    ({ frozenK row4 with inputs := [.reset, .host 0 .rdCsr] } : State).inputs =
      .reset :: [.host 0 .rdCsr] := rfl

/-- A step of a legal state, `CEXP_PIX 3` under colormap K. -/
theorem witness_StepKeepsTheStateInvariant :
    (frozenK row4).Inv ∧
      ({ frozenK row4 with inputs := [.host 0 (.issue 0x22000003)] } : State).Inv ∧
      ∃ t, step { frozenK row4 with inputs := [.host 0 (.issue 0x22000003)] } = .next t :=
  ⟨inv_frozenK, ⟨rfl, rfl, inv_frozenK.len, inv_frozenK.colormap, inv_frozenK.frozen,
    fun u hu => ⟨(inv_frozenK.dctus u hu).elements, (inv_frozenK.dctus u hu).progress⟩,
    fun u hu => ⟨(inv_frozenK.cexus u hu).idx, (inv_frozenK.cexus u hu).rgb,
      (inv_frozenK.cexus u hu).progress⟩⟩, _, rfl⟩

theorem witness_StepNeverWritesTheParameters : ∃ s t : State, step s = .next t ∧ s.inputs ≠ [] :=
  ⟨State.reset.withFetchWord 32 0x20000000, _, rfl, by decide⟩

theorem witness_OperationCompletesExactlyInContract :
    (frozenK row4).Inv ∧ InContract (frozenK row4) (.cexpRowS 4) ∧
      ¬InContract (frozenK row4) (.dctRow 0) :=
  ⟨inv_frozenK, ⟨_, at_frozenK _, rfl, row_ready_4⟩, fun ⟨u, hu, x, hx, _⟩ => by
    cases hu
    cases hx 0⟩

/-! #### Arithmetic -/

theorem witness_DescaleIsTheBiasedFloor :
    (1 : Nat) ≤ 1 ∧ (2 : Int) ^ 1 * 1 ≤ 1 + 2 ^ (1 - 1) ∧ (1 : Int) + 2 ^ (1 - 1) < 2 ^ 1 * (1 + 1) := by
  decide

theorem witness_DescaleRoundsHalvesUp :
    (1 : Nat) ≤ 11 ∧ (-3072 : Int) = (2 * (-2) + 1) * 2 ^ (11 - 1) := by decide

/-- The ends of `DOM_S` and of `DOM_I`, in both configurations. -/
theorem lines_at_the_ends :
    LineInDomain .b8 .row ⟨127, -128, 127, -128, 127, -128, 127, -128⟩ ∧
    LineInDomain .b12 .row ⟨2047, -2048, 2047, -2048, 2047, -2048, 2047, -2048⟩ ∧
    LineInDomain .b8 .col ⟨4096, -4096, 4096, -4096, 4096, -4096, 4096, -4096⟩ ∧
    LineInDomain .b12 .col ⟨32768, -32768, 32768, -32768, 32768, -32768, 32768, -32768⟩ := by
  simp only [LineInDomain]
  decide

theorem witness_RowStageStaysInTheIntermediateDomain :
    LineInDomain .b8 .row ⟨127, -128, 127, -128, 127, -128, 127, -128⟩ := lines_at_the_ends.1

theorem witness_ColumnStageFitsTheElement :
    LineInDomain .b12 .col ⟨32768, -32768, 32768, -32768, 32768, -32768, 32768, -32768⟩ ∧
      Precision.minElemWidth .b12 ≤ 19 := ⟨lines_at_the_ends.2.2.2, by decide⟩

theorem saturateAcc_fits (w : Nat) (v : Int) (h : fitsAcc w v) : saturateAcc w v = v := by
  obtain ⟨h1, h2⟩ := h
  rw [saturateAcc, min_eq_left h2, max_eq_right h1]

theorem witness_ThirtyBitDatapathIsExactAtEightBits :
    (∀ v, fitsAcc 30 v → saturateAcc 30 v = v) ∧
      LineInDomain .b8 .col ⟨4096, -4096, 4096, -4096, 4096, -4096, 4096, -4096⟩ :=
  ⟨saturateAcc_fits 30, lines_at_the_ends.2.2.1⟩

theorem witness_ThirtyThreeBitDatapathIsExactAtTwelveBits :
    (∀ v, fitsAcc 33 v → saturateAcc 33 v = v) ∧
      LineInDomain .b12 .col ⟨32768, -32768, 32768, -32768, 32768, -32768, 32768, -32768⟩ :=
  ⟨saturateAcc_fits 33, lines_at_the_ends.2.2.2⟩

theorem witness_WrappingThirtyTwoBitDatapathIsExactAtTwelveBits :
    LineInDomain .b12 .col ⟨0, -32768, -32768, 0, 0, 32752, 32752, 0⟩ := by
  simp only [LineInDomain]
  decide

/-! #### The DCT unit -/

/-- A line in contract of each stage, an undefined line, and a line just outside its domain. -/
theorem witness_DctLineResult :
    (∃ s u x, AtDctu s u ∧ LineIs u.blk .row 7 x ∧ LineInDomain s.cfg.precision .row x) ∧
    (∃ s u x, AtDctu s u ∧ LineIs u.blk .col 7 x ∧ LineInDomain s.cfg.precision .col x) ∧
    (∃ s u, AtDctu s u ∧ u.blk.get (lineElement .row 7 0) = none) ∧
    ∃ s u v, AtDctu s u ∧ u.blk.get (lineElement .row 7 0) = some v ∧
      inDomain s.cfg.precision .row v = false :=
  ⟨⟨_, _, _, at_withBlock _, lineIs_rowOnly 7 ⟨127, -128, 127, -128, 127, -128, 127, -128⟩,
      lines_at_the_ends.1⟩,
    ⟨_, _, _, at_withBlock _,
      lineIs_columnOnly 7 ⟨4096, -4096, 4096, -4096, 4096, -4096, 4096, -4096⟩,
      lines_at_the_ends.2.2.1⟩,
    ⟨_, _, dctu_at_reset, rfl⟩,
    _, _, _, at_withBlock _, lineIs_rowOnly 7 ⟨128, 0, 0, 0, 0, 0, 0, 0⟩ 0, by decide⟩

/-- A block of 64 samples at an end of `DOM_S`. -/
def flat (v : Int) : Block := blockOf fun _ => some v

theorem ready_flat : BlockReady .b8 (flat (-128)) := ready_blockOf fun _ => by decide

theorem witness_DctForwardResult :
    (∃ s u, AtDctu s u ∧ BlockReady s.cfg.precision u.blk) ∧
      ∃ s u, AtDctu s u ∧ ¬BlockReady s.cfg.precision u.blk :=
  ⟨⟨_, _, at_withBlock (flat (-128)), ready_flat⟩, _, _, dctu_at_reset, not_ready_reset _⟩

/-- P2's second order of the rows and columns. -/
theorem witness_ForwardDecomposesInAnyOrder :
    AtDctu (withBlock (flat (-128))) (holder (flat (-128))) ∧
      BlockReady .b8 (holder (flat (-128))).blk ∧
      ([7, 3, 0, 5, 1, 6, 2, 4] : List (BitVec 3)).Perm eightLines ∧
      ([1, 0, 7, 6, 5, 4, 3, 2] : List (BitVec 3)).Perm eightLines :=
  ⟨at_withBlock _, ready_flat, by decide, by decide⟩

theorem witness_ForwardInPiecesIsTheAtomicOperation :
    AtDctu (withBlock (flat (-128))) (holder (flat (-128))) ∧
      (holder (flat (-128))).progress = .idle ∧
      BlockReady (withBlock (flat (-128))).cfg.precision (holder (flat (-128))).blk ∧
      ([7, 3, 0, 5, 1, 6, 2, 4] : List (BitVec 3)).Perm eightLines :=
  ⟨at_withBlock _, rfl, ready_flat, by decide⟩

/-- V3.9: two unit impulses and `2X + 2Y`. -/
theorem witness_ForwardIsLinearUpToRounding :
    ∃ X Y Z : Fin 64 → Int, (∀ k, Z k = 2 * X k + 2 * Y k) ∧ X 0 = 1 ∧ Y 1 = 1 ∧
      BlockReady .b8 (blockOf fun i => some (X i)) ∧ BlockReady .b8 (blockOf fun i => some (Y i)) ∧
      BlockReady .b8 (blockOf fun i => some (Z i)) ∧
      AtDctu (withBlock (blockOf fun i => some (X i))) (holder (blockOf fun i => some (X i))) ∧
      AtDctu (withBlock (blockOf fun i => some (Y i))) (holder (blockOf fun i => some (Y i))) ∧
      AtDctu (withBlock (blockOf fun i => some (Z i))) (holder (blockOf fun i => some (Z i))) ∧
      ∀ k : Fin 64, (blockOf fun i => some (Z i)).val[k] =
        2 * (blockOf fun i => some (X i)).val[k] + 2 * (blockOf fun i => some (Y i)).val[k] := by
  refine ⟨fun k => if k = 0 then 1 else 0, fun k => if k = 1 then 1 else 0,
    fun k => if k = 0 ∨ k = 1 then 2 else 0, by decide, rfl, rfl, ready_blockOf (by decide),
    ready_blockOf (by decide), ready_blockOf (by decide), at_withBlock _, at_withBlock _,
    at_withBlock _, fun k => ?_⟩
  simp only [blockOf, Fin.getElem_fin, Vector.getElem_ofFn, Option.getD_some]
  revert k
  decide

/-- A `DCT_FWD` of 64 equal samples that completes. -/
theorem witness_ForwardDcIsTheSum :
    ∃ t u', AtDctu (withBlock (flat (-128))) (holder (flat (-128))) ∧
      BlockReady .b8 (holder (flat (-128))).blk ∧ exec .dctFwdS (withBlock (flat (-128))) = .next t ∧
      t.dctus[0]? = some u' ∧ ∀ i : Fin 64, (holder (flat (-128))).blk.val[i] = -128 := by
  refine ⟨_, { holder (flat (-128)) with
    blk := forwardScalar Config.default (flat (-128)) }, at_withBlock _, ready_flat,
    dctForward_next.mpr ⟨_, at_withBlock _, ready_flat, rfl⟩, rfl, fun i => ?_⟩
  simp [holder, flat, blockOf]

theorem witness_DctFrame :
    unitOf .dctFwdS = .dctu ∧ ∃ t, exec .dctFwdS (withBlock (flat (-128))) = .next t :=
  ⟨rfl, _, dctForward_next.mpr ⟨_, at_withBlock _, ready_flat, rfl⟩⟩

/-! #### The colour-expansion unit -/

/-- A channel with all 256 entries written. -/
def fullChannel : Memory := (List.range 256).map fun i => (i, BitVec.ofNat 8 i)

theorem populated_full : Populated ⟨fullChannel, fullChannel, fullChannel⟩ 256 :=
  (entriesDefined_iff _ _).mp (by decide +kernel)

/-- The lengths 0 and 256; published already; entry 4 missing. -/
theorem witness_PublishResult :
    (AtCexu State.reset Cexu.reset ∧ State.reset.anyExpanding = false ∧
      State.reset.cmapFrozen = false ∧ Populated State.reset.cmap (0 : BitVec 9).toNat) ∧
    (∃ s u, AtCexu s u ∧ s.anyExpanding = false ∧ s.cmapFrozen = false ∧
      Populated s.cmap (256 : BitVec 9).toNat) ∧
    (frozenK []).cmapFrozen = true ∧ ¬Populated openK.cmap (5 : BitVec 9).toNat :=
  ⟨⟨cexu_at_reset, rfl, rfl, fun i hi => absurd hi (by simp)⟩,
    ⟨{ State.reset with cmap := ⟨fullChannel, fullChannel, fullChannel⟩ }, Cexu.reset, rfl, rfl, rfl, populated_full⟩, rfl, fun h => by
    obtain ⟨v, hv⟩ := h 4 (by decide) .r
    cases hv⟩

/-- Two replicas of each unit; colour-expansion unit 1 is half-way through a row of two positions, and
DCT unit 1 half-way through the columns of a block of zeros. -/
def expanding : State :=
  { State.resetOf { Config.default with numUnits := 2, numUnits_admitted := by decide } with
    cmap := colormapK
    cmapLen := 4
    cmapFrozen := true
    dctus := [Dctu.reset,
      { blk := blockOf fun _ => some 0, progress := .forward .col [7, 2, 0, 1] }]
    cexus := [Cexu.reset,
      { idx := [(0, 3), (1, 0)], rgb := [(0, 10), (1, 20), (2, 30)], progress := .row 2 [0] }] }

/-- A state with operations in progress is legal too. -/
theorem inv_expanding : expanding.Inv where
  dctuCount := rfl
  cexuCount := rfl
  len := by decide
  colormap ch := by cases ch <;> exact ⟨by decide, by decide⟩
  frozen _ := populatedK
  dctus u hu := by
    simp only [expanding, List.mem_cons, List.not_mem_nil, or_false] at hu
    rcases hu with rfl | rfl
    · exact dctuOk_reset _
    · refine ⟨fun i => ?_, by decide, by decide, fun n _ => ⟨⟨0, 0, 0, 0, 0, 0, 0, 0⟩, fun k => ?_, ?_⟩⟩
      · have h : (blockOf fun _ => some 0).val[i] = 0 := by simp [blockOf]
        rw [h]
        decide
      · rw [blockOf_get]
        revert k
        decide
      · simp only [LineInDomain]
        decide
  cexus u hu := by
    simp only [expanding, List.mem_cons, List.not_mem_nil, or_false] at hu
    rcases hu with rfl | rfl
    · exact ⟨⟨by decide, by decide⟩, ⟨by decide, by decide⟩, trivial⟩
    · refine ⟨⟨by decide, by decide⟩, ⟨by decide, by decide⟩, by decide,
        by decide, by decide, rfl, by decide, fun p hp => ?_⟩
      have hp : p < 2 := hp
      interval_cases p <;> exact ⟨by decide, _, rfl, by decide⟩

theorem witness_ReleaseResult :
    (AtCexu (frozenK []) (rowHolder []) ∧ (frozenK []).anyExpanding = false ∧
      (frozenK []).cmapFrozen = true) ∧
    (AtCexu State.reset Cexu.reset ∧ State.reset.cmapFrozen = false) ∧
    AtCexu expanding Cexu.reset ∧ expanding.anyExpanding = true ∧ expanding.cmapFrozen = true :=
  ⟨⟨at_frozenK _, rfl, rfl⟩, ⟨cexu_at_reset, rfl⟩, rfl, rfl, rfl⟩

theorem witness_StatusWordLayout : AtCexu State.reset Cexu.reset := cexu_at_reset

/-- The last position of a short row buffer and the last valid index. -/
theorem witness_ExpandPixelResult :
    ∃ (s : State) (u : Cexu), AtCexu s u ∧ s.cmapFrozen = true ∧
      (3 : BitVec 16).toNat < s.cfg.maxRow.toNat ∧ s.cfg.maxRow = 4 ∧ u.idx.read 3 = some 3 ∧
      (3 : Byte).toNat < s.cmapLen.toNat ∧ s.cmap.r.read 3 = some 10 ∧ s.cmap.g.read 3 = some 20 ∧
      s.cmap.b.read 3 = some 30 :=
  ⟨{ frozenK [(3, 3)] with cfg := shortRows 4 }, rowHolder [(3, 3)], rfl, rfl, by decide, rfl,
    rfl, by decide, rfl, rfl, rfl⟩

theorem row_ready_0 (s : State) (u : Cexu) : RowReady s u (0 : BitVec 16).toNat :=
  ⟨Nat.zero_le _, fun p hp => absurd hp (by simp)⟩

/-- The empty row, four positions of the default buffer, and a row that fills its buffer. -/
theorem witness_ExpandRowResult :
    (frozenK row4).Inv ∧ AtCexu (frozenK row4) (rowHolder row4) ∧ (frozenK row4).cmapFrozen = true ∧
      RowReady (frozenK row4) (rowHolder row4) (0 : BitVec 16).toNat ∧
      RowReady (frozenK row4) (rowHolder row4) (4 : BitVec 16).toNat ∧
      RowReady { frozenK row4 with cfg := shortRows 4 } (rowHolder row4) (4 : BitVec 16).toNat :=
  ⟨inv_frozenK, at_frozenK _, rfl, row_ready_0 _ _, row_ready_4, by decide, fun p hp => by
    have hp : p < 4 := hp
    interval_cases p <;> exact ⟨by decide, _, rfl, by decide⟩⟩

theorem witness_RowDecomposesInAnyOrder :
    (frozenK row4).Inv ∧ AtCexu (frozenK row4) (rowHolder row4) ∧
      RowReady (frozenK row4) (rowHolder row4) (4 : BitVec 16).toNat ∧
      (([2, 0, 3, 1] : List (BitVec 16)).map BitVec.toNat).Perm (List.range (4 : BitVec 16).toNat) :=
  ⟨inv_frozenK, at_frozenK _, row_ready_4, by decide⟩

theorem witness_RowInPiecesIsTheAtomicOperation :
    (frozenK row4).Inv ∧ AtCexu (frozenK row4) (rowHolder row4) ∧ (rowHolder row4).progress = .idle ∧
      RowReady (frozenK row4) (rowHolder row4) (4 : BitVec 16).toNat ∧
      ([2, 0, 3, 1] : List Nat).Perm (List.range (4 : BitVec 16).toNat) :=
  ⟨inv_frozenK, at_frozenK _, rfl, row_ready_4, by decide⟩

theorem witness_ExpansionIsIdempotent :
    (frozenK row4).Inv ∧ isExpansion (.cexpRowP 4) = true ∧
      ∃ t, exec (.cexpRowP 4) (frozenK row4) = .next t := ⟨inv_frozenK, rfl, _, rfl⟩

/-- An index equal to `CMAP_LEN`, and one never written. -/
theorem witness_InvalidIndexRefuses :
    (AtCexu (frozenK [(0, 0), (1, 4)]) (rowHolder [(0, 0), (1, 4)]) ∧
      (1 : BitVec 16).toNat < (2 : BitVec 16).toNat ∧
      ∀ ix : Byte, (rowHolder [(0, 0), (1, 4)]).idx.read 1 = some ix →
        (frozenK [(0, 0), (1, 4)]).cmapLen.toNat ≤ ix.toNat) ∧
    (rowHolder [(0, 0)]).idx.read 1 = none :=
  ⟨⟨at_frozenK _, by decide, fun ix h => by
    cases h
    decide⟩, rfl⟩

theorem witness_ExpansionFrame :
    isExpansion (.cexpPix 3) = true ∧ isExpansion (.cexpRowS 4) = true ∧
      (∃ t, exec (.cexpPix 3) (frozenK row4) = .next t) ∧
      ∃ t, exec (.cexpRowS 4) (frozenK row4) = .next t := ⟨rfl, rfl, ⟨_, rfl⟩, _, rfl⟩

/-! #### The whole block -/

/-- Colormap K frozen, a row written, and `BLK` row 0 written: P4's two units. -/
def both : State :=
  (frozenK row4).setDctu 0 (holder (rowOnly 0 ⟨2, 2, 0, 0, 0, 0, 0, 0⟩))

/-- Two operations; and a host access to one unit while the other is in the middle of an operation. -/
theorem witness_UnitsCommute :
    (unitOf (.dctRow 0) = .dctu ∧ unitOf (.cexpPix 1) = .cexu ∧
      ∃ t, runAll [.dctRow 0, .cexpPix 1] both = .next t) ∧
    Event.unit (.work .dctu 1 3) = some .dctu ∧ Event.unit (.host 1 (.wrIdx 5 9)) = some .cexu ∧
    ∃ t, performAll [.work .dctu 1 3, .host 1 (.wrIdx 5 9)] expanding = .next t :=
  ⟨⟨rfl, rfl, _, rfl⟩, rfl, rfl, _, rfl⟩

/-- Two idle replicas under colormap K, each with a row. -/
def twoRows : State :=
  { State.resetOf { Config.default with numUnits := 2, numUnits_admitted := by decide } with
    cmap := colormapK
    cmapLen := 4
    cmapFrozen := true
    cexus := [rowHolder row4, rowHolder row4] }

theorem witness_ReplicasCommute :
    (0 : Nat) ≠ 1 ∧ isExpansion (.cexpPix 0) = true ∧ isExpansion (.cexpRowS 4) = true ∧
      ∃ t, performAll [.host 0 (.issue (encode (.cexpPix 0))), .host 1 (.issue (encode (.cexpRowS 4)))]
        twoRows = .next t := ⟨by decide, rfl, rfl, _, rfl⟩

theorem witness_WhoWritesWhat :
    ({ frozenK row4 with inputs := [.host 0 (.issue (encode (.cexpRowS 4)))] } : State).inputs =
      .host 0 (.issue (encode (.cexpRowS 4))) :: [] ∧
    Event.host 0 (.issue (encode (.cexpRowS 4))) ≠ .reset ∧
    ∃ t, step { frozenK row4 with inputs := [.host 0 (.issue (encode (.cexpRowS 4)))] } = .next t :=
  ⟨rfl, by decide, _, rfl⟩

theorem witness_FrozenColormapDoesNotChange :
    ({ frozenK row4 with inputs := [.host 0 (.wrIdx 0 1)] } : State).cmapFrozen = true ∧
    Event.host 0 (.wrIdx 0 1) ≠ .reset ∧
    ∃ t, step { frozenK row4 with inputs := [.host 0 (.wrIdx 0 1)] } = .next t :=
  ⟨rfl, by decide, _, rfl⟩

theorem witness_ReadsHaveNoSideEffect :
    (∃ t, hostPrim .rdCsr State.reset = .next t) ∧ (∃ t, hostPrim (.rdIdx 3) (frozenK row4) = .next t) ∧
      (∃ t, hostPrim (.rdCmap .b 3) (frozenK row4) = .next t) ∧
      (∃ t, hostPrim (.rdBlk 0) (withBlock (flat (-128))) = .next t) ∧
      ∃ t, hostPrim (.rdRgb 0) (stateOf (exec (.cexpPix 0) (frozenK row4))) = .next t :=
  ⟨⟨_, rfl⟩, ⟨_, rfl⟩, ⟨_, rfl⟩, ⟨_, rfl⟩, _, rfl⟩

/-- The smallest and the largest 32-bit element; a defined element; the values and indices just
outside. -/
theorem witness_HostBlockAccess :
    (AtDctu (withBlock (flat (-128))) (holder (flat (-128))) ∧
      -(2 ^ ((withBlock (flat (-128))).cfg.wElem - 1)) ≤ (-2147483648 : Int) ∧
      (2147483647 : Int) ≤ 2 ^ ((withBlock (flat (-128))).cfg.wElem - 1) - 1 ∧
      (holder (flat (-128))).blk.get 63 = some (-128)) ∧
    (2 : Int) ^ (State.reset.cfg.wElem - 1) - 1 < 2147483648 ∧
    (-2147483649 : Int) < -(2 ^ (State.reset.cfg.wElem - 1)) ∧
    (64 : Nat) ≤ 64 ∧ Dctu.reset.blk.get 0 = none :=
  ⟨⟨at_withBlock _, by decide, by decide, blockOf_get _ _⟩, by decide, by decide, by decide, rfl⟩

theorem witness_HostColormapAccess :
    (AtCexu openK Cexu.reset ∧ (255 : Nat) ≤ 255 ∧ openK.cmapFrozen = false ∧
      openK.anyExpanding = false ∧ (openK.cmap.channel .b).read 3 = some 30) ∧
    (255 < 256 ∧ (frozenK []).cmapFrozen = true ∧ (openK.cmap.channel .b).read 4 = none) ∧
    AtCexu expanding Cexu.reset ∧ expanding.anyExpanding = true :=
  ⟨⟨rfl, by decide, rfl, rfl, rfl⟩, ⟨by decide, rfl, rfl⟩, rfl, rfl⟩

theorem witness_HostRowBufferAccess :
    (AtCexu (frozenK row4) (rowHolder row4) ∧ 65534 < (frozenK row4).cfg.maxRow.toNat ∧
      (frozenK row4).cfg.maxRow.toNat ≤ 65535 ∧ (rowHolder row4).idx.read 3 = some 1 ∧
      (rowHolder row4).idx.read 4 = none ∧ (rowHolder row4).rgb.read 0 = none ∧
      3 * (frozenK row4).cfg.maxRow.toNat ≤ 196605) ∧
    ∃ s u, AtCexu s u ∧ 196604 < 3 * s.cfg.maxRow.toNat ∧ u.rgb.read 196604 = some 7 :=
  ⟨⟨at_frozenK _, by decide, by decide, rfl, rfl, rfl, by decide⟩,
    State.reset.setCexu 0 { Cexu.reset with rgb := [(196604, 7)] },
    { Cexu.reset with rgb := [(196604, 7)] }, rfl, by decide, rfl⟩

theorem witness_ReadAfterWrite :
    (∃ t, performAll [.host 0 (.wrBlk 5 (-7)), .host 0 (.rdBlk 5)] State.reset = .next t) ∧
    (∃ t, performAll [.host 0 (.wrIdx 5 255), .host 0 (.rdIdx 5)] State.reset = .next t) ∧
    ∃ t, performAll [.host 0 (.wrCmap .g 255 255), .host 1 (.rdCmap .g 255)]
      { twoRows with cmapFrozen := false } = .next t := ⟨⟨_, rfl⟩, ⟨_, rfl⟩, _, rfl⟩

/-- Both units of replica 1 in the middle of an operation. -/
theorem witness_PrimitiveTakesEffectAfterTheOperation :
    expanding.Inv ∧ ¬IdleAt expanding .dctu 1 ∧ ¬IdleAt expanding .cexu 1 ∧
      HostPrim.unit (.rdBlk 0) = some .dctu ∧ HostPrim.unit .rdCsr = some .cexu ∧
      commandUnit 0x10000000 = some .dctu :=
  ⟨inv_expanding, (fun h => by cases h _ rfl), (fun h => by cases h _ rfl), rfl, rfl,
    by decide⟩

theorem witness_EveryPieceLeftCompletes :
    expanding.Inv ∧
    (∃ u, expanding.dctus[1]? = some u ∧ u.progress = .forward .col [7, 2, 0, 1] ∧
      3 ∉ ([7, 2, 0, 1] : List (BitVec 3))) ∧
    ∃ u, expanding.cexus[1]? = some u ∧ u.progress = .row 2 [0] ∧ 1 < (2 : BitVec 16).toNat ∧
      1 ∉ [0] :=
  ⟨inv_expanding, ⟨_, rfl, rfl, by decide⟩, _, rfl, rfl, by decide, by decide⟩

/-- The clause of a busy replica: `CEXP_PIX 1` issued at the unit that is half-way through a row, which is
complete (position 1 has its colour) in the state it runs on. -/
theorem witness_StepRunsTheIssuedOperation_busy :
    ({ expanding with inputs := [.host 1 (.issue 0x22000001)] } : State).inputs =
      .host 1 (.issue 0x22000001) :: [] ∧ decode 0x22000001 = .ok (.cexpPix 1) ∧
    ¬IdleAt expanding (unitOf (.cexpPix 1)) 1 ∧
    ∃ s', settle (some (unitOf (.cexpPix 1)))
        { ({ expanding with inputs := [.host 1 (.issue 0x22000001)] } : State) with
          inputs := [], port := 1 } = .ok s' ∧
      (s'.cexus[1]?).map (fun u => (u.progress, u.rgb.read 3)) = some (.idle, some 255) ∧
      ∃ t, step { expanding with inputs := [.host 1 (.issue 0x22000001)] } = .next t :=
  ⟨rfl, by decide, (fun h => by cases h _ rfl), _, rfl, by decide, _, rfl⟩

theorem witness_NoColormapWriteDuringAnExpansion :
    (1 : Nat) ≠ 0 ∧ ∃ u, expanding.cexus[1]? = some u ∧ u.progress ≠ .idle :=
  ⟨by decide, _, rfl, by decide⟩

/-- `CMAP_STATUS` read at the port of a unit in the middle of a row: the row is complete first (R175). -/
theorem test_read_after_row :
    let t := stateOf (perform (.host 1 .rdCsr) expanding)
    t.replies = [.status 0x00010004] ∧
      (t.cexus[1]?).map (fun u => (u.progress, u.rgb.read 3)) = some (.idle, some 255) := by decide

end Sys2Proof.Tests
end

section
/-! PROOFS. 00_scope.md: when an operation completes (R11), what the operations of the DCT unit leave
unchanged (R2), the bound of R6 and the shifts of R9. -/

namespace Sys2Proof.Machine

/-! ### When an operation completes (R11) -/

/-- `DCT_ROW` and `DCT_COL` (R112, R113). -/
theorem dctLine_completes {st : Stage} {n : BitVec 3} {s : State} :
    (∃ t, dctLine st n s = .next t) ↔ ∃ u, AtDctu s u ∧ LineReady s.cfg.precision st n u.blk := by
  constructor
  · rintro ⟨t, h⟩
    obtain ⟨u, hu, hr, -⟩ := dctLine_next.mp h
    exact ⟨u, hu, hr⟩
  · rintro ⟨u, hu, hr⟩
    exact ⟨_, dctLine_next.mpr ⟨u, hu, hr, rfl⟩⟩

/-- `DCT_FWD` by either strategy (R114, R117). -/
theorem dctForward_completes {run : Config → Block → Block} {s : State} :
    (∃ t, dctForward run s = .next t) ↔ ∃ u, AtDctu s u ∧ BlockReady s.cfg.precision u.blk := by
  constructor
  · rintro ⟨t, h⟩
    obtain ⟨u, hu, hr, -⟩ := dctForward_next.mp h
    exact ⟨u, hu, hr⟩
  · rintro ⟨u, hu, hr⟩
    exact ⟨_, dctForward_next.mpr ⟨u, hu, hr, rfl⟩⟩

theorem execCmapPublish_completes {len : BitVec 9} {s : State} :
    (∃ t, execCmapPublish len s = .next t) ↔ InContract s (.cmapPublish len) := by
  simp only [execCmapPublish_next, entriesDefined_iff, InContract]
  constructor
  · rintro ⟨t, hu, hx, hf, hl, hp, -⟩
    exact ⟨hu, hx, hf, hl, hp⟩
  · rintro ⟨hu, hx, hf, hl, hp⟩
    exact ⟨_, hu, hx, hf, hl, hp, rfl⟩

theorem execCmapRelease_completes {s : State} :
    (∃ t, execCmapRelease s = .next t) ↔ InContract s .cmapRelease := by
  simp only [execCmapRelease_next, InContract]
  constructor
  · rintro ⟨t, hu, hx, hf, -⟩
    exact ⟨hu, hx, hf⟩
  · rintro ⟨hu, hx, hf⟩
    exact ⟨_, hu, hx, hf, rfl⟩

/-- Over a populated colormap a position has a colour exactly when it is in contract. -/
theorem exists_pixel_iff {s : State} {u : Cexu} {p : Nat}
    (hm : Populated s.cmap s.cmapLen.toNat) :
    (∃ t, pixel s u p = .ok t) ↔ PositionReady s u p :=
  ⟨fun ⟨_, h⟩ => .of_pixel h, fun h => h.hasPixel hm⟩

/-- `requireRow` is R144's precondition, when a frozen colormap is populated (R150). -/
theorem requireRow_ok_iff_rowReady {s : State} {u : Cexu} {n : BitVec 16}
    (hm : s.cmapFrozen = true → Populated s.cmap s.cmapLen.toNat) :
    requireRow s u n = .ok () ↔ s.cmapFrozen = true ∧ RowReady s u n.toNat := by
  rw [requireRow_ok]
  refine and_congr_right fun hf => ?_
  simp only [exists_pixel_iff (hm hf), RowReady]

/-- A row whose precondition holds is expanded by the scalar strategy. -/
theorem expandScalar_isOk_of_requireRow {s : State} {u : Cexu} {n : BitVec 16}
    (h : requireRow s u n = .ok ()) (rgb : Memory) :
    ∃ rgb', expandScalar s u (List.range n.toNat) rgb = .ok rgb' := by
  obtain ⟨-, -, hp⟩ := requireRow_ok.mp h
  exact (expandScalar_isOk _ _).mpr fun p hr => hp p (List.mem_range.mp hr)

/-- On a row whose precondition holds the parallel strategy does what the scalar one does (R146). -/
theorem expandParallel_eq_of_requireRow {s : State} {u : Cexu} {n : BitVec 16}
    (h : requireRow s u n = .ok ()) (rgb : Memory) :
    expandParallel s u (cexGroups s.cfg.cexLanes n.toNat) rgb =
      expandScalar s u (List.range n.toNat) rgb := by
  obtain ⟨-, -, hp⟩ := requireRow_ok.mp h
  have hflat := cexGroups_flatten s.cfg.cexLanes n.toNat s.cfg.cexLanes_admitted
  rw [expandParallel_eq _ _ (by simpa [hflat] using hp), hflat]

theorem execCexpPix_completes {p : BitVec 16} {s : State}
    (hm : s.cmapFrozen = true → Populated s.cmap s.cmapLen.toNat) :
    (∃ t, execCexpPix p s = .next t) ↔ InContract s (.cexpPix p) := by
  simp only [execCexpPix_next, InContract]
  constructor
  · rintro ⟨t, u, c, hu, hf, hc, -⟩
    exact ⟨u, hu, hf, .of_pixel hc⟩
  · rintro ⟨u, hu, hf, hp⟩
    obtain ⟨c, hc⟩ := hp.hasPixel (hm hf)
    exact ⟨_, u, c, hu, hf, hc, rfl⟩

theorem execCexpRowS_completes {n : BitVec 16} {s : State}
    (hm : s.cmapFrozen = true → Populated s.cmap s.cmapLen.toNat) :
    (∃ t, execCexpRowS n s = .next t) ↔ InContract s (.cexpRowS n) := by
  simp only [execCexpRowS_next, InContract, ← requireRow_ok_iff_rowReady hm]
  constructor
  · rintro ⟨t, u, rgb, hu, hr, -⟩
    exact ⟨u, hu, hr⟩
  · rintro ⟨u, hu, hr⟩
    obtain ⟨rgb, hrgb⟩ := expandScalar_isOk_of_requireRow hr u.rgb
    exact ⟨_, u, rgb, hu, hr, hrgb, rfl⟩

/-- The two strategies of `CEXP_ROW` complete alike (R146). -/
theorem execCexpRowP_next_iff_execCexpRowS_next {n : BitVec 16} {s t : State} :
    execCexpRowP n s = .next t ↔ execCexpRowS n s = .next t := by
  rw [execCexpRowP_next, execCexpRowS_next]
  refine exists₂_congr fun u rgb => and_congr_right fun _ => and_congr_right fun hr => ?_
  rw [expandParallel_eq_of_requireRow hr]

theorem exec_completes_iff {s : State} (h : s.Inv) (i : Instr) :
    (∃ t, exec i s = .next t) ↔ InContract s i := by
  cases i with
  | dctRow r => exact dctLine_completes
  | dctCol c => exact dctLine_completes
  | dctFwdS => exact dctForward_completes
  | dctFwdP => exact dctForward_completes
  | cmapPublish len => exact execCmapPublish_completes
  | cmapRelease => exact execCmapRelease_completes
  | cexpPix p => exact execCexpPix_completes h.frozen
  | cexpRowS n => exact execCexpRowS_completes h.frozen
  | cexpRowP n =>
    exact (exists_congr fun _ => execCexpRowP_next_iff_execCexpRowS_next).trans
      (execCexpRowS_completes h.frozen)

/-- Settles O15, by one completion lemma per operation; without faults, not completing is refusing. -/
theorem operationCompletesExactlyInContract : Obligations.OperationCompletesExactlyInContract := by
  intro s i hs
  have hc := exec_completes_iff hs i
  refine ⟨hc, ?_⟩
  rw [refuses_iff, ← hc, not_exists]

/-! ### The frame of the DCT unit (R2) -/

/-- `t` is `s` with another block in the DCT unit at the present port, and no other change. -/
def ChangesOnlyBlk (s t : State) : Prop :=
  ∃ u b, AtDctu s u ∧ t = s.setDctu s.port { u with blk := b }

theorem dctLine_changesOnlyBlk {st : Stage} {n : BitVec 3} {s t : State}
    (h : dctLine st n s = .next t) : ChangesOnlyBlk s t := by
  obtain ⟨u, hu, -, ht⟩ := dctLine_next.mp h
  exact ⟨u, _, hu, ht⟩

theorem dctForward_changesOnlyBlk {run : Config → Block → Block} {s t : State}
    (h : dctForward run s = .next t) : ChangesOnlyBlk s t := by
  obtain ⟨u, hu, -, ht⟩ := dctForward_next.mp h
  exact ⟨u, _, hu, ht⟩

theorem exec_dctu_changesOnlyBlk {i : Instr} {s t : State} (hi : unitOf i = .dctu)
    (h : exec i s = .next t) : ChangesOnlyBlk s t := by
  cases i with
  | dctRow r => exact dctLine_changesOnlyBlk h
  | dctCol c => exact dctLine_changesOnlyBlk h
  | dctFwdS => exact dctForward_changesOnlyBlk h
  | dctFwdP => exact dctForward_changesOnlyBlk h
  | cmapPublish len => cases hi
  | cmapRelease => cases hi
  | cexpPix p => cases hi
  | cexpRowS n => cases hi
  | cexpRowP n => cases hi

/-- Settles O38: the operation writes one replica's block, and a write to one replica has the frame. -/
theorem dctFrame : Obligations.DctFrame := by
  intro i s t hi h
  obtain ⟨u, b, hu, rfl⟩ := exec_dctu_changesOnlyBlk hi h
  exact ⟨rfl, rfl, rfl, rfl, rfl, rfl, rfl, rfl, fun k hk => State.setDctu_other s _ hk,
    u, _, hu, State.setDctu_same _ hu, rfl⟩

/-! ### The parameters (R6) -/

/-- Settles O16: 8 + 13 + 2 and 12 + 13 + 1. -/
theorem precisionBound : Obligations.PrecisionBound
  | .b8 => by decide
  | .b12 => by decide

/-! ### Shifts (R9) -/

/-- `asr` is the library's shift of an integer. -/
theorem asr_eq_shiftRight (x : Int) (k : Nat) : asr x k = x >>> k := by
  rw [asr, Int.shiftRight_eq_div_pow, Nat.cast_pow, Nat.cast_ofNat]

theorem asr_shl (x : Int) (k : Nat) : asr (shl x k) k = x :=
  Int.mul_ediv_cancel x (by positivity)

/-- Settles O18, by the library's value of a word's arithmetic shift. -/
theorem asrIsTheArithmeticWordShift : Obligations.AsrIsTheArithmeticWordShift := by
  refine ⟨fun _ _ => rfl, fun w x k => ?_, asr_shl⟩
  rw [asr_eq_shiftRight, BitVec.toInt_sshiftRight]

end Sys2Proof.Machine
end

section
/-! PROOFS. 10_state.md: the legal states (R20, R27, R35, R119, R150), that a reset gives one and every
step keeps it, which pieces of state a step writes (R24, R33), operations in pieces (R32, R115, R145),
and the constants and the status word (R24, R25, R28). -/

namespace Sys2Proof.Machine

/-! ### Bounds of the transform (R119) -/

/-- The bias of `DESCALE` is less than one unit of the result. -/
theorem descale_two_pow_mul (m : Int) {n : Nat} (hn : 1 ≤ n) : descale (2 ^ n * m) n = m := by
  have hbias : (2 : Int) ^ (n - 1) < 2 ^ n := pow_lt_pow_right₀ (by decide) (by omega)
  rw [descale_eq_ediv, Int.add_comm, Int.add_mul_ediv_left _ _ (by positivity),
    Int.ediv_eq_zero_of_lt (by positivity) hbias, Int.zero_add]

/-- `DESCALE` of a sum of magnitude at most `2^n * m` has magnitude at most `m`. -/
theorem descale_abs_le {a m : Int} {n : Nat} (hn : 1 ≤ n) (h : |a| ≤ 2 ^ n * m) :
    |descale a n| ≤ m := by
  obtain ⟨hlow, hhigh⟩ := abs_le.mp h
  rw [← mul_neg] at hlow
  have hlow' := descale_mono n hlow
  have hhigh' := descale_mono n hhigh
  rw [descale_two_pow_mul _ hn] at hlow' hhigh'
  exact abs_le.mpr ⟨hlow', hhigh'⟩

/-- The sum and the difference of two values of magnitude at most `m`. -/
theorem abs_add_sub_le {a b m : Int} (ha : |a| ≤ m) (hb : |b| ≤ m) :
    |a + b| ≤ 2 * m ∧ |a - b| ≤ 2 * m := by
  rw [abs_le] at *
  simp only [abs_le]
  omega

/-- The odd sums of R110: each one's four coefficients have magnitudes that add up to less than `2^15`. -/
theorem oddSums_abs_le (t : FixTab) {m a b c d : Int} (ha : |a| ≤ 2 * m) (hb : |b| ≤ 2 * m)
    (hc : |c| ≤ 2 * m) (hd : |d| ≤ 2 * m) :
    |(oddSums (fix t) a b c d).1| ≤ 2 ^ 16 * m ∧ |(oddSums (fix t) a b c d).2.1| ≤ 2 ^ 16 * m ∧
    |(oddSums (fix t) a b c d).2.2.1| ≤ 2 ^ 16 * m ∧
    |(oddSums (fix t) a b c d).2.2.2| ≤ 2 ^ 16 * m := by
  simp only [abs_le] at *
  cases t <;> simp only [oddSums, multiply, fix, fixTrunc, fixRef] <;> omega

/-- The sums that even outputs 2 and 6 are the DESCALE of (R106, R108): each one's two coefficients have
magnitudes that add up to less than `2^14`. -/
theorem evenSums_abs_le (t : FixTab) {m a b : Int} (ha : |a| ≤ 2 * (2 * m)) (hb : |b| ≤ 2 * (2 * m)) :
    |multiply (a + b) (fix t .c0_541196100) + multiply b (fix t .c0_765366865)| ≤ 2 ^ 16 * m ∧
    |multiply (a + b) (fix t .c0_541196100) + multiply a (-(fix t .c1_847759065))| ≤ 2 ^ 16 * m := by
  simp only [abs_le] at *
  cases t <;> simp only [multiply, fix, fixTrunc, fixRef] <;> omega

/-- Inputs of magnitude at most `m` give outputs of magnitude at most `y`, when `y` bounds the DESCALE of
sums of magnitude `2^16 * m` and the scaled sums of outputs 0 and 4, whose magnitude is `8 * m`. -/
theorem dct1d_abs_le {b : Precision} {st : Stage} {x : Vec8} {m y : Int} (t : FixTab)
    (hx : ∀ k, |x.get k| ≤ m) (hy : 2 ^ 16 * m ≤ 2 ^ descaleShift b st * y)
    (hdc : ∀ v, |v| ≤ 2 * (2 * (2 * m)) → |dcScale b st v| ≤ y) (k : Fin 8) :
    |(dct1d b (fix t) st x).get k| ≤ y := by
  have hsh : 1 ≤ descaleShift b st := by cases b <;> cases st <;> decide
  have hds : ∀ {a}, |a| ≤ 2 ^ 16 * m → |descale a (descaleShift b st)| ≤ y := fun h =>
    descale_abs_le hsh (h.trans hy)
  obtain ⟨h0, h7⟩ := abs_add_sub_le (hx 0) (hx 7)
  obtain ⟨h1, h6⟩ := abs_add_sub_le (hx 1) (hx 6)
  obtain ⟨h2, h5⟩ := abs_add_sub_le (hx 2) (hx 5)
  obtain ⟨h3, h4⟩ := abs_add_sub_le (hx 3) (hx 4)
  obtain ⟨h10, h13⟩ := abs_add_sub_le h0 h3
  obtain ⟨h11, h12⟩ := abs_add_sub_le h1 h2
  obtain ⟨hsum, hdiff⟩ := abs_add_sub_le h10 h11
  obtain ⟨e2, e6⟩ := evenSums_abs_le t h12 h13
  obtain ⟨o1, o3, o5, o7⟩ := oddSums_abs_le t h4 h5 h6 h7
  match k with
  | 0 => exact hdc _ hsum
  | 1 => exact hds o1
  | 2 => exact hds e2
  | 3 => exact hds o3
  | 4 => exact hdc _ hdiff
  | 5 => exact hds o5
  | 6 => exact hds e6
  | 7 => exact hds o7

/-- A value of a stage's domain, as a bound of its magnitude. -/
theorem LineInDomain.abs_le_row {b : Precision} {x : Vec8} (h : LineInDomain b .row x) (k : Fin 8) :
    |x.get k| ≤ 2 ^ (sampleBits b - 1) := by
  obtain ⟨hlow, hhigh⟩ := (inDomS_iff ..).mp (h k)
  exact abs_le.mpr ⟨hlow, by omega⟩

theorem lineInDomain_col_iff {b : Precision} {x : Vec8} :
    LineInDomain b .col x ↔ ∀ k, |x.get k| ≤ 2 ^ (sampleBits b + pass1Bits b + 2) :=
  forall_congr' fun _ => (inDomI_iff ..).trans abs_le.symm

/-- R119: the row stage maps `DOM_S` into `DOM_I`. -/
theorem dct1d_row_inDomain {b : Precision} {x : Vec8} (t : FixTab) (h : LineInDomain b .row x) :
    LineInDomain b .col (dct1d b (fix t) .row x) := by
  refine lineInDomain_col_iff.mpr (dct1d_abs_le t h.abs_le_row ?_ fun v hv => ?_)
  · cases b <;> decide
  · rw [abs_le] at hv ⊢
    cases b <;> simp only [dcScale, shl, sampleBits, pass1Bits] at hv ⊢ <;> omega

/-- R119: the column stage maps `DOM_I` to values of magnitude at most `2^(B+5)`. -/
theorem dct1d_col_abs_le {b : Precision} {x : Vec8} (t : FixTab) (h : LineInDomain b .col x)
    (k : Fin 8) : |(dct1d b (fix t) .col x).get k| ≤ 2 ^ (sampleBits b + 5) := by
  refine dct1d_abs_le t (lineInDomain_col_iff.mp h) ?_ (fun v hv => ?_) k
  · cases b <;> decide
  · refine descale_abs_le (by cases b <;> decide) (hv.trans ?_)
    cases b <;> decide

/-! ### Values that every admitted element holds (R7, R20) -/

theorem inElem_of_abs_le {b : Precision} {w : Nat} {v : Int} (hw : b.minElemWidth ≤ w)
    (h : |v| ≤ 2 ^ (b.minElemWidth - 2)) : inElem w v = true := by
  have hpos : (2 : Int) ^ (b.minElemWidth - 2) < 2 ^ (w - 1) :=
    pow_lt_pow_right₀ (by decide) (by cases b <;> simp only [Precision.minElemWidth] at * <;> omega)
  obtain ⟨hlow, hhigh⟩ := abs_le.mp h
  exact (inElem_iff ..).mpr ⟨by omega, by omega⟩

/-- R119: what either stage makes of a line in its domain fits the element. -/
theorem inElem_dct1d {b : Precision} {st : Stage} {w : Nat} {x : Vec8} (t : FixTab)
    (hw : b.minElemWidth ≤ w) (h : LineInDomain b st x) (k : Fin 8) :
    inElem w ((dct1d b (fix t) st x).get k) = true := by
  refine inElem_of_abs_le hw ?_
  cases st with
  | row =>
    exact (lineInDomain_col_iff.mp (dct1d_row_inDomain t h) k).trans (by cases b <;> decide)
  | col => exact (dct1d_col_abs_le t h k).trans (by cases b <;> decide)

/-! ### A line in contract, and the lines beside it (R115) -/

theorem lineReady_of_elements {p : Precision} {st : Stage} {n : BitVec 3} {b : Block}
    (h : ∀ k, ∃ v, b.get (lineElement st n k) = some v ∧ inDomain p st v = true) :
    LineReady p st n b := by
  refine (requireLine_ok ..).mp ((requireElements_ok ..).mpr fun i hi => ?_)
  obtain ⟨k, rfl⟩ := (mem_lineElements ..).mp hi
  exact h k

theorem LineIs.transformLine_other (c : Config) {st : Stage} {m n : BitVec 3} {b : Block} {x : Vec8}
    (h : LineIs b st m x) (hmn : m ≠ n) : LineIs (transformLine c st n b) st m x := fun k => by
  rw [transformLine_get_other c b fun j => lineElement_ne (Ne.symm hmn) j k, h k]

theorem LineReady.transformLine_other (c : Config) {p : Precision} {st : Stage} {m n : BitVec 3}
    {b : Block} (h : LineReady p st m b) (hmn : m ≠ n) :
    LineReady p st m (transformLine c st n b) := by
  obtain ⟨x, hx, hd⟩ := h
  exact ⟨x, hx.transformLine_other c hmn, hd⟩

/-- A row of `b` that is done: what the column stage reads of it is in the column stage's domain. -/
def RowDone (p : Precision) (b : Block) (r : BitVec 3) : Prop :=
  ∃ y, LineIs b .row r y ∧ LineInDomain p .col y

theorem RowDone.transformLine_other (c : Config) {p : Precision} {b : Block} {m n : BitVec 3}
    (h : RowDone p b m) (hmn : m ≠ n) : RowDone p (transformLine c .row n b) m := by
  obtain ⟨y, hy, hd⟩ := h
  exact ⟨y, hy.transformLine_other c hmn, hd⟩

/-- A transformed row is done (R119). -/
theorem rowDone_transformLine {c : Config} {n : BitVec 3} {b : Block}
    (h : LineReady c.precision .row n b) : RowDone c.precision (transformLine c .row n b) n := by
  obtain ⟨x, hx, hd⟩ := h
  refine ⟨dct1d c.precision (fix c.fixTab) .row x, fun k => ?_, dct1d_row_inDomain c.fixTab hd⟩
  rw [transformLine_get_own, readLine_of_lineIs hx]

/-- Once every row is done, every column is in contract (R115). -/
theorem lineReady_col_of_rowDone {p : Precision} {b : Block} (h : ∀ r, RowDone p b r)
    (n : BitVec 3) : LineReady p .col n b := by
  refine lineReady_of_elements fun k => ?_
  obtain ⟨r, j, hrj⟩ := exists_lineElement .row (lineElement .col n k)
  obtain ⟨y, hy, hd⟩ := h r
  exact ⟨y.get j, hrj ▸ hy j, hd j⟩

/-! ### The range of the elements (R20) -/

/-- Every element of `b` is a `w`-bit value. -/
def Block.Fits (b : Block) (w : Nat) : Prop := ∀ i : Fin 64, inElem w b.val[i] = true

theorem Block.Fits.set {b : Block} {w : Nat} (h : b.Fits w) (i : Fin 64) {v : Int}
    (hv : inElem w v = true) : (b.set i v).Fits w := fun j => by
  rw [Block.set_val]
  split
  · exact hv
  · exact h j

/-- A line operation in contract keeps the range (R119). -/
theorem Block.Fits.transformLine {c : Config} {st : Stage} {n : BitVec 3} {b : Block}
    (h : b.Fits c.wElem) (hr : LineReady c.precision st n b) :
    (transformLine c st n b).Fits c.wElem := fun i => by
  obtain ⟨m, k, rfl⟩ := exists_lineElement st i
  by_cases hmn : m = n
  · subst hmn
    obtain ⟨x, hx, hd⟩ := hr
    rw [Block.val_of_get (transformLine_get_own ..), readLine_of_lineIs hx]
    exact inElem_dct1d c.fixTab c.wElem_admitted hd k
  · rw [transformLine_val_other c b fun j => lineElement_ne (Ne.symm hmn) j k]
    exact h _

/-- So do lines one after the other, each with its precondition. -/
theorem Block.Fits.passChecked {c : Config} {st : Stage} {ns : List (BitVec 3)} {b b' : Block}
    (h : b.Fits c.wElem) (hp : passChecked c st ns b = .ok b') : b'.Fits c.wElem := by
  induction ns generalizing b with
  | nil => cases hp; exact h
  | cons n ns ih =>
    rw [Machine.passChecked] at hp
    split at hp
    · rename_i b₁ hb
      obtain ⟨hr, rfl⟩ := transformChecked_ok.mp hb
      exact ih (h.transformLine hr) hp
    · cases hp

/-! ### Whole transforms -/

/-- Group after group does what the lines of the groups do one after the other. -/
theorem foldl_laneGroup_eq (c : Config) (st : Stage) {gs : List (List (BitVec 3))}
    (hg : ∀ ns ∈ gs, ns.Nodup) (b : Block) :
    gs.foldl (fun b ns => laneGroup c st ns b) b = scalarPass c st gs.flatten b := by
  induction gs generalizing b with
  | nil => rfl
  | cons ns gs ih =>
    obtain ⟨hns, hgs⟩ := List.forall_mem_cons.mp hg
    rw [List.foldl_cons, laneGroup_eq c st ns b hns, ih hgs]
    simp only [scalarPass, List.flatten_cons, List.foldl_append]

/-- A parallel pass does what a scalar pass over the 8 lines does (R116). -/
theorem parallelPass_eq (c : Config) (st : Stage) (b : Block) :
    parallelPass c st b = scalarPass c st eightLines b := by
  rw [parallelPass, foldl_laneGroup_eq c st (dctGroups_nodup _), dctGroups_flatten]

/-- The two strategies of `DCT_FWD` make the same block (R116). -/
theorem forwardParallel_eq (c : Config) (b : Block) : forwardParallel c b = forwardScalar c b := by
  rw [forwardParallel, parallelPass_eq, parallelPass_eq, forwardScalar]

/-- After all rows of a block in contract, every row is done. -/
theorem rowDone_scalarPass {c : Config} {b : Block} (h : BlockReady c.precision b) (r : BitVec 3) :
    RowDone c.precision (scalarPass c .row eightLines b) r := by
  obtain ⟨x, hx, hd⟩ := LineReady.of_block h r
  refine ⟨dct1d c.precision (fix c.fixTab) .row x, fun k => ?_, dct1d_row_inDomain c.fixTab hd⟩
  rw [scalarPass_get c .row _ b eightLines_nodup (mem_eightLines r), readLine_of_lineIs hx]

/-- A block in contract meets every line's precondition of both passes (R114, R115). -/
theorem passChecked_forward {c : Config} {b : Block} (h : BlockReady c.precision b) :
    passChecked c .row eightLines b = .ok (scalarPass c .row eightLines b) ∧
    passChecked c .col eightLines (scalarPass c .row eightLines b) = .ok (forwardScalar c b) :=
  ⟨passChecked_ok eightLines_nodup fun r _ => LineReady.of_block h r,
    passChecked_ok eightLines_nodup fun n _ => lineReady_col_of_rowDone (rowDone_scalarPass h) n⟩

theorem Block.Fits.forwardScalar {c : Config} {b : Block} (h : b.Fits c.wElem)
    (hb : BlockReady c.precision b) : (forwardScalar c b).Fits c.wElem :=
  (h.passChecked (passChecked_forward hb).1).passChecked (passChecked_forward hb).2

/-! ### One piece of an operation (R32) -/

/-- Everything a piece of a `DCT_FWD` can do. -/
theorem dctPiece_ok {c : Config} {u u' : Dctu} {n : BitVec 3} :
    dctPiece c u n = .ok u' ↔
      ∃ pass done, u.progress = .forward pass done ∧ n ∉ done ∧ LineReady c.precision pass n u.blk ∧
        u' = ⟨transformLine c pass n u.blk, afterLine pass (n :: done)⟩ := by
  obtain ⟨b, progress⟩ := u
  cases progress with
  | idle => simp [dctPiece]
  | forward pass done =>
    simp only [dctPiece, DctProgress.forward.injEq]
    by_cases hn : n ∈ done
    · simp only [hn, if_true]
      constructor
      · rintro ⟨⟩
      · rintro ⟨_, _, ⟨rfl, rfl⟩, h, -⟩
        exact absurd hn h
    · rw [if_neg hn]
      constructor
      · intro h
        split at h
        · rename_i b' hb
          obtain ⟨hr, rfl⟩ := transformChecked_ok.mp hb
          cases h
          exact ⟨_, _, ⟨rfl, rfl⟩, hn, hr, rfl⟩
        · cases h
      · rintro ⟨_, _, ⟨rfl, rfl⟩, -, hr, rfl⟩
        rw [transformChecked_ok.mpr ⟨hr, rfl⟩]

theorem expandFrozen_ok {s : State} {u : Cexu} {ps : List Nat} {rgb : Memory} :
    expandFrozen s u ps = .ok rgb ↔
      s.cmapFrozen = true ∧ expandScalar s u ps u.rgb = .ok rgb := by
  unfold expandFrozen
  split <;> simp_all

theorem expandScalar_singleton {s : State} {u : Cexu} {p : Nat} {rgb rgb' : Memory} :
    expandScalar s u [p] rgb = .ok rgb' ↔
      ∃ t, pixel s u p = .ok t ∧ rgb' = writeTriplet rgb p t := by
  cases h : pixel s u p with
  | ok t => rw [expandScalar_cons h]; simp [expandScalar, eq_comm]
  | error e => simp [expandScalar, h]

/-- A `CEXP_ROW n` after the positions `done`: complete once there are `n` of them. -/
def afterPosition (n : BitVec 16) (done : List Nat) : CexProgress :=
  if done.length = n.toNat then .idle else .row n done

/-- Everything a piece of a `CEXP_ROW` can do. -/
theorem cexPiece_ok {s : State} {u u' : Cexu} {p : Nat} :
    cexPiece s u p = .ok u' ↔
      ∃ n done t, u.progress = .row n done ∧ p < n.toNat ∧ p ∉ done ∧ s.cmapFrozen = true ∧
        pixel s u p = .ok t ∧
        u' = { u with rgb := writeTriplet u.rgb p t, progress := afterPosition n (p :: done) } := by
  obtain ⟨idx, rgb, progress⟩ := u
  cases progress with
  | idle => simp [cexPiece]
  | row n done =>
    simp only [cexPiece, CexProgress.row.injEq]
    by_cases hp : p < n.toNat ∧ p ∉ done
    · rw [if_pos hp]
      constructor
      · intro h
        split at h
        · rename_i rgb' hx
          obtain ⟨hf, hx⟩ := expandFrozen_ok.mp hx
          obtain ⟨t, ht, rfl⟩ := expandScalar_singleton.mp hx
          cases h
          exact ⟨_, _, t, ⟨rfl, rfl⟩, hp.1, hp.2, hf, ht, rfl⟩
        · cases h
      · rintro ⟨_, _, t, ⟨rfl, rfl⟩, -, -, hf, ht, rfl⟩
        rw [expandFrozen_ok.mpr ⟨hf, expandScalar_singleton.mpr ⟨t, ht, rfl⟩⟩]
        rfl
    · rw [if_neg hp]
      constructor
      · rintro ⟨⟩
      · rintro ⟨_, _, t, ⟨rfl, rfl⟩, hlt, hnd, -⟩
        exact absurd ⟨hlt, hnd⟩ hp

/-- Everything a work event of a DCT unit can do. -/
theorem hostWork_dctu_next {j : Nat} {s t : State} :
    hostWork .dctu j s = .next t ↔
      ∃ u u', AtDctu s u ∧ j < 8 ∧ dctPiece s.cfg u (BitVec.ofNat 3 j) = .ok u' ∧
        t = s.setDctu s.port u' := by
  simp only [hostWork, onDctu_next]
  refine exists₂_congr fun u u' => and_congr_right fun _ => ?_
  split <;> simp_all

/-- Everything a work event of a colour-expansion unit can do. -/
theorem hostWork_cexu_next {j : Nat} {s t : State} :
    hostWork .cexu j s = .next t ↔
      ∃ u u', AtCexu s u ∧ cexPiece s u j = .ok u' ∧ t = s.setCexu s.port u' :=
  onCexu_next

/-! ### How an operation in pieces begins -/

theorem beginForward_next {s t : State} :
    beginForward s = .next t ↔
      ∃ u, AtDctu s u ∧ BlockReady s.cfg.precision u.blk ∧
        t = s.setDctu s.port { u with progress := afterLine .row [] } := by
  simp only [beginForward, onDctu_next]
  constructor
  · rintro ⟨u, u', hu, h, rfl⟩
    split at h
    · rename_i hr
      cases h
      exact ⟨u, hu, (requireBlock_ok ..).mp hr, rfl⟩
    · cases h
  · rintro ⟨u, hu, hr, rfl⟩
    exact ⟨u, _, hu, by rw [(requireBlock_ok ..).mpr hr]; rfl, rfl⟩

theorem afterPosition_nil (n : BitVec 16) :
    afterPosition n [] = if n = 0 then .idle else .row n [] := by
  have h : (0 = n.toNat) ↔ n = 0 := by rw [← BitVec.toNat_inj]; exact eq_comm
  simp only [afterPosition, List.length_nil, h]

theorem beginRow_next {n : BitVec 16} {s t : State} :
    beginRow n s = .next t ↔
      ∃ u, AtCexu s u ∧ requireRow s u n = .ok () ∧
        t = s.setCexu s.port { u with progress := afterPosition n [] } := by
  simp only [beginRow, onCexu_next, ← afterPosition_nil]
  constructor
  · rintro ⟨u, u', hu, h, rfl⟩
    split at h
    · rename_i hr
      cases h
      exact ⟨u, hu, hr, rfl⟩
    · cases h
  · rintro ⟨u, hu, hr, rfl⟩
    exact ⟨u, _, hu, by rw [hr], rfl⟩

/-! ### Everything the remaining host primitives can do (R54) -/

theorem hostWrBlk_next {i : Nat} {v : Int} {s t : State} :
    hostWrBlk i v s = .next t ↔
      ∃ u, AtDctu s u ∧ ∃ h : i < 64, inElem s.cfg.wElem v = true ∧
        t = s.setDctu s.port { u with blk := u.blk.set ⟨i, h⟩ v } := by
  simp only [hostWrBlk, onDctu_next]
  constructor
  · rintro ⟨u, u', hu, h, rfl⟩
    split at h
    · rename_i hi
      split at h
      · rename_i hv; cases h; exact ⟨u, hu, hi, hv, rfl⟩
      · cases h
    · cases h
  · rintro ⟨u, hu, hi, hv, rfl⟩
    exact ⟨u, _, hu, by rw [dif_pos hi, if_pos hv], rfl⟩

theorem hostWrCmap_next {ch : Channel} {i v : Nat} {s t : State} :
    hostWrCmap ch i v s = .next t ↔
      (∃ u, AtCexu s u) ∧ s.anyExpanding = false ∧ s.cmapFrozen = false ∧ i < cmapDepth ∧ v ≤ 255 ∧
        t = { s with cmap := s.cmap.write ch i (BitVec.ofNat 8 v) } := by
  simp only [hostWrCmap, onColormap_next]
  refine and_congr_right fun _ => and_congr_right fun _ => ?_
  constructor
  · intro h
    split at h
    · cases h
    · rename_i hf
      split at h
      · rename_i w hw
        obtain ⟨hi, hv, rfl⟩ := requireByte_ok.mp hw
        cases h
        exact ⟨by simpa using hf, hi, hv, rfl⟩
      · cases h
  · rintro ⟨hf, hi, hv, rfl⟩
    rw [if_neg (by simp [hf]), requireByte_ok.mpr ⟨hi, hv, rfl⟩]

theorem hostWrIdx_next {p v : Nat} {s t : State} :
    hostWrIdx p v s = .next t ↔
      ∃ u, AtCexu s u ∧ p < s.cfg.maxRow.toNat ∧ v ≤ 255 ∧
        t = s.setCexu s.port { u with idx := u.idx.write p (BitVec.ofNat 8 v) } := by
  simp only [hostWrIdx, onCexu_next]
  constructor
  · rintro ⟨u, u', hu, h, rfl⟩
    split at h
    · rename_i w hw
      obtain ⟨hp, hv, rfl⟩ := requireByte_ok.mp hw
      cases h
      exact ⟨u, hu, hp, hv, rfl⟩
    · cases h
  · rintro ⟨u, hu, hp, hv, rfl⟩
    exact ⟨u, _, hu, by rw [requireByte_ok.mpr ⟨hp, hv, rfl⟩], rfl⟩

theorem hostIssue_next {w : Word} {s t : State} :
    hostIssue w s = .next t ↔ ∃ i, decode w = .ok i ∧ exec i s = .next t := by
  unfold hostIssue
  cases decode w <;> simp

theorem hostStart_next {w : Word} {s t : State} :
    hostStart w s = .next t ↔ ∃ i, decode w = .ok i ∧ beginInstr i s = .next t := by
  unfold hostStart
  cases decode w <;> simp

/-! ### The operation in progress stays in contract (R115, R119, R150) -/

/-- A list of `done` lines that is complete names all 8. -/
theorem mem_of_length_eq_eight {done : List (BitVec 3)} (hnd : done.Nodup) (hl : done.length = 8)
    (n : BitVec 3) : n ∈ done := by
  have hsub : done.Subperm eightLines := hnd.subperm fun m _ => mem_eightLines m
  exact (hsub.perm_of_length_le (by rw [hl]; decide)).mem_iff.mpr (mem_eightLines n)

/-- A transform after the lines `done` of a pass, its last line's condition included. -/
theorem forwardOk_afterLine {p : Precision} {b : Block} {pass : Stage} {done : List (BitVec 3)}
    (hnd : done.Nodup) (hl : done.length ≤ 8)
    (hrow : pass = .row → ∀ n, n ∈ done → RowDone p b n)
    (hleft : ∀ n, n ∉ done → LineReady p pass n b) :
    ForwardOk p b (afterLine pass done) := by
  unfold afterLine
  split
  · rename_i h8
    cases pass with
    | row =>
      have hall := fun r => hrow rfl r (mem_of_length_eq_eight hnd h8 r)
      exact ⟨List.nodup_nil, by decide, fun n _ => lineReady_col_of_rowDone hall n⟩
    | col => trivial
  · rename_i h8
    have hlt : done.length < 8 := by omega
    cases pass with
    | row =>
      refine ⟨hnd, hlt, fun n => ?_⟩
      split
      · exact hrow rfl n ‹_›
      · exact hleft n ‹_›
    | col => exact ⟨hnd, hlt, hleft⟩

/-- What `ForwardOk` says of a pass, whichever it is. -/
theorem ForwardOk.pass {p : Precision} {b : Block} {pass : Stage} {done : List (BitVec 3)}
    (h : ForwardOk p b (.forward pass done)) :
    done.Nodup ∧ done.length < 8 ∧ (pass = .row → ∀ n, n ∈ done → RowDone p b n) ∧
      ∀ n, n ∉ done → LineReady p pass n b := by
  cases pass with
  | row =>
    obtain ⟨hnd, hl, h⟩ := h
    exact ⟨hnd, hl, fun _ n hn => (if_pos hn).mp (h n), fun n hn => (if_neg hn).mp (h n)⟩
  | col =>
    obtain ⟨hnd, hl, h⟩ := h
    exact ⟨hnd, hl, (fun e => by cases e), h⟩

/-- A piece keeps the transform in contract: its line is done, and the others are as they were. -/
theorem ForwardOk.afterLine {c : Config} {b : Block} {pass : Stage} {done : List (BitVec 3)}
    {n : BitVec 3} (h : ForwardOk c.precision b (.forward pass done)) (hn : n ∉ done) :
    ForwardOk c.precision (transformLine c pass n b) (afterLine pass (n :: done)) := by
  obtain ⟨hnd, hl, hrow, hleft⟩ := h.pass
  refine forwardOk_afterLine (List.nodup_cons.mpr ⟨hn, hnd⟩) hl ?_ fun m hm => ?_
  · rintro rfl m hm
    by_cases hmn : m = n
    · subst hmn
      exact rowDone_transformLine (hleft m hn)
    · exact (hrow rfl m (by simpa [hmn] using hm)).transformLine_other c hmn
  · obtain ⟨hmn, hm⟩ := not_or.mp (List.mem_cons.not.mp hm)
    exact (hleft m hm).transformLine_other c hmn

theorem rowOk_afterPosition {s : State} {u : Cexu} {n : BitVec 16} {done : List Nat}
    (hnd : done.Nodup) (hl : done.length ≤ n.toNat) (hlt : ∀ p ∈ done, p < n.toNat)
    (hf : s.cmapFrozen = true) (hrow : RowReady s u n.toNat) :
    RowOk s u (afterPosition n done) := by
  unfold afterPosition
  split
  · trivial
  · exact ⟨hnd, by omega, hlt, hf, hrow⟩

/-! ### Byte spaces within their size (R27, R50) -/

theorem Memory.fits_nil (size : Nat) : Memory.Fits [] size := ⟨rfl, by simp⟩

theorem Memory.Fits.write {m : Memory} {size : Nat} (h : m.Fits size) {a : Nat} (ha : a < size)
    (v : Byte) : (m.write a v).Fits size := by
  obtain ⟨hw, hlt⟩ := h
  refine ⟨Memory.wf_write a v hw, fun c hc => ?_⟩
  rcases Memory.mem_write hc with rfl | hc
  · exact ha
  · exact hlt c hc

theorem Memory.Fits.writeTriplet {rgb : Memory} {n : Nat} (h : rgb.Fits (3 * n)) {p : Nat}
    (hp : p < n) (t : Triplet) : (writeTriplet rgb p t).Fits (3 * n) := by
  obtain ⟨hw, hlt⟩ := h
  refine ⟨wf_writeTriplet p t hw, fun c hc => ?_⟩
  rcases mem_writeTriplet hc with hc | hc
  · omega
  · exact hlt c hc

/-- An expansion writes below three times the number of positions there are. -/
theorem Memory.Fits.expandScalar {s : State} {u : Cexu} {ps : List Nat} {rgb rgb' : Memory}
    (h : rgb.Fits (3 * s.cfg.maxRow.toNat)) (hx : expandScalar s u ps rgb = .ok rgb') :
    rgb'.Fits (3 * s.cfg.maxRow.toNat) := by
  induction ps generalizing rgb with
  | nil => cases hx; exact h
  | cons p ps ih =>
    rw [Machine.expandScalar] at hx
    split at hx
    · rename_i t ht
      obtain ⟨hp, -⟩ := pixel_ok.mp ht
      exact ih (h.writeTriplet hp t) hx
    · cases hx

/-! ### Changes that keep the state legal -/

theorem DctuOk.of_idle {s : State} {u : Dctu} (hb : u.blk.Fits s.cfg.wElem)
    (hu : u.progress = .idle) : DctuOk s u := ⟨hb, by rw [hu]; trivial⟩

theorem CexuOk.of_idle {s : State} {u : Cexu} (hi : u.idx.Fits s.cfg.maxRow.toNat)
    (hr : u.rgb.Fits (3 * s.cfg.maxRow.toNat)) (hu : u.progress = .idle) : CexuOk s u :=
  ⟨hi, hr, by rw [hu]; trivial⟩

/-- The port, the list of inputs and the replies are no part of what makes a state legal. -/
theorem State.Inv.hostSide {s : State} (h : s.Inv) (k : Nat) (es : List Event) (rs : List Reply) :
    ({ s with port := k, inputs := es, replies := rs } : State).Inv where
  dctuCount := h.dctuCount
  cexuCount := h.cexuCount
  len := h.len
  colormap := h.colormap
  frozen := h.frozen
  dctus u hu := ⟨(h.dctus u hu).elements, (h.dctus u hu).progress⟩
  cexus u hu := ⟨(h.cexus u hu).idx, (h.cexus u hu).rgb, (h.cexus u hu).progress⟩

theorem State.Inv.setDctu {s : State} (h : s.Inv) {k : Nat} {u : Dctu} (hu : DctuOk s u) :
    (s.setDctu k u).Inv where
  dctuCount := (List.length_set ..).trans h.dctuCount
  cexuCount := h.cexuCount
  len := h.len
  colormap := h.colormap
  frozen := h.frozen
  dctus v hv := by
    have hv' : DctuOk s v := (List.mem_or_eq_of_mem_set hv).elim (h.dctus v) (· ▸ hu)
    exact ⟨hv'.elements, hv'.progress⟩
  cexus v hv := ⟨(h.cexus v hv).idx, (h.cexus v hv).rgb, (h.cexus v hv).progress⟩

theorem State.Inv.setCexu {s : State} (h : s.Inv) {k : Nat} {u : Cexu} (hu : CexuOk s u) :
    (s.setCexu k u).Inv where
  dctuCount := h.dctuCount
  cexuCount := (List.length_set ..).trans h.cexuCount
  len := h.len
  colormap := h.colormap
  frozen := h.frozen
  dctus v hv := ⟨(h.dctus v hv).elements, (h.dctus v hv).progress⟩
  cexus v hv := by
    have hv' : CexuOk s v := (List.mem_or_eq_of_mem_set hv).elim (h.cexus v) (· ▸ hu)
    exact ⟨hv'.idx, hv'.rgb, hv'.progress⟩

theorem idle_of_not_anyExpanding {s : State} (hx : s.anyExpanding = false) {u : Cexu}
    (hu : u ∈ s.cexus) : u.progress = .idle := by
  have h : ¬u.progress.expanding = true := List.any_eq_false.mp hx u hu
  cases hp : u.progress with
  | idle => rfl
  | row n done => rw [hp] at h; exact absurd rfl h

/-- The shared colormap may change while nobody expands (R66). -/
theorem State.Inv.setColormap {s : State} (h : s.Inv) (hx : s.anyExpanding = false) {m : Colormap}
    {l : BitVec 9} {f : Bool} (hl : l.toNat ≤ cmapDepth) (hm : ∀ ch, (m.channel ch).Fits cmapDepth)
    (hf : f = true → Populated m l.toNat) :
    ({ s with cmap := m, cmapLen := l, cmapFrozen := f } : State).Inv where
  dctuCount := h.dctuCount
  cexuCount := h.cexuCount
  len := hl
  colormap := hm
  frozen := hf
  dctus u hu := ⟨(h.dctus u hu).elements, (h.dctus u hu).progress⟩
  cexus u hu := .of_idle (h.cexus u hu).idx (h.cexus u hu).rgb (idle_of_not_anyExpanding hx hu)

/-- The DCT unit at the present port of a legal state is legal. -/
theorem State.Inv.atDctu {s : State} (h : s.Inv) {u : Dctu} (hu : AtDctu s u) : DctuOk s u :=
  h.dctus u (List.mem_of_getElem? hu)

theorem State.Inv.atCexu {s : State} (h : s.Inv) {u : Cexu} (hu : AtCexu s u) : CexuOk s u :=
  h.cexus u (List.mem_of_getElem? hu)

/-! ### Reset -/

theorem Block.reset_fits (w : Nat) : Block.reset.Fits w := fun i => by
  have hpos : (0 : Int) < 2 ^ (w - 1) := by positivity
  have hval : Block.reset.val[i] = 0 := by simp [Block.reset]
  rw [hval]
  exact (inElem_iff ..).mpr ⟨by omega, by omega⟩

/-- Every replica holds its reset value, which is legal, and the colormap is open and empty. -/
theorem State.resetOf_inv (c : Config) : (State.resetOf c).Inv where
  dctuCount := List.length_replicate
  cexuCount := List.length_replicate
  len := Nat.zero_le _
  colormap ch := by cases ch <;> exact Memory.fits_nil _
  frozen hf := by cases hf
  dctus u hu := by
    obtain rfl := List.eq_of_mem_replicate hu
    exact .of_idle (Block.reset_fits _) rfl
  cexus u hu := by
    obtain rfl := List.eq_of_mem_replicate hu
    exact .of_idle (Memory.fits_nil _) (Memory.fits_nil _) rfl

/-- Settles O11, for each configuration by the lemma about its reset state. -/
theorem resetMeetsTheStateInvariant : Obligations.ResetMeetsTheStateInvariant := State.resetOf_inv

theorem resetBlock_inv (s : State) : (resetBlock s).Inv :=
  (State.resetOf_inv s.cfg).hostSide 0 s.inputs s.replies

/-! ### Completing what is in progress -/

theorem Dctu.finish_blk_fits {c : Config} {u u' : Dctu} (h : u.blk.Fits c.wElem)
    (hf : u.finish c = .ok u') : u'.blk.Fits c.wElem := by
  obtain ⟨b, progress⟩ := u
  match progress with
  | .idle => cases hf; exact h
  | .forward .row done =>
    simp only [Dctu.finish] at hf
    split at hf
    · rename_i mid hmid
      cases hb : passChecked c .col eightLines mid <;> rw [hb] at hf <;> cases hf
      exact (h.passChecked hmid).passChecked hb
    · cases hf
  | .forward .col done =>
    simp only [Dctu.finish] at hf
    cases hb : passChecked c .col (linesLeft done) b <;> rw [hb] at hf <;> cases hf
    exact h.passChecked hb

theorem Cexu.finish_rgb_fits {s : State} {u u' : Cexu} (h : u.rgb.Fits (3 * s.cfg.maxRow.toNat))
    (hf : u.finish s = .ok u') : u'.rgb.Fits (3 * s.cfg.maxRow.toNat) := by
  obtain ⟨idx, rgb, progress⟩ := u
  cases progress with
  | idle => cases hf; exact h
  | row n done =>
    simp only [Cexu.finish] at hf
    cases hx : expandFrozen s ⟨idx, rgb, .row n done⟩ (positionsLeft n done) <;>
      rw [hx] at hf <;> cases hf
    exact h.expandScalar (expandFrozen_ok.mp hx).2

theorem settle_keeps_inv {unit : Option FuncUnit} {s t : State} (h : s.Inv)
    (hs : settle unit s = .ok t) : t.Inv := by
  match unit with
  | none => cases hs; exact h
  | some .dctu =>
    rcases settle_dctu.mp hs with ⟨-, rfl⟩ | ⟨u, u', hu, hf, rfl⟩
    · exact h
    · exact h.setDctu (.of_idle (Dctu.finish_blk_fits (h.atDctu hu).elements hf)
        (Dctu.finish_progress hf))
  | some .cexu =>
    rcases settle_cexu.mp hs with ⟨-, rfl⟩ | ⟨u, u', hu, hf, rfl⟩
    · exact h
    · obtain ⟨hidle, hidx⟩ := Cexu.finish_progress hf
      exact h.setCexu (.of_idle (hidx ▸ (h.atCexu hu).idx)
        (Cexu.finish_rgb_fits (h.atCexu hu).rgb hf) hidle)

/-- Once settled, the replica is between operations (R175). -/
theorem settle_idleAt {unit : FuncUnit} {s t : State} (hs : settle (some unit) s = .ok t) :
    IdleAt t unit t.port := by
  cases unit with
  | dctu =>
    rcases settle_dctu.mp hs with ⟨hn, rfl⟩ | ⟨u, u', hu, hf, rfl⟩ <;> intro v hv
    · rw [hn] at hv; cases hv
    · rw [State.setDctu_port, State.setDctu_same u' hu] at hv
      cases hv
      exact Dctu.finish_progress hf
  | cexu =>
    rcases settle_cexu.mp hs with ⟨hn, rfl⟩ | ⟨u, u', hu, hf, rfl⟩ <;> intro v hv
    · rw [hn] at hv; cases hv
    · rw [State.setCexu_port, State.setCexu_same u' hu] at hv
      cases hv
      exact (Cexu.finish_progress hf).1

/-! ### Operations -/

section
variable {s t : State} (h : s.Inv)
include h

theorem dctLine_keeps_inv {st : Stage} {n : BitVec 3} (hidle : IdleAt s .dctu s.port)
    (he : dctLine st n s = .next t) : t.Inv := by
  obtain ⟨u, hu, hr, rfl⟩ := dctLine_next.mp he
  have hb : u.blk.Fits s.cfg.wElem := (h.atDctu hu).elements
  exact h.setDctu (.of_idle (hb.transformLine hr) (hidle u hu))

theorem dctForward_keeps_inv {run : Config → Block → Block} (hrun : ∀ c b, run c b = forwardScalar c b)
    (hidle : IdleAt s .dctu s.port) (he : dctForward run s = .next t) : t.Inv := by
  obtain ⟨u, hu, hr, rfl⟩ := dctForward_next.mp he
  have hb : u.blk.Fits s.cfg.wElem := (h.atDctu hu).elements
  rw [hrun]
  exact h.setDctu (.of_idle (hb.forwardScalar hr) (hidle u hu))

theorem execCmapPublish_keeps_inv {len : BitVec 9} (he : execCmapPublish len s = .next t) :
    t.Inv := by
  obtain ⟨-, hx, -, hl, hp, rfl⟩ := execCmapPublish_next.mp he
  exact h.setColormap hx hl h.colormap fun _ => (entriesDefined_iff ..).mp hp

theorem execCmapRelease_keeps_inv (he : execCmapRelease s = .next t) : t.Inv := by
  obtain ⟨-, hx, -, rfl⟩ := execCmapRelease_next.mp he
  exact h.setColormap hx h.len h.colormap fun hf => by cases hf

theorem execCexpPix_keeps_inv {p : BitVec 16} (hidle : IdleAt s .cexu s.port)
    (he : execCexpPix p s = .next t) : t.Inv := by
  obtain ⟨u, c, hu, -, hc, rfl⟩ := execCexpPix_next.mp he
  obtain ⟨hp, -⟩ := pixel_ok.mp hc
  exact h.setCexu (.of_idle (h.atCexu hu).idx ((h.atCexu hu).rgb.writeTriplet hp c) (hidle u hu))

theorem execCexpRowS_keeps_inv {n : BitVec 16} (hidle : IdleAt s .cexu s.port)
    (he : execCexpRowS n s = .next t) : t.Inv := by
  obtain ⟨u, rgb, hu, -, hx, rfl⟩ := execCexpRowS_next.mp he
  exact h.setCexu (.of_idle (h.atCexu hu).idx ((h.atCexu hu).rgb.expandScalar hx) (hidle u hu))

theorem exec_keeps_inv {i : Instr} (hidle : IdleAt s (unitOf i) s.port) (he : exec i s = .next t) :
    t.Inv := by
  cases i with
  | dctRow r => exact dctLine_keeps_inv h hidle he
  | dctCol c => exact dctLine_keeps_inv h hidle he
  | dctFwdS => exact dctForward_keeps_inv h (fun _ _ => rfl) hidle he
  | dctFwdP => exact dctForward_keeps_inv h forwardParallel_eq hidle he
  | cmapPublish len => exact execCmapPublish_keeps_inv h he
  | cmapRelease => exact execCmapRelease_keeps_inv h he
  | cexpPix p => exact execCexpPix_keeps_inv h hidle he
  | cexpRowS n => exact execCexpRowS_keeps_inv h hidle he
  | cexpRowP n =>
    exact execCexpRowS_keeps_inv h hidle (execCexpRowP_next_iff_execCexpRowS_next.mp he)

/-! ### Operations in pieces -/

theorem beginForward_keeps_inv (he : beginForward s = .next t) : t.Inv := by
  obtain ⟨u, hu, hr, rfl⟩ := beginForward_next.mp he
  exact h.setDctu ⟨(h.atDctu hu).elements, forwardOk_afterLine List.nodup_nil (by decide)
    (fun _ n hn => absurd hn List.not_mem_nil) fun n _ => LineReady.of_block hr n⟩

theorem beginRow_keeps_inv {n : BitVec 16} (he : beginRow n s = .next t) : t.Inv := by
  obtain ⟨u, hu, hr, rfl⟩ := beginRow_next.mp he
  obtain ⟨hf, hrow⟩ := (requireRow_ok_iff_rowReady h.frozen).mp hr
  exact h.setCexu ⟨(h.atCexu hu).idx, (h.atCexu hu).rgb,
    rowOk_afterPosition List.nodup_nil (Nat.zero_le _) (by simp) hf hrow⟩

theorem beginInstr_keeps_inv {i : Instr} (hidle : IdleAt s (unitOf i) s.port)
    (he : beginInstr i s = .next t) : t.Inv := by
  cases i with
  | dctFwdS => exact beginForward_keeps_inv h he
  | dctFwdP => exact beginForward_keeps_inv h he
  | cexpRowS n => exact beginRow_keeps_inv h he
  | cexpRowP n => exact beginRow_keeps_inv h he
  | dctRow r => exact exec_keeps_inv h hidle he
  | dctCol c => exact exec_keeps_inv h hidle he
  | cmapPublish len => exact exec_keeps_inv h hidle he
  | cmapRelease => exact exec_keeps_inv h hidle he
  | cexpPix p => exact exec_keeps_inv h hidle he

theorem hostWork_keeps_inv {unit : FuncUnit} {j : Nat} (he : hostWork unit j s = .next t) :
    t.Inv := by
  cases unit with
  | dctu =>
    obtain ⟨u, u', hu, -, hp, rfl⟩ := hostWork_dctu_next.mp he
    obtain ⟨pass, done, hpr, hn, hr, rfl⟩ := dctPiece_ok.mp hp
    have hb : u.blk.Fits s.cfg.wElem := (h.atDctu hu).elements
    have hok := (h.atDctu hu).progress
    rw [hpr] at hok
    exact h.setDctu ⟨hb.transformLine hr, hok.afterLine hn⟩
  | cexu =>
    obtain ⟨u, u', hu, hp, rfl⟩ := hostWork_cexu_next.mp he
    obtain ⟨n, done, c, hpr, hlt, hnd, hf, hc, rfl⟩ := cexPiece_ok.mp hp
    obtain ⟨hidx, hrgb, hok⟩ := h.atCexu hu
    rw [hpr] at hok
    obtain ⟨hdnd, hl, hdlt, -, hrow⟩ := hok
    obtain ⟨hp, -⟩ := pixel_ok.mp hc
    exact h.setCexu ⟨hidx, hrgb.writeTriplet hp c, rowOk_afterPosition
      (List.nodup_cons.mpr ⟨hnd, hdnd⟩) hl (List.forall_mem_cons.mpr ⟨hlt, hdlt⟩) hf hrow⟩

/-! ### Host accesses -/

theorem reply_keeps_inv {U : Type} {r : Option U} {f : U → Except Refusal Reply}
    (he : reply r s f = .next t) : t.Inv := by
  obtain ⟨u, v, -, -, rfl⟩ := reply_next.mp he
  exact h.hostSide s.port s.inputs (v :: s.replies)

theorem hostWrBlk_keeps_inv {i : Nat} {v : Int} (hidle : IdleAt s .dctu s.port)
    (he : hostWrBlk i v s = .next t) : t.Inv := by
  obtain ⟨u, hu, hi, hv, rfl⟩ := hostWrBlk_next.mp he
  have hb : u.blk.Fits s.cfg.wElem := (h.atDctu hu).elements
  exact h.setDctu (.of_idle (hb.set ⟨i, hi⟩ hv) (hidle u hu))

theorem hostWrCmap_keeps_inv {ch : Channel} {i v : Nat} (he : hostWrCmap ch i v s = .next t) :
    t.Inv := by
  obtain ⟨-, hx, hf, hi, -, rfl⟩ := hostWrCmap_next.mp he
  refine h.setColormap hx h.len (fun ch' => ?_) fun hf' => absurd (hf.symm.trans hf') (by decide)
  by_cases hch : ch' = ch
  · subst hch
    rw [Colormap.channel_write_same]
    exact (h.colormap ch').write hi _
  · rw [Colormap.channel_write_other _ _ _ hch]
    exact h.colormap ch'

theorem hostWrIdx_keeps_inv {p v : Nat} (hidle : IdleAt s .cexu s.port)
    (he : hostWrIdx p v s = .next t) : t.Inv := by
  obtain ⟨u, hu, hp, -, rfl⟩ := hostWrIdx_next.mp he
  exact h.setCexu (.of_idle ((h.atCexu hu).idx.write hp _) (h.atCexu hu).rgb (hidle u hu))

theorem hostPrim_keeps_inv {p : HostPrim}
    (hidle : ∀ unit, p.unit = some unit → IdleAt s unit s.port) (he : hostPrim p s = .next t) :
    t.Inv := by
  cases p with
  | wrBlk i v => exact hostWrBlk_keeps_inv h (hidle _ rfl) he
  | wrCmap ch i v => exact hostWrCmap_keeps_inv h he
  | wrIdx p v => exact hostWrIdx_keeps_inv h (hidle _ rfl) he
  | rdBlk i => exact reply_keeps_inv h he
  | rdCmap ch i => exact reply_keeps_inv h he
  | rdIdx p => exact reply_keeps_inv h he
  | rdRgb k => exact reply_keeps_inv h he
  | rdCsr => exact reply_keeps_inv h (show hostRdCsr s = .next t from he)
  | issue w =>
    obtain ⟨i, hi, he⟩ := hostIssue_next.mp he
    exact exec_keeps_inv h (hidle _ (commandUnit_of_decode hi)) he

/-! ### The step -/

/-- What a primitive does to a settled replica, it does to a legal state. -/
theorem onceSettled_keeps_inv {unit : Option FuncUnit} {f : State → Host.Outcome State Fault Refusal}
    (hf : ∀ s', s'.Inv → (∀ v, unit = some v → IdleAt s' v s'.port) → f s' = .next t → t.Inv)
    (he : onceSettled unit s f = .next t) : t.Inv := by
  obtain ⟨s', hs, he⟩ := onceSettled_next.mp he
  refine hf s' (settle_keeps_inv h hs) (fun v hv => ?_) he
  subst hv
  exact settle_idleAt hs

theorem perform_keeps_inv {e : Event} (he : perform e s = .next t) : t.Inv := by
  have hport := fun k => h.hostSide k s.inputs s.replies
  cases e with
  | host k p =>
    exact onceSettled_keeps_inv (hport k) (fun _ h' hidle => hostPrim_keeps_inv h' hidle) he
  | start k w =>
    refine onceSettled_keeps_inv (hport k) (fun s' h' hidle he => ?_) he
    obtain ⟨i, hi, he⟩ := hostStart_next.mp he
    exact beginInstr_keeps_inv h' (hidle _ (commandUnit_of_decode hi)) he
  | work unit k j => exact hostWork_keeps_inv (hport k) he
  | reset => cases he; exact resetBlock_inv s

end

/-- Settles O12: every event keeps the state legal, and so does taking it off the list. -/
theorem stepKeepsTheStateInvariant : Obligations.StepKeepsTheStateInvariant := by
  intro s t h he
  rw [step] at he
  split at he
  · cases he; exact h
  · exact perform_keeps_inv (h.hostSide s.port _ s.replies) he

/-! ### What a step may write (R33) -/

/-- The pieces of state that may be written: of which replicas `BLK`, `IDX` and `RGB`, whether the
colormap, and which values of `CMAP_LEN` and `CMAP_FROZEN`. -/
structure Writes where
  blk : Nat → Prop
  idx : Nat → Prop
  rgb : Nat → Prop
  cmap : Prop
  regs : BitVec 9 → Bool → Prop

/-- From `s` to `t` nothing of R33's table has changed but what may be written, and no parameter. -/
structure ChangesOnly (w : Writes) (s t : State) : Prop where
  cfg : t.cfg = s.cfg
  blk : ∀ k, (t.dctus[k]?).map Dctu.blk = (s.dctus[k]?).map Dctu.blk ∨ w.blk k
  idx : ∀ k, (t.cexus[k]?).map Cexu.idx = (s.cexus[k]?).map Cexu.idx ∨ w.idx k
  rgb : ∀ k, (t.cexus[k]?).map Cexu.rgb = (s.cexus[k]?).map Cexu.rgb ∨ w.rgb k
  cmap : t.cmap = s.cmap ∨ w.cmap
  regs : (t.cmapLen = s.cmapLen ∧ t.cmapFrozen = s.cmapFrozen) ∨ w.regs t.cmapLen t.cmapFrozen

section
variable {w : Writes} {s t : State}

theorem ChangesOnly.trans {r : State} (h : ChangesOnly w s t) (h' : ChangesOnly w t r) :
    ChangesOnly w s r where
  cfg := h'.cfg.trans h.cfg
  blk k := (h'.blk k).elim (fun e => e ▸ h.blk k) .inr
  idx k := (h'.idx k).elim (fun e => e ▸ h.idx k) .inr
  rgb k := (h'.rgb k).elim (fun e => e ▸ h.rgb k) .inr
  cmap := h'.cmap.elim (fun e => e ▸ h.cmap) .inr
  regs := h'.regs.elim (fun ⟨el, ef⟩ => el ▸ ef ▸ h.regs) .inr

theorem ChangesOnly.refl (w : Writes) (s : State) : ChangesOnly w s s :=
  ⟨rfl, fun _ => .inl rfl, fun _ => .inl rfl, fun _ => .inl rfl, .inl rfl, .inl ⟨rfl, rfl⟩⟩

theorem ChangesOnly.setDctu {u u' : Dctu} (hu : AtDctu s u) (hb : u'.blk = u.blk ∨ w.blk s.port) :
    ChangesOnly w s (s.setDctu s.port u') where
  cfg := rfl
  blk k := by
    by_cases hk : k = s.port
    · subst hk
      rw [State.setDctu_same u' hu, show s.dctus[s.port]? = some u from hu]
      exact hb.imp_left (congrArg some)
    · exact .inl (congrArg _ (State.setDctu_other s u' hk))
  idx _ := .inl rfl
  rgb _ := .inl rfl
  cmap := .inl rfl
  regs := .inl ⟨rfl, rfl⟩

theorem ChangesOnly.setCexu {u u' : Cexu} (hu : AtCexu s u) (hi : u'.idx = u.idx ∨ w.idx s.port)
    (hr : u'.rgb = u.rgb ∨ w.rgb s.port) : ChangesOnly w s (s.setCexu s.port u') where
  cfg := rfl
  blk _ := .inl rfl
  idx k := by
    by_cases hk : k = s.port
    · subst hk
      rw [State.setCexu_same u' hu, show s.cexus[s.port]? = some u from hu]
      exact hi.imp_left (congrArg some)
    · exact .inl (congrArg _ (State.setCexu_other s u' hk))
  rgb k := by
    by_cases hk : k = s.port
    · subst hk
      rw [State.setCexu_same u' hu, show s.cexus[s.port]? = some u from hu]
      exact hr.imp_left (congrArg some)
    · exact .inl (congrArg _ (State.setCexu_other s u' hk))
  cmap := .inl rfl
  regs := .inl ⟨rfl, rfl⟩

/-- An operation may be carried out at the present port, as far as what it writes goes. -/
structure Writes.Allows (w : Writes) (s : State) (i : Instr) : Prop where
  blk : unitOf i = .dctu → w.blk s.port
  rgb : isExpansion i = true → w.rgb s.port
  publish : ∀ len, i = .cmapPublish len → w.regs len true
  release : i = .cmapRelease → w.regs s.cmapLen false

theorem exec_changesOnly {i : Instr} (hw : w.Allows s i) (he : exec i s = .next t) :
    ChangesOnly w s t := by
  have hdct (hi : unitOf i = .dctu) : ChangesOnly w s t := by
    obtain ⟨u, b, hu, rfl⟩ := exec_dctu_changesOnlyBlk hi he
    exact .setDctu hu (.inr (hw.blk hi))
  cases i with
  | dctRow r => exact hdct rfl
  | dctCol c => exact hdct rfl
  | dctFwdS => exact hdct rfl
  | dctFwdP => exact hdct rfl
  | cmapPublish len =>
    obtain ⟨-, -, -, -, -, rfl⟩ := execCmapPublish_next.mp he
    exact { ChangesOnly.refl w s with regs := .inr (hw.publish len rfl) }
  | cmapRelease =>
    obtain ⟨-, -, -, rfl⟩ := execCmapRelease_next.mp he
    exact { ChangesOnly.refl w s with regs := .inr (hw.release rfl) }
  | cexpPix p =>
    obtain ⟨u, c, hu, -, -, rfl⟩ := execCexpPix_next.mp he
    exact .setCexu hu (.inl rfl) (.inr (hw.rgb rfl))
  | cexpRowS n =>
    obtain ⟨u, rgb, hu, -, -, rfl⟩ := execCexpRowS_next.mp he
    exact .setCexu hu (.inl rfl) (.inr (hw.rgb rfl))
  | cexpRowP n =>
    obtain ⟨u, rgb, hu, -, -, rfl⟩ := execCexpRowP_next.mp he
    exact .setCexu hu (.inl rfl) (.inr (hw.rgb rfl))

/-- The beginning of an operation in pieces changes nothing but what is in progress. -/
theorem beginForward_changesOnly (he : beginForward s = .next t) : ChangesOnly w s t := by
  obtain ⟨u, hu, -, rfl⟩ := beginForward_next.mp he
  exact .setDctu hu (.inl rfl)

theorem beginRow_changesOnly {n : BitVec 16} (he : beginRow n s = .next t) : ChangesOnly w s t := by
  obtain ⟨u, hu, -, rfl⟩ := beginRow_next.mp he
  exact .setCexu hu (.inl rfl) (.inl rfl)

theorem beginInstr_changesOnly {i : Instr} (hw : w.Allows s i) (he : beginInstr i s = .next t) :
    ChangesOnly w s t := by
  cases i with
  | dctFwdS => exact beginForward_changesOnly he
  | dctFwdP => exact beginForward_changesOnly he
  | cexpRowS n => exact beginRow_changesOnly he
  | cexpRowP n => exact beginRow_changesOnly he
  | dctRow r => exact exec_changesOnly hw he
  | dctCol c => exact exec_changesOnly hw he
  | cmapPublish len => exact exec_changesOnly hw he
  | cmapRelease => exact exec_changesOnly hw he
  | cexpPix p => exact exec_changesOnly hw he

theorem reply_changesOnly {U : Type} {r : Option U} {f : U → Except Refusal Reply}
    (he : reply r s f = .next t) : ChangesOnly w s t := by
  obtain ⟨u, v, -, -, rfl⟩ := reply_next.mp he
  exact { ChangesOnly.refl w s with }

/-- A replica may go on with what it is in the middle of, as far as what that writes goes. -/
structure Writes.Continues (w : Writes) (s : State) (unit : FuncUnit) : Prop where
  blk : unit = .dctu → ∀ u pass done, AtDctu s u → u.progress = .forward pass done → w.blk s.port
  rgb : unit = .cexu → ∀ u n done, AtCexu s u → u.progress = .row n done → w.rgb s.port

theorem hostWork_changesOnly {unit : FuncUnit} {j : Nat} (hw : w.Continues s unit)
    (he : hostWork unit j s = .next t) : ChangesOnly w s t := by
  cases unit with
  | dctu =>
    obtain ⟨u, u', hu, -, hp, rfl⟩ := hostWork_dctu_next.mp he
    obtain ⟨pass, done, hpr, -⟩ := dctPiece_ok.mp hp
    exact .setDctu hu (.inr (hw.blk rfl u pass done hu hpr))
  | cexu =>
    obtain ⟨u, u', hu, hp, rfl⟩ := hostWork_cexu_next.mp he
    obtain ⟨n, done, c, hpr, -, -, -, -, rfl⟩ := cexPiece_ok.mp hp
    exact .setCexu hu (.inl rfl) (.inr (hw.rgb rfl u n done hu hpr))

theorem settle_changesOnly {unit : Option FuncUnit} (hw : ∀ v, unit = some v → w.Continues s v)
    (hs : settle unit s = .ok t) : ChangesOnly w s t := by
  match unit with
  | none => cases hs; exact .refl w s
  | some .dctu =>
    rcases settle_dctu.mp hs with ⟨-, rfl⟩ | ⟨u, u', hu, hf, rfl⟩
    · exact .refl w t
    · refine .setDctu hu ?_
      cases hp : u.progress with
      | idle => rw [Dctu.finish_idle _ hp] at hf; cases hf; exact .inl rfl
      | forward pass done => exact .inr ((hw _ rfl).blk rfl u pass done hu hp)
  | some .cexu =>
    rcases settle_cexu.mp hs with ⟨-, rfl⟩ | ⟨u, u', hu, hf, rfl⟩
    · exact .refl w t
    · refine .setCexu hu (.inl (Cexu.finish_progress hf).2) ?_
      cases hp : u.progress with
      | idle => rw [Cexu.finish_idle _ hp] at hf; cases hf; exact .inl rfl
      | row n done => exact .inr ((hw _ rfl).rgb rfl u n done hu hp)

/-- Completing an operation moves neither the present port nor `CMAP_LEN`. -/
theorem settle_port_cmapLen {unit : Option FuncUnit} (hs : settle unit s = .ok t) :
    t.port = s.port ∧ t.cmapLen = s.cmapLen := by
  match unit with
  | none => cases hs; exact ⟨rfl, rfl⟩
  | some .dctu => rcases settle_dctu.mp hs with ⟨-, rfl⟩ | ⟨u, u', hu, hf, rfl⟩ <;> exact ⟨rfl, rfl⟩
  | some .cexu => rcases settle_cexu.mp hs with ⟨-, rfl⟩ | ⟨u, u', hu, hf, rfl⟩ <;> exact ⟨rfl, rfl⟩

end

/-- `e` issues, at port `k`, an operation that `p` holds of. -/
def Event.Issues (e : Event) (k : Nat) (p : Instr → Bool) : Prop :=
  ∃ w i, (e = .host k (.issue w) ∨ e = .start k w) ∧ decode w = .ok i ∧ p i = true

/-- What R33 lets an event write in state `s`. -/
def Event.writes (e : Event) (s : State) : Writes where
  blk k := e.Issues k (fun i => unitOf i == .dctu) ∨ (∃ i v, e = .host k (.wrBlk i v)) ∨
    (∃ u pass done, s.dctus[k]? = some u ∧ u.progress = .forward pass done) ∧
      e.unit = some .dctu ∧ e.portNumber = some k
  idx k := ∃ p v, e = .host k (.wrIdx p v)
  rgb k := e.Issues k isExpansion ∨
    (∃ u n done, s.cexus[k]? = some u ∧ u.progress = .row n done) ∧
      e.unit = some .cexu ∧ e.portNumber = some k
  cmap := ∃ k ch i v, e = .host k (.wrCmap ch i v)
  regs l f := (f = true ∧ ∃ k, e.Issues k fun i => i == .cmapPublish l) ∨
    (l = s.cmapLen ∧ f = false ∧ ∃ k, e.Issues k fun i => i == .cmapRelease)

theorem Event.writes_allows {e : Event} {s s' : State} {k : Nat} {w : Word} {i : Instr}
    (he : e = .host k (.issue w) ∨ e = .start k w) (hi : decode w = .ok i) (hk : s'.port = k)
    (hl : s'.cmapLen = s.cmapLen) : (e.writes s).Allows s' i where
  blk h := .inl ⟨w, i, hk ▸ he, hi, by simp [h]⟩
  rgb h := .inl ⟨w, i, hk ▸ he, hi, h⟩
  publish len h := .inl ⟨rfl, k, w, i, he, hi, by simp [h]⟩
  release h := .inr ⟨hl, rfl, k, w, i, he, hi, by simp [h]⟩

theorem Event.writes_continues {e : Event} {s : State} {k : Nat} {unit : FuncUnit}
    (hu : e.unit = some unit) (hk : e.portNumber = some k) :
    (e.writes s).Continues { s with port := k } unit where
  blk hd u pass done hat hp := .inr (.inr ⟨⟨u, pass, done, hat, hp⟩, hd ▸ hu, hk⟩)
  rgb hc u n done hat hp := .inr ⟨⟨u, n, done, hat, hp⟩, hc ▸ hu, hk⟩

theorem hostPrim_changesOnly {s s' t : State} {k : Nat} {p : HostPrim} (hk : s'.port = k)
    (hl : s'.cmapLen = s.cmapLen) (he : hostPrim p s' = .next t) :
    ChangesOnly ((Event.host k p).writes s) s' t := by
  subst hk
  cases p with
  | wrBlk i v =>
    obtain ⟨u, hu, -, -, rfl⟩ := hostWrBlk_next.mp he
    exact .setDctu hu (.inr (.inr (.inl ⟨i, v, rfl⟩)))
  | wrCmap ch i v =>
    obtain ⟨-, -, -, -, -, rfl⟩ := hostWrCmap_next.mp he
    exact { ChangesOnly.refl _ s' with cmap := .inr ⟨_, ch, i, v, rfl⟩ }
  | wrIdx p v =>
    obtain ⟨u, hu, -, -, rfl⟩ := hostWrIdx_next.mp he
    exact .setCexu hu (.inr ⟨p, v, rfl⟩) (.inl rfl)
  | rdBlk i => exact reply_changesOnly he
  | rdCmap ch i => exact reply_changesOnly he
  | rdIdx p => exact reply_changesOnly he
  | rdRgb k => exact reply_changesOnly he
  | rdCsr => exact reply_changesOnly (show hostRdCsr s' = .next t from he)
  | issue w =>
    obtain ⟨i, hi, he⟩ := hostIssue_next.mp he
    exact exec_changesOnly (Event.writes_allows (.inl rfl) hi rfl hl) he

/-- R33 for any event but a reset. -/
theorem perform_changesOnly {e : Event} {s t : State} (hr : e ≠ .reset)
    (he : perform e s = .next t) : ChangesOnly (e.writes s) s t := by
  have hport (k : Nat) : ChangesOnly (e.writes s) s { s with port := k } :=
    { ChangesOnly.refl _ s with }
  cases e with
  | host k p =>
    obtain ⟨s', hs, he⟩ := onceSettled_next.mp he
    obtain ⟨hk, hl⟩ := settle_port_cmapLen hs
    have hset := settle_changesOnly (fun v hv => Event.writes_continues (e := .host k p) hv rfl) hs
    exact ((hport k).trans hset).trans (hostPrim_changesOnly hk hl he)
  | start k w =>
    obtain ⟨s', hs, he⟩ := onceSettled_next.mp he
    obtain ⟨hk, hl⟩ := settle_port_cmapLen hs
    have hset := settle_changesOnly (fun v hv => Event.writes_continues (e := .start k w) hv rfl) hs
    obtain ⟨i, hi, he⟩ := hostStart_next.mp he
    exact ((hport k).trans hset).trans
      (beginInstr_changesOnly (Event.writes_allows (.inr rfl) hi hk hl) he)
  | work unit k j =>
    exact (hport k).trans (hostWork_changesOnly (Event.writes_continues rfl rfl) he)
  | reset => exact absurd rfl hr

/-- Settles O13: no event but a reset changes a parameter, and a reset keeps them. -/
theorem stepNeverWritesTheParameters : Obligations.StepNeverWritesTheParameters := by
  intro s t he
  rw [step] at he
  split at he
  · cases he; rfl
  · rename_i e rest _
    by_cases hr : e = .reset
    · subst hr; cases he; rfl
    · exact (perform_changesOnly hr he).cfg

/-- Settles O52: R33's table for the event that the step performs. -/
theorem whoWritesWhat : Obligations.WhoWritesWhat := by
  intro s t e rest hin hr he issues
  have h : ChangesOnly (e.writes { s with inputs := rest }) { s with inputs := rest } t :=
    perform_changesOnly hr (by rwa [step, hin] at he)
  refine ⟨fun k u u' hu hu' hne => ?_, fun k u u' hu hu' => ⟨fun hne => ?_, fun hne => ?_⟩,
    h.cmap.resolve_left, fun hne => ?_, fun hne => ?_⟩
  · have hk := (h.blk k).resolve_left (by simpa [hu, hu'] using hne)
    refine hk.imp_right (Or.imp_right ?_)
    rintro ⟨⟨v, pass, done, hv, hp⟩, hat⟩
    cases hu.symm.trans hv
    exact ⟨⟨pass, done, hp⟩, hat⟩
  · exact (h.idx k).resolve_left (by simpa [hu, hu'] using hne)
  · have hk := (h.rgb k).resolve_left (by simpa [hu, hu'] using hne)
    refine hk.imp_right ?_
    rintro ⟨⟨v, n, done, hv, hp⟩, hat⟩
    cases hu.symm.trans hv
    exact ⟨⟨n, done, hp⟩, hat⟩
  · rcases h.regs with ⟨hl, -⟩ | ⟨-, hpub⟩ | ⟨hl, -⟩
    · exact absurd hl hne
    · exact hpub
    · exact absurd hl hne
  · rcases h.regs with ⟨-, hf⟩ | hpub | ⟨-, hrel⟩
    · exact absurd hf hne
    · exact .inl hpub
    · exact .inr hrel

/-! ### Pieces left (R204) -/

theorem piecesLeft_forward_le (pass : Stage) (done : List (BitVec 3)) :
    (DctProgress.forward pass done).piecesLeft ≤ 16 := by
  cases pass <;> simp only [DctProgress.piecesLeft] <;> omega

/-- Going on to the columns, or to the end, is no piece of its own. -/
theorem piecesLeft_afterLine {pass : Stage} {done : List (BitVec 3)} :
    (afterLine pass done).piecesLeft = (DctProgress.forward pass done).piecesLeft := by
  unfold afterLine
  split
  · cases pass <;> simp only [DctProgress.piecesLeft, List.length_nil] <;> omega
  · rfl

theorem piecesLeft_forward_cons {pass : Stage} {done : List (BitVec 3)} (n : BitVec 3)
    (hl : done.length < 8) :
    (DctProgress.forward pass (n :: done)).piecesLeft + 1 =
      (DctProgress.forward pass done).piecesLeft := by
  cases pass <;> simp only [DctProgress.piecesLeft, List.length_cons] <;> omega

theorem piecesLeft_afterPosition {n : BitVec 16} {done : List Nat} :
    (afterPosition n done).piecesLeft = n.toNat - done.length := by
  unfold afterPosition
  split
  · simp only [CexProgress.piecesLeft]; omega
  · rfl

/-- A line left of the pass can be the next piece. -/
theorem hostWork_dctu_line {s : State} {u : Dctu} {pass : Stage} {done : List (BitVec 3)}
    {n : BitVec 3} (hu : AtDctu s u) (hp : u.progress = .forward pass done) (hn : n ∉ done)
    (hr : LineReady s.cfg.precision pass n u.blk) :
    hostWork .dctu n.toNat s =
      .next (s.setDctu s.port ⟨transformLine s.cfg pass n u.blk, afterLine pass (n :: done)⟩) := by
  refine hostWork_dctu_next.mpr ⟨u, _, hu, n.isLt, ?_, rfl⟩
  rw [BitVec.ofNat_toNat, BitVec.setWidth_eq]
  exact dctPiece_ok.mpr ⟨pass, done, hp, hn, hr, rfl⟩

/-- A position left of the row can be the next piece. -/
theorem hostWork_cexu_position {s : State} {u : Cexu} {n : BitVec 16} {done : List Nat} {p : Nat}
    {c : Triplet} (hu : AtCexu s u) (hp : u.progress = .row n done) (hlt : p < n.toNat)
    (hn : p ∉ done) (hf : s.cmapFrozen = true) (hc : pixel s u p = .ok c) :
    hostWork .cexu p s =
      .next (s.setCexu s.port
        { u with rgb := writeTriplet u.rgb p c, progress := afterPosition n (p :: done) }) :=
  hostWork_cexu_next.mpr ⟨u, _, hu, cexPiece_ok.mpr ⟨n, done, c, hp, hlt, hn, hf, hc, rfl⟩, rfl⟩

/-- Settles O14: the invariant has what a piece requires, for every piece left. -/
theorem everyPieceLeftCompletes : Obligations.EveryPieceLeftCompletes := by
  intro s k h
  have h' : ({ s with port := k } : State).Inv := h.hostSide k s.inputs s.replies
  refine ⟨fun u pass done n hu hp hn => ?_, fun u n done p hu hp hlt hn => ?_⟩
  · have hok := (h'.atDctu hu).progress
    rw [hp] at hok
    obtain ⟨-, hl, -, hleft⟩ := hok.pass
    rw [hp]
    refine ⟨piecesLeft_forward_le pass done, _, _, hostWork_dctu_line hu hp hn (hleft n hn),
      State.setDctu_same _ hu, ?_⟩
    rw [piecesLeft_afterLine, piecesLeft_forward_cons n hl]
  · have hok := (h'.atCexu hu).progress
    rw [hp] at hok
    obtain ⟨-, hl, -, hf, -, hready⟩ := hok
    obtain ⟨c, hc⟩ := (hready p hlt).hasPixel (h'.frozen hf)
    rw [hp]
    refine ⟨Nat.sub_le .., _, _, hostWork_cexu_position hu hp hlt hn hf hc,
      State.setCexu_same _ hu, ?_⟩
    rw [piecesLeft_afterPosition, List.length_cons, CexProgress.piecesLeft]
    omega

/-! ### An operation in pieces, in any admitted order (R115, R145) -/

theorem afterLine_of_lt {pass : Stage} {done : List (BitVec 3)} (hl : done.length < 8) :
    afterLine pass done = .forward pass done := if_neg (by omega)

theorem afterLine_of_eight {done : List (BitVec 3)} (hl : done.length = 8) :
    afterLine .row done = afterLine .col [] ∧ afterLine .col done = .idle :=
  ⟨if_pos hl, if_pos hl⟩

/-- Lines left of a pass, one work event each, do what the pass over them does. -/
theorem performAll_lineWork {s : State} {u : Dctu} {pass : Stage} {ns done : List (BitVec 3)}
    {b b' : Block} (hu : AtDctu s u) (hl : done.length + ns.length ≤ 8) (hnd : (ns ++ done).Nodup)
    (hb : passChecked s.cfg pass ns b = .ok b') :
    performAll (ns.map fun n => Event.work .dctu s.port n.toNat)
        (s.setDctu s.port ⟨b, afterLine pass done⟩) =
      .next (s.setDctu s.port ⟨b', afterLine pass (ns.reverse ++ done)⟩) := by
  induction ns generalizing b done with
  | nil => cases hb; rfl
  | cons n ns ih =>
    rw [List.length_cons] at hl
    rw [List.cons_append, List.nodup_cons, List.mem_append, not_or] at hnd
    obtain ⟨⟨hn, hndone⟩, hnd⟩ := hnd
    rw [passChecked] at hb
    split at hb
    · rename_i b₁ hb₁
      obtain ⟨hr, rfl⟩ := transformChecked_ok.mp hb₁
      have hstep : perform (.work .dctu s.port n.toNat) (s.setDctu s.port ⟨b, afterLine pass done⟩) =
          .next (s.setDctu s.port ⟨transformLine s.cfg pass n b, afterLine pass (n :: done)⟩) :=
        (hostWork_dctu_line (s := s.setDctu s.port ⟨b, afterLine pass done⟩)
          (State.setDctu_same _ hu) (afterLine_of_lt (by omega)) hndone hr).trans
          (congrArg _ (State.setDctu_twice ..))
      rw [List.map_cons, performAll_cons_next hstep, List.reverse_cons, List.append_assoc]
      refine ih (by rw [List.length_cons]; omega) ?_ hb
      exact (List.perm_middle.nodup_iff).mpr (List.nodup_cons.mpr ⟨by simp [hn, hndone], hnd⟩)
    · cases hb

/-- A whole pass in some order of the lines. -/
theorem performAll_pass {s : State} {u : Dctu} {pass : Stage} {ns : List (BitVec 3)} {b : Block}
    (hu : AtDctu s u) (hns : ns.Perm eightLines)
    (hr : ∀ n, LineReady s.cfg.precision pass n b) :
    ∃ done : List (BitVec 3), done.length = 8 ∧
      performAll (ns.map fun n => Event.work .dctu s.port n.toNat)
        (s.setDctu s.port ⟨b, afterLine pass []⟩) =
        .next (s.setDctu s.port ⟨scalarPass s.cfg pass eightLines b, afterLine pass done⟩) := by
  have hnd : ns.Nodup := hns.nodup_iff.mpr eightLines_nodup
  have hl : ns.length = 8 := hns.length_eq
  refine ⟨ns.reverse ++ [], by simp [hl], ?_⟩
  rw [← scalarPass_perm s.cfg pass b hns hnd]
  exact performAll_lineWork hu (by simp [hl]) (by simpa using hnd)
    (passChecked_ok hnd fun n _ => hr n)

/-- The host's beginning of an operation at an idle replica. -/
theorem perform_start {s : State} {w : Word} {i : Instr} (hi : decode w = .ok i)
    (hidle : IdleAt s (unitOf i) s.port) : perform (.start s.port w) s = beginInstr i s := by
  have hset := onceSettled_idle (f := hostStart w) hidle
  simp only [hostStart, hi] at hset
  rw [← hset, ← commandUnit_of_decode hi]
  rfl

/-- Settles O34: the rows leave what the atomic pass leaves, which is where the columns begin. -/
theorem forwardInPiecesIsTheAtomicOperation : Obligations.ForwardInPiecesIsTheAtomicOperation := by
  intro s u i rs cs hi hu hidle hb hrs hcs
  have hexec : exec i s = .next (s.setDctu s.port ⟨forwardScalar s.cfg u.blk, .idle⟩) := by
    rcases hi with rfl | rfl
    · exact dctForward_next.mpr ⟨u, hu, hb, by rw [hidle]⟩
    · exact dctForward_next.mpr ⟨u, hu, hb, by rw [hidle, forwardParallel_eq]⟩
  have hstart : perform (.start s.port (encode i)) s =
      .next (s.setDctu s.port ⟨u.blk, afterLine .row []⟩) := by
    have hat : IdleAt s .dctu s.port := fun v hv => by cases hu.symm.trans hv; exact hidle
    have hbegin := beginForward_next.mpr ⟨u, hu, hb, rfl⟩
    rcases hi with rfl | rfl
    · exact (perform_start (i := .dctFwdS) (by decide) hat).trans hbegin
    · exact (perform_start (i := .dctFwdP) (by decide) hat).trans hbegin
  obtain ⟨done, hdone, hrows⟩ := performAll_pass hu hrs fun n => LineReady.of_block hb n
  obtain ⟨done', hdone', hcols⟩ := performAll_pass hu hcs
    fun n => lineReady_col_of_rowDone (rowDone_scalarPass hb) n
  rw [(afterLine_of_eight hdone).1] at hrows
  rw [(afterLine_of_eight hdone').2] at hcols
  refine ⟨_, hexec, ?_⟩
  rw [performAll_cons_next hstart, List.map_append]
  exact (performAll_append hrows).trans hcols

/-! ### A row in pieces -/

/-- Positions left of a row, one work event each, do what their expansion does. -/
theorem performAll_positionWork {s : State} {u : Cexu} {n : BitVec 16} {ps done : List Nat}
    {rgb rgb' : Memory} (hu : AtCexu s u) (hf : s.cmapFrozen = true)
    (hl : done.length + ps.length ≤ n.toNat) (hlt : ∀ p ∈ ps, p < n.toNat) (hnd : (ps ++ done).Nodup)
    (hx : expandScalar s u ps rgb = .ok rgb') :
    performAll (ps.map fun p => Event.work .cexu s.port p)
        (s.setCexu s.port { u with rgb := rgb, progress := afterPosition n done }) =
      .next (s.setCexu s.port
        { u with rgb := rgb', progress := afterPosition n (ps.reverse ++ done) }) := by
  induction ps generalizing rgb done with
  | nil => cases hx; rfl
  | cons p ps ih =>
    rw [List.length_cons] at hl
    rw [List.cons_append, List.nodup_cons, List.mem_append, not_or] at hnd
    obtain ⟨⟨hp, hpdone⟩, hnd⟩ := hnd
    obtain ⟨hpn, hlt⟩ := List.forall_mem_cons.mp hlt
    rw [expandScalar] at hx
    split at hx
    · rename_i c hc
      have hstep : perform (.work .cexu s.port p)
            (s.setCexu s.port { u with rgb := rgb, progress := afterPosition n done }) =
          .next (s.setCexu s.port
            { u with rgb := writeTriplet rgb p c, progress := afterPosition n (p :: done) }) :=
        (hostWork_cexu_position
          (s := s.setCexu s.port { u with rgb := rgb, progress := afterPosition n done })
          (State.setCexu_same _ hu) (if_neg (by omega)) hpn hpdone hf hc).trans
          (congrArg _ (State.setCexu_twice ..))
      rw [List.map_cons, performAll_cons_next hstep, List.reverse_cons, List.append_assoc]
      refine ih (by rw [List.length_cons]; omega) hlt ?_ hx
      exact (List.perm_middle.nodup_iff).mpr (List.nodup_cons.mpr ⟨by simp [hp, hpdone], hnd⟩)
    · cases hx

theorem decode_encode_cexpRow (n : BitVec 16) :
    decode (encode (.cexpRowS n)) = .ok (.cexpRowS n) ∧
      decode (encode (.cexpRowP n)) = .ok (.cexpRowP n) := by
  constructor <;>
    simp [decode, encode, decodeOp, zField_commandWord, opField_commandWord, stratField_commandWord,
      argField_commandWord]

/-- Settles O46: the positions in any order leave what the positions in ascending order leave. -/
theorem rowInPiecesIsTheAtomicOperation : Obligations.RowInPiecesIsTheAtomicOperation := by
  intro n i s u ps h hi hu hidle hf hrow hps
  have hr : requireRow s u n = .ok () := (requireRow_ok_iff_rowReady h.frozen).mpr ⟨hf, hrow⟩
  obtain ⟨-, -, hpix⟩ := requireRow_ok.mp hr
  obtain ⟨rgb, hrgb⟩ := expandScalar_isOk_of_requireRow hr u.rgb
  have hnd : ps.Nodup := hps.nodup_iff.mpr List.nodup_range
  have hmem : ∀ p ∈ ps, p < n.toNat := fun p hp => List.mem_range.mp (hps.mem_iff.mp hp)
  have hlen : ps.length = n.toNat := hps.length_eq.trans List.length_range
  have hexec : exec i s = .next (s.setCexu s.port { u with rgb := rgb }) := by
    have hS := execCexpRowS_next.mpr ⟨u, rgb, hu, hr, hrgb, rfl⟩
    rcases hi with rfl | rfl
    · exact hS
    · exact execCexpRowP_next_iff_execCexpRowS_next.mpr hS
  have hstart : perform (.start s.port (encode i)) s =
      .next (s.setCexu s.port { u with progress := afterPosition n [] }) := by
    have hat : IdleAt s .cexu s.port := fun v hv => by cases hu.symm.trans hv; exact hidle
    have hbegin := beginRow_next.mpr ⟨u, hu, hr, rfl⟩
    rcases hi with rfl | rfl
    · exact (perform_start (decode_encode_cexpRow n).1 hat).trans hbegin
    · exact (perform_start (decode_encode_cexpRow n).2 hat).trans hbegin
  obtain ⟨hwf, -⟩ := (h.atCexu hu).rgb
  have hx : expandScalar s u ps u.rgb = .ok rgb :=
    (expandScalar_perm hps hnd hwf fun p hp => hpix p (hmem p hp)).trans hrgb
  have hwork := performAll_positionWork hu hf (n := n) (done := []) (by simp [hlen]) hmem
    (by simpa using hnd) hx
  have hdone : afterPosition n (ps.reverse ++ []) = u.progress := by
    rw [hidle]
    exact if_pos (by simp [hlen])
  rw [hdone] at hwork
  exact ⟨_, hexec, (performAll_cons_next hstart).trans hwork⟩

/-! ### The constant tables and the status word (R24, R25, R28) -/

/-- Settles O17: each clause is a finite check of the twelve names. -/
theorem fixTablesFromTheLiterals : Obligations.FixTablesFromTheLiterals := by
  refine ⟨fun k => ?_, fun k => ?_, fun k => ?_, fun t k => ?_⟩
  · cases k <;> decide
  · cases k <;> decide
  · cases k <;> decide
  · cases t <;> cases k <;> decide

/-- R28, field by field. -/
theorem statusWord_fields (len : BitVec 9) (frozen : Bool) :
    (statusWord len frozen).extractLsb' 0 9 = len ∧
    (statusWord len frozen).extractLsb' 9 7 = 0 ∧
    (statusWord len frozen).extractLsb' 16 1 = BitVec.ofBool frozen ∧
    (statusWord len frozen).extractLsb' 17 15 = 0 := by
  have hhigh := extract_append_high (w := 23) (0#15 ++ BitVec.ofBool frozen ++ 0#7) len
  have hbit := extract_append_high (w := 16) (0#15 ++ BitVec.ofBool frozen) 0#7
  refine ⟨extract_append_low _ _, ?_, ?_, ?_⟩
  · exact (hhigh 0 7).trans (extract_append_low _ _)
  · exact ((hhigh 7 1).trans (hbit 0 1)).trans (extract_append_low _ _)
  · exact ((hhigh 8 15).trans (hbit 1 15)).trans
      ((extract_append_high (w := 15) 0#15 (BitVec.ofBool frozen) 0 15).trans
        BitVec.extractLsb'_eq_self)

/-- Settles O41, by the fields of the word and the rule of a read primitive. -/
theorem statusWordLayout : Obligations.StatusWordLayout := by
  refine ⟨fun s => statusWord_fields _ _, fun s u hu => ?_⟩
  exact (reply_next (f := fun _ => .ok (.status s.cmapStatus))).mpr ⟨u, _, hu, rfl, rfl⟩

end Sys2Proof.Machine
end

section
/-! PROOFS. 20_memory.md: the host primitives with their preconditions and frames (R53 to R55, R59), the
step that performs `HostIssue` (R54, R80), and no colormap write during an expansion (R66). -/

namespace Sys2Proof.Machine

/-! ### Commands that decode (R84, R85) -/

theorem decode_commandWord (op : BitVec 8) (strat : BitVec 1) (arg : BitVec 16) :
    decode (commandWord op strat arg) = decodeOp op strat arg := by
  simp only [decode, zField_commandWord, if_true, opField_commandWord, stratField_commandWord,
    argField_commandWord]

theorem operandI3_append (n : BitVec 3) (f : BitVec 3 → Instr) :
    operandI3 ((0 : BitVec 13) ++ n) f = .ok (f n) := by
  obtain ⟨hhigh, hlow⟩ := argI3 n
  rw [operandI3, if_pos hhigh, hlow]

theorem operandL9_append (n : BitVec 9) (f : BitVec 9 → Instr) :
    operandL9 ((0 : BitVec 7) ++ n) f =
      if n.toNat ≤ 256 then .ok (f n) else .error .publishLength := by
  obtain ⟨hhigh, hlow⟩ := argL9 n
  rw [operandL9, if_pos hhigh, hlow]

theorem decode_encode_cmapPublish (len : BitVec 9) :
    decode (encode (.cmapPublish len)) =
      if len.toNat ≤ 256 then .ok (.cmapPublish len) else .error .publishLength :=
  (decode_commandWord ..).trans (operandL9_append len _)

theorem decode_encode {i : Instr} (hi : i.wellFormed = true) : decode (encode i) = .ok i := by
  cases i with
  | dctRow r => exact (decode_commandWord ..).trans (operandI3_append r _)
  | dctCol c => exact (decode_commandWord ..).trans (operandI3_append c _)
  | dctFwdS => decide
  | dctFwdP => decide
  | cmapPublish len => rw [decode_encode_cmapPublish, if_pos (of_decide_eq_true hi)]
  | cmapRelease => decide
  | cexpPix p => exact decode_commandWord ..
  | cexpRowS n => exact (decode_encode_cexpRow n).1
  | cexpRowP n => exact (decode_encode_cexpRow n).2

/-! ### The step that performs `HostIssue` (R54, R59, R80) -/

theorem step_of_inputs {s : State} {e : Event} {rest : List Event} (h : s.inputs = e :: rest) :
    step s = perform e { s with inputs := rest } := by rw [step, h]

/-- Settles O8: `perform_issue` for the event at the head of the list. -/
theorem stepRunsTheIssuedOperation : Obligations.StepRunsTheIssuedOperation := by
  have hstep : ∀ (s : State) (k : Nat) (w : Word) (rest : List Event) (i : Instr),
      s.inputs = .host k (.issue w) :: rest → decode w = .ok i →
      step s = onceSettled (some (unitOf i)) { s with inputs := rest, port := k } (exec i) :=
    fun s k w rest i hin hi => (step_of_inputs hin).trans (perform_issue hi k _)
  refine ⟨fun s k w rest i hin hi => ⟨fun hidle => ?_, fun s' hs => ?_⟩, fun s i hi hidle => ?_⟩
  · rw [hstep s k w rest i hin hi]
    exact onceSettled_idle (s := { s with inputs := rest, port := k }) hidle
  · rw [hstep s k w rest i hin hi, onceSettled, hs]
  · have hw : BitVec.ofNat 32 ((encode i).toNat % 2 ^ 32) = encode i := by
      rw [Nat.mod_eq_of_lt (encode i).isLt, BitVec.ofNat_toNat, BitVec.setWidth_eq]
    rw [hstep _ s.port (encode i) s.inputs i (by rw [State.withFetchWord_inputs, hw])
      (decode_encode hi)]
    exact onceSettled_idle hidle

/-! ### Reads of one element (R54, R55) -/

/-- Everything `HostRdBLK` can do. -/
theorem hostRdBlk_next {i : Nat} {s t : State} :
    hostRdBlk i s = .next t ↔
      ∃ u v, AtDctu s u ∧ (∃ h : i < 64, u.blk.get ⟨i, h⟩ = some v) ∧
        t = { s with replies := .elem v :: s.replies } := by
  simp only [hostRdBlk, reply_next]
  constructor
  · rintro ⟨u, r, hu, h, rfl⟩
    split at h
    · rename_i hi
      split at h
      · rename_i v hv; cases h; exact ⟨u, v, hu, ⟨hi, hv⟩, rfl⟩
      · cases h
    · cases h
  · rintro ⟨u, v, hu, ⟨hi, hv⟩, rfl⟩
    exact ⟨u, _, hu, by rw [dif_pos hi, hv], rfl⟩

/-- Everything a read of a byte space can do. -/
theorem reply_readByte_next {U : Type} {r : Option U} {m : U → Memory} {size i : Nat} {s t : State} :
    reply r s (fun u => readByte (m u) size i) = .next t ↔
      ∃ u v, r = some u ∧ i < size ∧ (m u).read i = some v ∧
        t = { s with replies := .byte v :: s.replies } := by
  simp only [reply_next, readByte_ok]
  constructor
  · rintro ⟨u, -, hu, ⟨hi, v, hv, rfl⟩, rfl⟩
    exact ⟨u, v, hu, hi, hv, rfl⟩
  · rintro ⟨u, v, hu, hi, hv, rfl⟩
    exact ⟨u, _, hu, ⟨hi, v, hv, rfl⟩, rfl⟩

theorem hostRdCmap_next {ch : Channel} {i : Nat} {s t : State} :
    hostRdCmap ch i s = .next t ↔
      ∃ u v, AtCexu s u ∧ i < cmapDepth ∧ (s.cmap.channel ch).read i = some v ∧
        t = { s with replies := .byte v :: s.replies } :=
  reply_readByte_next

theorem hostRdIdx_next {p : Nat} {s t : State} :
    hostRdIdx p s = .next t ↔
      ∃ u v, AtCexu s u ∧ p < s.cfg.maxRow.toNat ∧ u.idx.read p = some v ∧
        t = { s with replies := .byte v :: s.replies } :=
  reply_readByte_next (m := Cexu.idx)

theorem hostRdRgb_next {k : Nat} {s t : State} :
    hostRdRgb k s = .next t ↔
      ∃ u v, AtCexu s u ∧ k < 3 * s.cfg.maxRow.toNat ∧ u.rgb.read k = some v ∧
        t = { s with replies := .byte v :: s.replies } :=
  reply_readByte_next (m := Cexu.rgb)

/-- A read leaves what the same read needs, and it gives the same value. -/
theorem reply_repeats {U : Type} {r : Option U} {s t : State} {f : U → Except Refusal Reply}
    (h : reply r s f = .next t) :
    ∃ v, t = { s with replies := v :: s.replies } ∧
      reply r t f = .next { t with replies := v :: t.replies } := by
  obtain ⟨u, v, hu, hv, rfl⟩ := reply_next.mp h
  exact ⟨v, rfl, reply_next.mpr ⟨u, v, hu, hv, rfl⟩⟩

/-- Settles O54, for each of the five reads by the rule of a read primitive. -/
theorem readsHaveNoSideEffect : Obligations.ReadsHaveNoSideEffect := by
  intro p s t hp h
  cases p with
  | rdBlk i => obtain ⟨v, rfl, hv⟩ := reply_repeats h; exact ⟨v, rfl, hv⟩
  | rdCmap ch i => obtain ⟨v, rfl, hv⟩ := reply_repeats h; exact ⟨v, rfl, hv⟩
  | rdIdx p => obtain ⟨v, rfl, hv⟩ := reply_repeats h; exact ⟨v, rfl, hv⟩
  | rdRgb k => obtain ⟨v, rfl, hv⟩ := reply_repeats h; exact ⟨v, rfl, hv⟩
  | rdCsr =>
    obtain ⟨v, rfl, hv⟩ := reply_repeats (show hostRdCsr s = .next t from h)
    exact ⟨v, rfl, hv⟩
  | wrBlk _ _ | wrCmap _ _ _ | wrIdx _ _ | issue _ => exact hp.elim

/-! ### Each access with its precondition and frame (R53, R54) -/

theorem AtDctu.unique {s : State} {u v : Dctu} (hu : AtDctu s u) (hv : AtDctu s v) : u = v :=
  Option.some.inj (hu.symm.trans hv)

theorem AtCexu.unique {s : State} {u v : Cexu} (hu : AtCexu s u) (hv : AtCexu s v) : u = v :=
  Option.some.inj (hu.symm.trans hv)

/-- Settles O55, from what the two primitives can do. -/
theorem hostBlockAccess : Obligations.HostBlockAccess := by
  intro s u hu
  refine ⟨fun i v hlow hhigh => ⟨u.blk.set i v, ?_, ?_, fun j hj => ⟨?_, ?_⟩⟩, fun i v hv => ?_,
    fun i v hbad => (refuses_iff _).mpr fun t ht => ?_,
    fun i hnone => (refuses_iff _).mpr fun t ht => ?_, fun i hi => (refuses_iff _).mpr fun t ht => ?_⟩
  · exact hostWrBlk_next.mpr ⟨u, hu, i.isLt, (inElem_iff ..).mpr ⟨hlow, hhigh⟩, rfl⟩
  · rw [Block.get_set, if_pos rfl]
  · rw [Block.set_val, if_neg (Ne.symm hj)]
  · rw [Block.set_defd, decide_eq_false (Ne.symm hj), Bool.false_or]
  · exact hostRdBlk_next.mpr ⟨u, v, hu, ⟨i.isLt, hv⟩, rfl⟩
  · obtain ⟨-, -, hi, hv, -⟩ := hostWrBlk_next.mp ht
    obtain ⟨hlow, hhigh⟩ := (inElem_iff ..).mp hv
    omega
  · obtain ⟨u', v, hu', ⟨_, hv⟩, -⟩ := hostRdBlk_next.mp ht
    rw [hu.unique hu'] at hnone
    exact Option.some_ne_none v (hv.symm.trans hnone)
  · obtain ⟨-, -, -, ⟨hlt, -⟩, -⟩ := hostRdBlk_next.mp ht
    omega

/-- Settles O56, from what the two primitives can do. -/
theorem hostColormapAccess : Obligations.HostColormapAccess := by
  intro s u ch hu
  have hdepth : cmapDepth = 256 := rfl
  refine ⟨fun i v hi hv hf hx => ⟨s.cmap.write ch i (BitVec.ofNat 8 v), ?_, ?_, fun ch' j hne => ?_⟩,
    fun i v hi hv => ?_, fun i v hbad => (refuses_iff _).mpr fun t ht => ?_,
    fun i hbad => (refuses_iff _).mpr fun t ht => ?_⟩
  · exact hostWrCmap_next.mpr ⟨⟨u, hu⟩, hx, hf, by omega, hv, rfl⟩
  · rw [Colormap.channel_write_same, Memory.read_write_same]
  · by_cases hch : ch' = ch
    · subst hch
      rw [Colormap.channel_write_same, Memory.read_write_other _ _ (hne.resolve_left (· rfl))]
    · rw [Colormap.channel_write_other _ _ _ hch]
  · exact hostRdCmap_next.mpr ⟨u, v, hu, by omega, hv, rfl⟩
  · obtain ⟨-, hx, hf, hi, hv, -⟩ := hostWrCmap_next.mp ht
    rw [hx, hf] at hbad
    simp only [Bool.false_eq_true, or_false] at hbad
    omega
  · obtain ⟨-, v, -, hi, hv, -⟩ := hostRdCmap_next.mp ht
    rw [hv] at hbad
    simp only [reduceCtorEq, or_false] at hbad
    omega

/-- Settles O57, from what the three primitives can do. -/
theorem hostRowBufferAccess : Obligations.HostRowBufferAccess := by
  intro s u hu
  refine ⟨fun p v hp hv => ⟨u.idx.write p (BitVec.ofNat 8 v), ?_, Memory.read_write_same .., ?_⟩,
    fun p v hp hv => hostRdIdx_next.mpr ⟨u, v, hu, hp, hv, rfl⟩,
    fun k v hk hv => hostRdRgb_next.mpr ⟨u, v, hu, hk, hv, rfl⟩,
    fun p v hbad => (refuses_iff _).mpr fun t ht => ?_,
    fun p hbad => (refuses_iff _).mpr fun t ht => ?_,
    fun k hbad => (refuses_iff _).mpr fun t ht => ?_⟩
  · exact hostWrIdx_next.mpr ⟨u, hu, hp, hv, rfl⟩
  · exact fun q hq => Memory.read_write_other _ _ hq
  · obtain ⟨-, -, hp, hv, -⟩ := hostWrIdx_next.mp ht
    omega
  · obtain ⟨u', v, hu', hp, hv, -⟩ := hostRdIdx_next.mp ht
    rw [hu.unique hu', hv] at hbad
    simp only [reduceCtorEq, or_false] at hbad
    omega
  · obtain ⟨u', v, hu', hk, hv, -⟩ := hostRdRgb_next.mp ht
    rw [hu.unique hu', hv] at hbad
    simp only [reduceCtorEq, or_false] at hbad
    omega

/-! ### A read after a write (R59) -/

/-- Completing an operation touches neither the colormap's entries nor what the host has read. -/
theorem settle_cmap_replies {unit : Option FuncUnit} {s t : State} (hs : settle unit s = .ok t) :
    t.cmap = s.cmap ∧ t.replies = s.replies := by
  match unit with
  | none => cases hs; exact ⟨rfl, rfl⟩
  | some .dctu => rcases settle_dctu.mp hs with ⟨-, rfl⟩ | ⟨u, u', -, -, rfl⟩ <;> exact ⟨rfl, rfl⟩
  | some .cexu => rcases settle_cexu.mp hs with ⟨-, rfl⟩ | ⟨u, u', -, -, rfl⟩ <;> exact ⟨rfl, rfl⟩

/-- A host primitive acts on the state in which its replica is settled, which has the same colormap and
the same replies. -/
theorem perform_host_next {k : Nat} {p : HostPrim} {s t : State}
    (h : perform (.host k p) s = .next t) :
    ∃ s', settle p.unit { s with port := k } = .ok s' ∧ s'.port = k ∧ s'.cmap = s.cmap ∧
      s'.replies = s.replies ∧ hostPrim p s' = .next t := by
  obtain ⟨s', hs, h⟩ := onceSettled_next.mp h
  obtain ⟨hport, -⟩ := settle_port_cmapLen hs
  obtain ⟨hcmap, hreplies⟩ := settle_cmap_replies hs
  exact ⟨s', hs, hport, hcmap, hreplies, h⟩

theorem idleAt_dctu {s : State} {k : Nat} {u : Dctu} (hu : s.dctus[k]? = some u)
    (hp : u.progress = .idle) : IdleAt s .dctu k := fun v hv => by
  cases hu.symm.trans hv
  exact hp

theorem idleAt_cexu {s : State} {k : Nat} {u : Cexu} (hu : s.cexus[k]? = some u)
    (hp : u.progress = .idle) : IdleAt s .cexu k := fun v hv => by
  cases hu.symm.trans hv
  exact hp

theorem performAll_pair {e f : Event} {s t : State} :
    performAll [e, f] s = .next t ↔ ∃ r, perform e s = .next r ∧ perform f r = .next t := by
  simp only [performAll]
  cases perform e s with
  | next r => cases hf : perform f r <;> simp [hf]
  | fault x => simp
  | refused x => simp

/-- Settles O58: a write leaves its replica between operations, and completing an operation writes no
colormap entry, so the read finds what was written. -/
theorem readAfterWrite : Obligations.ReadAfterWrite := by
  intro s t j k
  refine ⟨fun i v h => ?_, fun p v h => ?_, fun ch i v h => ?_⟩
  · obtain ⟨r, hw, hr⟩ := performAll_pair.mp h
    obtain ⟨s', hs, rfl, -, hreplies, hw⟩ := perform_host_next hw
    obtain ⟨u, hu, hi, -, rfl⟩ := hostWrBlk_next.mp hw
    have hat := State.setDctu_same { u with blk := u.blk.set ⟨i, hi⟩ v } hu
    have hidle := idleAt_dctu hat (settle_idleAt hs u hu)
    obtain ⟨u', x, hu', ⟨_, hx⟩, rfl⟩ := hostRdBlk_next.mp ((onceSettled_idle hidle).symm.trans hr)
    cases hat.symm.trans hu'
    rw [Block.get_set, if_pos rfl] at hx
    cases hx
    exact congrArg _ hreplies
  · obtain ⟨r, hw, hr⟩ := performAll_pair.mp h
    obtain ⟨s', hs, rfl, -, hreplies, hw⟩ := perform_host_next hw
    obtain ⟨u, hu, -, -, rfl⟩ := hostWrIdx_next.mp hw
    have hat := State.setCexu_same { u with idx := u.idx.write p (BitVec.ofNat 8 v) } hu
    have hidle := idleAt_cexu hat (settle_idleAt hs u hu)
    obtain ⟨u', x, hu', -, hx, rfl⟩ := hostRdIdx_next.mp ((onceSettled_idle hidle).symm.trans hr)
    cases hat.symm.trans hu'
    rw [Memory.read_write_same] at hx
    cases hx
    exact congrArg _ hreplies
  · obtain ⟨r, hw, hr⟩ := performAll_pair.mp h
    obtain ⟨s', -, -, -, hreplies, hw⟩ := perform_host_next hw
    obtain ⟨-, -, -, -, -, rfl⟩ := hostWrCmap_next.mp hw
    obtain ⟨r', -, -, hcmap, hreplies', hr⟩ := perform_host_next hr
    obtain ⟨u, x, -, -, hx, rfl⟩ := hostRdCmap_next.mp hr
    rw [hcmap, Colormap.channel_write_same, Memory.read_write_same] at hx
    cases hx
    exact congrArg _ (hreplies'.trans hreplies)

/-! ### The colormap during an expansion (R66, R142) -/

/-- Completing an operation of another replica leaves an expansion in progress. -/
theorem settle_anyExpanding {s t : State} {j : Nat} {u : Cexu} (hs : settle (some .cexu) s = .ok t)
    (hj : j ≠ s.port) (hu : s.cexus[j]? = some u) (hp : u.progress ≠ .idle) :
    t.anyExpanding = true := by
  have ht : t.cexus[j]? = some u := by
    rcases settle_cexu.mp hs with ⟨-, rfl⟩ | ⟨v, v', -, -, rfl⟩
    · exact hu
    · exact (State.setCexu_other s v' hj).trans hu
  by_contra hx
  exact hp (idle_of_not_anyExpanding (by simpa using hx) (List.mem_of_getElem? ht))

/-- What waits for the replica and then requires that nobody expands is refused while another does. -/
theorem onceSettled_refuses_of_expanding {s : State} {j : Nat} {u : Cexu}
    {f : State → Host.Outcome State Fault Refusal}
    (hf : ∀ s' t, f s' = .next t → s'.anyExpanding = false) (hj : j ≠ s.port)
    (hu : s.cexus[j]? = some u) (hp : u.progress ≠ .idle) :
    Refuses (onceSettled (some .cexu) s f) := by
  refine (refuses_iff _).mpr fun t ht => ?_
  obtain ⟨s', hs, ht⟩ := onceSettled_next.mp ht
  exact Bool.false_ne_true ((hf s' t ht).symm.trans (settle_anyExpanding hs hj hu hp))

/-- `HostIssue` of a reserved word (R86). -/
theorem perform_issue_reserved {w : Word} {why : Reserved} (h : decode w = .error why) (k : Nat)
    (s : State) : Refuses (perform (.host k (.issue w)) s) :=
  ⟨.reservedEncoding why, by
    simp only [perform, HostPrim.unit, commandUnit, h, onceSettled, settle, hostPrim, hostIssue]⟩

/-- Settles O60: the three require, of the settled state, that nobody expands. A `CMAP_PUBLISH` that has
no encoding is refused as reserved. -/
theorem noColormapWriteDuringAnExpansion : Obligations.NoColormapWriteDuringAnExpansion := by
  intro s j k u ch i v len hjk hu hp
  have hrefuse (f : State → Host.Outcome State Fault Refusal)
      (hf : ∀ s' t, f s' = .next t → s'.anyExpanding = false) :
      Refuses (onceSettled (some .cexu) { s with port := k } f) :=
    onceSettled_refuses_of_expanding hf hjk hu hp
  have hrelease := hrefuse (exec .cmapRelease) fun s' t ht => by
    obtain ⟨-, hx, -⟩ := execCmapRelease_next.mp ht
    exact hx
  have hpublish := hrefuse (exec (.cmapPublish len)) fun s' t ht => by
    obtain ⟨-, hx, -⟩ := execCmapPublish_next.mp ht
    exact hx
  refine ⟨hrefuse (hostWrCmap ch i v) fun s' t ht => ?_, ?_, ?_⟩
  · obtain ⟨-, hx, -⟩ := hostWrCmap_next.mp ht
    exact hx
  · have hdec := decode_encode_cmapPublish len
    split at hdec
    · rwa [perform_issue hdec]
    · exact perform_issue_reserved hdec k s
  · rwa [perform_issue (decode_encode rfl)]

end Sys2Proof.Machine
end

section
/-! PROOFS. 20_memory.md: which events commute (R61, R66, R184). Each is an action at the port of one
replica; what it reads and writes decides what it commutes with. -/

namespace Sys2Proof.Machine

/-! ### Actions -/

/-- What a host primitive, an operation or a piece of one does to the state, by the present port. -/
abbrev Action := State → Host.Outcome State Fault Refusal

/-- The action by port `k`. -/
def Action.atPort (F : Action) (k : Nat) : Action := fun s => F { s with port := k }

/-- The host is handed the replies `rs`, latest first. -/
def State.addReplies (s : State) (rs : List Reply) : State := { s with replies := rs ++ s.replies }

/-- What every replica sees of the state: the parameters and the shared colormap. -/
def State.shared (s : State) : State :=
  { s with dctus := [], cexus := [], port := 0, inputs := [], replies := [] }

/-- The action completes by what `R` says of the parameters and of the DCT unit at the present port
alone; it writes that unit, and hands the host the replies `rs`. -/
def ActsOnDctu (F : Action) : Prop :=
  ∃ R : Config → Dctu → Dctu → List Reply → Prop, ∀ s t, F s = .next t ↔
    ∃ u u' rs, AtDctu s u ∧ R s.cfg u u' rs ∧
      t = (s.setDctu s.port u').addReplies rs

/-- The same of the colour-expansion unit at the present port; it may also read what is shared. -/
def ActsOnCexu (F : Action) : Prop :=
  ∃ R : State → Cexu → Cexu → List Reply → Prop, ∀ s t, F s = .next t ↔
    ∃ u u' rs, AtCexu s u ∧ R s.shared u u' rs ∧
      t = (s.setCexu s.port u').addReplies rs

/-- The action leaves the parameters and the DCT units as they are, and depends neither on the DCT units
nor on the host's earlier replies. -/
def ApartFromDctus (F : Action) : Prop :=
  ∀ s t, F s = .next t → t.cfg = s.cfg ∧ t.dctus = s.dctus ∧ ∃ rs, t.replies = rs ++ s.replies ∧
    ∀ ds rs₀, F { s with dctus := ds, replies := rs₀ } =
      .next { t with dctus := ds, replies := rs ++ rs₀ }

theorem ActsOnCexu.apartFromDctus {F : Action} (hF : ActsOnCexu F) : ApartFromDctus F := by
  obtain ⟨R, hR⟩ := hF
  intro s t h
  obtain ⟨u, u', rs, hu, hr, rfl⟩ := (hR s t).mp h
  exact ⟨rfl, rfl, rs, rfl, fun ds rs₀ => (hR _ _).mpr ⟨u, u', rs, hu, hr, rfl⟩⟩

/-! ### Which actions commute -/

/-- The two states agree but for the last port's number and the order of the host's replies. -/
def AgreeOnBlock (t' t : State) : Prop :=
  t'.replies.Perm t.replies ∧ { t' with port := t.port, replies := t.replies } = t

/-- `G` after `F` can be turned into `F` after `G`. -/
def Commutes (F G : Action) : Prop :=
  ∀ s r t, F s = .next r → G r = .next t →
    ∃ r' t', G s = .next r' ∧ F r' = .next t' ∧ AgreeOnBlock t' t

section
variable {F G : Action} {j k : Nat}

theorem ActsOnDctu.commutes_other (hF : ActsOnDctu F) (hG : ActsOnDctu G) (hjk : j ≠ k) :
    Commutes (F.atPort j) (G.atPort k) := by
  obtain ⟨R, hR⟩ := hF
  obtain ⟨Q, hQ⟩ := hG
  intro s r t hr ht
  obtain ⟨u, u', rs, hu, hruu, rfl⟩ := (hR _ _).mp hr
  obtain ⟨v, v', qs, hv, hqvv, rfl⟩ := (hQ _ _).mp ht
  have hv' : s.dctus[k]? = some v := (State.setDctu_other s u' hjk.symm).symm.trans hv
  have hu' : (s.setDctu k v').dctus[j]? = some u := (State.setDctu_other s v' hjk).trans hu
  refine ⟨_, _, (hQ _ _).mpr ⟨v, v', qs, hv', hqvv, rfl⟩,
    (hR _ _).mpr ⟨u, u', rs, hu', hruu, rfl⟩, ?_, ?_⟩
  · exact List.perm_append_comm_assoc ..
  · simp only [State.setDctu, State.addReplies, List.set_comm u' v' hjk]

theorem ActsOnCexu.commutes_other (hF : ActsOnCexu F) (hG : ActsOnCexu G) (hjk : j ≠ k) :
    Commutes (F.atPort j) (G.atPort k) := by
  obtain ⟨R, hR⟩ := hF
  obtain ⟨Q, hQ⟩ := hG
  intro s r t hr ht
  obtain ⟨u, u', rs, hu, hruu, rfl⟩ := (hR _ _).mp hr
  obtain ⟨v, v', qs, hv, hqvv, rfl⟩ := (hQ _ _).mp ht
  have hv' : s.cexus[k]? = some v := (State.setCexu_other s u' hjk.symm).symm.trans hv
  have hu' : (s.setCexu k v').cexus[j]? = some u := (State.setCexu_other s v' hjk).trans hu
  refine ⟨_, _, (hQ _ _).mpr ⟨v, v', qs, hv', hqvv, rfl⟩,
    (hR _ _).mpr ⟨u, u', rs, hu', hruu, rfl⟩, ?_, ?_⟩
  · exact List.perm_append_comm_assoc ..
  · simp only [State.setCexu, State.addReplies, List.set_comm u' v' hjk]

/-- An action that is apart from the DCT units does the same after one that changes only them. -/
theorem ActsOnDctu.commutes (hF : ActsOnDctu F) (hG : ApartFromDctus G) :
    Commutes (F.atPort j) (G.atPort k) := by
  obtain ⟨R, hR⟩ := hF
  intro s r t hr ht
  obtain ⟨u, u', rs, hu, hruu, rfl⟩ := (hR _ _).mp hr
  obtain ⟨hcfg, hdctus, qs, hreplies, hG⟩ := hG _ _ ht
  refine ⟨_, _, hG s.dctus s.replies, (hR _ _).mpr ⟨u, u', rs, hu, hcfg ▸ hruu, rfl⟩, ?_, ?_⟩
  · rw [hreplies]
    exact List.perm_append_comm_assoc ..
  · exact congrArg (fun ds => { t with dctus := ds }) hdctus.symm

theorem ApartFromDctus.commutes (hG : ApartFromDctus G) (hF : ActsOnDctu F) :
    Commutes (G.atPort k) (F.atPort j) := by
  obtain ⟨R, hR⟩ := hF
  intro s r t hr ht
  obtain ⟨hcfg, hdctus, qs, hreplies, hG⟩ := hG _ _ hr
  obtain ⟨u, u', rs, hu, hruu, rfl⟩ := (hR _ _).mp ht
  have hu' : s.dctus[j]? = some u := hdctus ▸ hu
  refine ⟨_, _, (hR _ _).mpr ⟨u, u', rs, hu', hcfg ▸ hruu, rfl⟩,
    hG (s.dctus.set j u') (rs ++ s.replies), ?_, ?_⟩
  · simp only [State.addReplies, hreplies]
    exact List.perm_append_comm_assoc ..
  · simp only [State.addReplies, State.setDctu, hdctus]

end

/-! ### Actions on one replica -/

/-- An operation or host access on a DCT unit reads only the parameters besides. -/
theorem actsOnDctu_onDctu {f : State → Dctu → Except Refusal Dctu}
    (hf : ∀ s, f s = f (State.resetOf s.cfg)) : ActsOnDctu fun s => onDctu s (f s) := by
  refine ⟨fun c u u' rs => f (State.resetOf c) u = .ok u' ∧ rs = [], fun s t => ?_⟩
  rw [onDctu_next, hf s]
  constructor
  · rintro ⟨u, u', hu, h, rfl⟩
    exact ⟨u, u', [], hu, ⟨h, rfl⟩, rfl⟩
  · rintro ⟨u, u', -, hu, ⟨h, rfl⟩, rfl⟩
    exact ⟨u, u', hu, h, rfl⟩

theorem actsOnDctu_reply {f : State → Dctu → Except Refusal Reply}
    (hf : ∀ s, f s = f (State.resetOf s.cfg)) :
    ActsOnDctu fun s => reply s.dctus[s.port]? s (f s) := by
  refine ⟨fun c u u' rs => u' = u ∧ ∃ v, f (State.resetOf c) u = .ok v ∧ rs = [v], fun s t => ?_⟩
  rw [reply_next, hf s]
  constructor
  · rintro ⟨u, v, hu, h, rfl⟩
    exact ⟨u, u, [v], hu, ⟨rfl, v, h, rfl⟩, by rw [State.setDctu_self hu]; rfl⟩
  · rintro ⟨u, _, _, hu, ⟨rfl, v, h, rfl⟩, rfl⟩
    exact ⟨_, v, hu, h, by rw [State.setDctu_self hu]; rfl⟩

theorem actsOnDctu_onceSettled {F : Action} (hF : ActsOnDctu F) :
    ActsOnDctu fun s => onceSettled (some .dctu) s F := by
  obtain ⟨R, hR⟩ := hF
  refine ⟨fun c u u' rs => ∃ v, u.finish c = .ok v ∧ R c v u' rs, fun s t => ?_⟩
  simp only [onceSettled_next, hR]
  constructor
  · rintro ⟨s', hs, v, u', rs, hv, hr, rfl⟩
    rcases settle_dctu.mp hs with ⟨hn, rfl⟩ | ⟨u, w, hu, hf, rfl⟩
    · cases hn.symm.trans hv
    · cases (State.setDctu_same w hu).symm.trans hv
      exact ⟨u, u', rs, hu, ⟨_, hf, hr⟩, by rw [State.setDctu_port, State.setDctu_twice]⟩
  · rintro ⟨u, u', rs, hu, ⟨v, hf, hr⟩, rfl⟩
    refine ⟨s.setDctu s.port v, settle_dctu.mpr (.inr ⟨u, v, hu, hf, rfl⟩), v, u', rs,
      State.setDctu_same v hu, hr, ?_⟩
    rw [State.setDctu_port, State.setDctu_twice]

/-- An operation or host access on a colour-expansion unit reads only what is shared besides. -/
theorem actsOnCexu_onCexu {f : State → Cexu → Except Refusal Cexu} (hf : ∀ s, f s = f s.shared) :
    ActsOnCexu fun s => onCexu s (f s) := by
  refine ⟨fun c u u' rs => f c u = .ok u' ∧ rs = [], fun s t => ?_⟩
  rw [onCexu_next, hf s]
  constructor
  · rintro ⟨u, u', hu, h, rfl⟩
    exact ⟨u, u', [], hu, ⟨h, rfl⟩, rfl⟩
  · rintro ⟨u, u', -, hu, ⟨h, rfl⟩, rfl⟩
    exact ⟨u, u', hu, h, rfl⟩

theorem actsOnCexu_reply {f : State → Cexu → Except Refusal Reply} (hf : ∀ s, f s = f s.shared) :
    ActsOnCexu fun s => reply s.cexus[s.port]? s (f s) := by
  refine ⟨fun c u u' rs => u' = u ∧ ∃ v, f c u = .ok v ∧ rs = [v], fun s t => ?_⟩
  rw [reply_next, hf s]
  constructor
  · rintro ⟨u, v, hu, h, rfl⟩
    exact ⟨u, u, [v], hu, ⟨rfl, v, h, rfl⟩, by rw [State.setCexu_self hu]; rfl⟩
  · rintro ⟨u, _, _, hu, ⟨rfl, v, h, rfl⟩, rfl⟩
    exact ⟨_, v, hu, h, by rw [State.setCexu_self hu]; rfl⟩

/-! ### An expansion reads what is shared -/

theorem pixel_shared (s : State) (u : Cexu) (p : Nat) : pixel s.shared u p = pixel s u p := rfl

theorem expandScalar_shared (s : State) (u : Cexu) (ps : List Nat) (rgb : Memory) :
    expandScalar s.shared u ps rgb = expandScalar s u ps rgb := by
  induction ps generalizing rgb with
  | nil => rfl
  | cons p ps ih => simp only [expandScalar, pixel_shared, ih]

theorem gatherLanes_shared (s : State) (u : Cexu) (ps : List Nat) :
    gatherLanes s.shared u ps = gatherLanes s u ps := by
  induction ps with
  | nil => rfl
  | cons p ps ih => simp only [gatherLanes, pixel_shared, ih]

theorem requireRow_shared (s : State) (u : Cexu) (n : BitVec 16) :
    requireRow s.shared u n = requireRow s u n := by
  simp only [requireRow, gatherLanes_shared]
  rfl

theorem finish_shared (s : State) (u : Cexu) : u.finish s.shared = u.finish s := by
  simp only [Cexu.finish, expandFrozen, expandScalar_shared]
  rfl

theorem actsOnCexu_onceSettled {F : Action} (hF : ActsOnCexu F) :
    ActsOnCexu fun s => onceSettled (some .cexu) s F := by
  obtain ⟨R, hR⟩ := hF
  refine ⟨fun c u u' rs => ∃ v, u.finish c = .ok v ∧ R c v u' rs, fun s t => ?_⟩
  simp only [onceSettled_next, hR, finish_shared]
  constructor
  · rintro ⟨s', hs, v, u', rs, hv, hr, rfl⟩
    rcases settle_cexu.mp hs with ⟨hn, rfl⟩ | ⟨u, w, hu, hf, rfl⟩
    · cases hn.symm.trans hv
    · cases (State.setCexu_same w hu).symm.trans hv
      exact ⟨u, u', rs, hu, ⟨_, hf, hr⟩, by rw [State.setCexu_port, State.setCexu_twice]⟩
  · rintro ⟨u, u', rs, hu, ⟨v, hf, hr⟩, rfl⟩
    refine ⟨s.setCexu s.port v, settle_cexu.mpr (.inr ⟨u, v, hu, hf, rfl⟩), v, u', rs,
      State.setCexu_same v hu, hr, ?_⟩
    rw [State.setCexu_port, State.setCexu_twice]

theorem apartFromDctus_onceSettled {F : Action} (hF : ApartFromDctus F) :
    ApartFromDctus fun s => onceSettled (some .cexu) s F := by
  intro s t h
  obtain ⟨s', hs, ht⟩ := onceSettled_next.mp h
  obtain ⟨hcfg, hdctus, rs, hreplies, hF⟩ := hF s' t ht
  rcases settle_cexu.mp hs with ⟨hn, rfl⟩ | ⟨u, u', hu, hf, rfl⟩
  · exact ⟨hcfg, hdctus, rs, hreplies, fun ds rs₀ =>
      onceSettled_next.mpr ⟨_, settle_cexu.mpr (.inl ⟨hn, rfl⟩), hF ds rs₀⟩⟩
  · refine ⟨hcfg, hdctus, rs, hreplies, fun ds rs₀ =>
      onceSettled_next.mpr ⟨_, settle_cexu.mpr (.inr ⟨u, u', hu, ?_, rfl⟩), hF ds rs₀⟩⟩
    rwa [← finish_shared] at hf ⊢

/-! ### What each event does -/

theorem actsOnDctu_exec {i : Instr} (hi : unitOf i = .dctu) : ActsOnDctu (exec i) := by
  cases i with
  | dctRow r => exact actsOnDctu_onDctu fun _ => rfl
  | dctCol c => exact actsOnDctu_onDctu fun _ => rfl
  | dctFwdS => exact actsOnDctu_onDctu fun _ => rfl
  | dctFwdP => exact actsOnDctu_onDctu fun _ => rfl
  | _ => cases hi

theorem actsOnCexu_execCexpRowS (n : BitVec 16) : ActsOnCexu (execCexpRowS n) :=
  actsOnCexu_onCexu fun s => by simp only [requireRow_shared, expandScalar_shared]

theorem actsOnCexu_exec {i : Instr} (hi : isExpansion i = true) : ActsOnCexu (exec i) := by
  cases i with
  | cexpPix p => exact actsOnCexu_onCexu fun _ => rfl
  | cexpRowS n => exact actsOnCexu_execCexpRowS n
  | cexpRowP n =>
    obtain ⟨R, hR⟩ := actsOnCexu_execCexpRowS n
    exact ⟨R, fun s t => execCexpRowP_next_iff_execCexpRowS_next.trans (hR s t)⟩
  | _ => cases hi

theorem apartFromDctus_exec {i : Instr} (hi : unitOf i = .cexu) : ApartFromDctus (exec i) := by
  cases i with
  | cmapPublish len =>
    intro s t h
    obtain ⟨hu, hx, hf, hl, hp, rfl⟩ := execCmapPublish_next.mp h
    exact ⟨rfl, rfl, [], rfl, fun _ _ => execCmapPublish_next.mpr ⟨hu, hx, hf, hl, hp, rfl⟩⟩
  | cmapRelease =>
    intro s t h
    obtain ⟨hu, hx, hf, rfl⟩ := execCmapRelease_next.mp h
    exact ⟨rfl, rfl, [], rfl, fun _ _ => execCmapRelease_next.mpr ⟨hu, hx, hf, rfl⟩⟩
  | cexpPix p => exact (actsOnCexu_exec rfl).apartFromDctus
  | cexpRowS n => exact (actsOnCexu_exec rfl).apartFromDctus
  | cexpRowP n => exact (actsOnCexu_exec rfl).apartFromDctus
  | _ => cases hi

theorem actsOnDctu_beginInstr {i : Instr} (hi : unitOf i = .dctu) : ActsOnDctu (beginInstr i) := by
  cases i with
  | dctFwdS => exact actsOnDctu_onDctu fun _ => rfl
  | dctFwdP => exact actsOnDctu_onDctu fun _ => rfl
  | dctRow r => exact actsOnDctu_exec hi
  | dctCol c => exact actsOnDctu_exec hi
  | _ => cases hi

theorem actsOnCexu_beginRow (n : BitVec 16) : ActsOnCexu (beginRow n) :=
  actsOnCexu_onCexu fun s => by simp only [requireRow_shared]

theorem apartFromDctus_beginInstr {i : Instr} (hi : unitOf i = .cexu) :
    ApartFromDctus (beginInstr i) := by
  cases i with
  | cexpRowS n => exact (actsOnCexu_beginRow n).apartFromDctus
  | cexpRowP n => exact (actsOnCexu_beginRow n).apartFromDctus
  | cmapPublish len => exact apartFromDctus_exec hi
  | cmapRelease => exact apartFromDctus_exec hi
  | cexpPix p => exact apartFromDctus_exec hi
  | _ => cases hi

theorem commandUnit_eq_some {w : Word} {unit : FuncUnit} (h : commandUnit w = some unit) :
    ∃ i, decode w = .ok i ∧ unitOf i = unit := by
  unfold commandUnit at h
  split at h
  · rename_i i hi
    exact ⟨i, hi, Option.some.inj h⟩
  · cases h

theorem hostIssue_of_decode {w : Word} {i : Instr} (h : decode w = .ok i) :
    hostIssue w = exec i := by
  funext s
  simp only [hostIssue, h]

theorem hostStart_of_decode {w : Word} {i : Instr} (h : decode w = .ok i) :
    hostStart w = beginInstr i := by
  funext s
  simp only [hostStart, h]

theorem actsOnDctu_hostPrim {p : HostPrim} (hp : p.unit = some .dctu) : ActsOnDctu (hostPrim p) := by
  cases p with
  | wrBlk i v => exact actsOnDctu_onDctu fun _ => rfl
  | rdBlk i => exact actsOnDctu_reply fun _ => rfl
  | issue w =>
    obtain ⟨i, hi, hu⟩ := commandUnit_eq_some hp
    have h := actsOnDctu_exec hu
    rwa [← hostIssue_of_decode hi] at h
  | _ => cases hp

theorem apartFromDctus_hostPrim {p : HostPrim} (hp : p.unit = some .cexu) :
    ApartFromDctus (hostPrim p) := by
  cases p with
  | wrCmap ch i v =>
    intro s t h
    obtain ⟨hu, hx, hf, hi, hv, rfl⟩ := hostWrCmap_next.mp h
    exact ⟨rfl, rfl, [], rfl, fun _ _ => hostWrCmap_next.mpr ⟨hu, hx, hf, hi, hv, rfl⟩⟩
  | wrIdx p v => exact (actsOnCexu_onCexu fun _ => rfl).apartFromDctus
  | rdCmap ch i => exact (actsOnCexu_reply fun _ => rfl).apartFromDctus
  | rdIdx p => exact (actsOnCexu_reply fun _ => rfl).apartFromDctus
  | rdRgb k => exact (actsOnCexu_reply fun _ => rfl).apartFromDctus
  | rdCsr =>
    have h : ActsOnCexu hostRdCsr := actsOnCexu_reply fun _ => rfl
    exact h.apartFromDctus
  | issue w =>
    obtain ⟨i, hi, hu⟩ := commandUnit_eq_some hp
    have h := apartFromDctus_exec hu
    rwa [← hostIssue_of_decode hi] at h
  | _ => cases hp

theorem actsOnDctu_hostWork (j : Nat) : ActsOnDctu (hostWork .dctu j) :=
  actsOnDctu_onDctu fun _ => rfl

theorem actsOnCexu_hostWork (j : Nat) : ActsOnCexu (hostWork .cexu j) :=
  actsOnCexu_onCexu fun _ => rfl

/-- Whatever happens at a DCT unit is an action on that unit. -/
theorem perform_dctu {e : Event} (he : e.unit = some .dctu) :
    ∃ F k, ActsOnDctu F ∧ perform e = F.atPort k := by
  cases e with
  | host k p =>
    exact ⟨_, k, actsOnDctu_onceSettled (actsOnDctu_hostPrim he), by rw [← he]; rfl⟩
  | start k w =>
    obtain ⟨i, hi, hu⟩ := commandUnit_eq_some he
    have h := actsOnDctu_onceSettled (actsOnDctu_beginInstr hu)
    rw [← hostStart_of_decode hi, ← (he : commandUnit w = _)] at h
    exact ⟨_, k, h, rfl⟩
  | work unit k j =>
    cases he
    exact ⟨_, k, actsOnDctu_hostWork j, rfl⟩
  | reset => cases he

/-- Whatever happens at a colour-expansion unit is apart from the DCT units. -/
theorem perform_cexu {e : Event} (he : e.unit = some .cexu) :
    ∃ F k, ApartFromDctus F ∧ perform e = F.atPort k := by
  cases e with
  | host k p =>
    exact ⟨_, k, apartFromDctus_onceSettled (apartFromDctus_hostPrim he), by rw [← he]; rfl⟩
  | start k w =>
    obtain ⟨i, hi, hu⟩ := commandUnit_eq_some he
    have h := apartFromDctus_onceSettled (apartFromDctus_beginInstr hu)
    rw [← hostStart_of_decode hi, ← (he : commandUnit w = _)] at h
    exact ⟨_, k, h, rfl⟩
  | work unit k j =>
    cases he
    exact ⟨_, k, (actsOnCexu_hostWork j).apartFromDctus, rfl⟩
  | reset => cases he

/-! ### Units commute (R61) -/

theorem AgreeOnBlock.of_replies {t' t : State} (h : AgreeOnBlock t' t)
    (hr : t'.replies = t.replies) : { t' with port := t.port } = t := by
  obtain ⟨-, h⟩ := h
  rwa [← hr] at h

theorem Commutes.performAll_swap {e f : Event} (h : Commutes (perform e) (perform f)) {s t : State}
    (ht : performAll [e, f] s = .next t) :
    ∃ t', performAll [f, e] s = .next t' ∧ AgreeOnBlock t' t := by
  obtain ⟨r, hr, ht⟩ := performAll_pair.mp ht
  obtain ⟨r', t', hr', ht', hagree⟩ := h s r t hr ht
  exact ⟨t', performAll_pair.mpr ⟨r', hr', ht'⟩, hagree⟩

theorem runAll_pair {d e : Instr} {s t : State} :
    runAll [d, e] s = .next t ↔ ∃ r, exec d s = .next r ∧ exec e r = .next t := by
  simp only [runAll]
  cases exec d s with
  | next r => cases he : exec e r <;> simp [he]
  | fault x => simp
  | refused x => simp

/-- An operation moves neither the present port nor what the host has read. -/
theorem exec_port_replies {i : Instr} {s t : State} (h : exec i s = .next t) :
    t.port = s.port ∧ t.replies = s.replies := by
  have hdct (hi : unitOf i = .dctu) : t.port = s.port ∧ t.replies = s.replies := by
    obtain ⟨u, b, -, rfl⟩ := exec_dctu_changesOnlyBlk hi h
    exact ⟨rfl, rfl⟩
  cases i with
  | dctRow r => exact hdct rfl
  | dctCol c => exact hdct rfl
  | dctFwdS => exact hdct rfl
  | dctFwdP => exact hdct rfl
  | cmapPublish len => obtain ⟨-, -, -, -, -, rfl⟩ := execCmapPublish_next.mp h; exact ⟨rfl, rfl⟩
  | cmapRelease => obtain ⟨-, -, -, rfl⟩ := execCmapRelease_next.mp h; exact ⟨rfl, rfl⟩
  | cexpPix p => obtain ⟨u, c, -, -, -, rfl⟩ := execCexpPix_next.mp h; exact ⟨rfl, rfl⟩
  | cexpRowS n => obtain ⟨u, rgb, -, -, -, rfl⟩ := execCexpRowS_next.mp h; exact ⟨rfl, rfl⟩
  | cexpRowP n => obtain ⟨u, rgb, -, -, -, rfl⟩ := execCexpRowP_next.mp h; exact ⟨rfl, rfl⟩

theorem Action.atPort_eq {F : Action} {k : Nat} {s : State} (h : s.port = k) :
    F.atPort k s = F s := by
  subst h
  rfl

/-- Operations that commute by every port give the same state in either order. -/
theorem runAll_swap {d e : Instr} {s t : State}
    (hc : ∀ k, Commutes (Action.atPort (exec d) k) (Action.atPort (exec e) k))
    (h : runAll [d, e] s = .next t) : runAll [e, d] s = .next t := by
  obtain ⟨r, hr, ht⟩ := runAll_pair.mp h
  obtain ⟨hp, hrep⟩ := exec_port_replies hr
  obtain ⟨hp', hrep'⟩ := exec_port_replies ht
  obtain ⟨q, t', hq, ht', hagree⟩ := hc s.port s r t hr ((Action.atPort_eq hp).trans ht)
  obtain ⟨hqp, hqrep⟩ := exec_port_replies (show exec e s = .next q from hq)
  rw [Action.atPort_eq hqp] at ht'
  obtain ⟨htp, htrep⟩ := exec_port_replies ht'
  have heq : { t' with port := t.port } = t :=
    hagree.of_replies (by rw [htrep, hqrep, hrep', hrep])
  have hport : t.port = t'.port := by rw [htp, hqp, hp', hp]
  rw [hport] at heq
  exact runAll_pair.mpr ⟨q, hq, ht'.trans (congrArg _ heq)⟩

/-- Settles O50: an action on one DCT unit and one apart from the DCT units commute. -/
theorem unitsCommute : Obligations.UnitsCommute := by
  refine ⟨fun d e s t hd he => ?_, fun e f s t he hf => ?_⟩
  · exact ⟨runAll_swap fun _ => (actsOnDctu_exec hd).commutes (apartFromDctus_exec he),
      runAll_swap fun _ => (apartFromDctus_exec he).commutes (actsOnDctu_exec hd)⟩
  · obtain ⟨F, j, hF, heF⟩ := perform_dctu he
    obtain ⟨G, k, hG, hfG⟩ := perform_cexu hf
    constructor
    · refine Commutes.performAll_swap ?_
      rw [heF, hfG]
      exact hF.commutes hG
    · refine Commutes.performAll_swap ?_
      rw [heF, hfG]
      exact hG.commutes hF

/-! ### Replicas commute (R66, R184) -/

/-- Actions on two replicas, of one unit or of both, commute. -/
theorem commutes_of_replicas {F G : Action} {j k : Nat} (hF : ActsOnDctu F ∨ ActsOnCexu F)
    (hG : ActsOnDctu G ∨ ActsOnCexu G) (hjk : j ≠ k) : Commutes (F.atPort j) (G.atPort k) := by
  rcases hF with hF | hF <;> rcases hG with hG | hG
  · exact hF.commutes_other hG hjk
  · exact hF.commutes hG.apartFromDctus
  · exact hF.apartFromDctus.commutes hG
  · exact hF.commutes_other hG hjk

theorem unitOf_of_isExpansion {i : Instr} (hi : isExpansion i = true) : unitOf i = .cexu := by
  cases i with
  | cexpPix _ | cexpRowS _ | cexpRowP _ => rfl
  | _ => cases hi

/-- An issued transform or expansion is an action on one replica. -/
theorem perform_issue_replica {a : Instr} (ha : unitOf a = .dctu ∨ isExpansion a = true) :
    ∃ F, (ActsOnDctu F ∨ ActsOnCexu F) ∧
      ∀ k, perform (.host k (.issue (encode a))) = Action.atPort F k := by
  have hwf : a.wellFormed = true := by
    cases a with
    | cmapPublish len => rcases ha with ha | ha <;> cases ha
    | _ => rfl
  refine ⟨fun s => onceSettled (some (unitOf a)) s (exec a), ?_, fun k => ?_⟩
  · rcases ha with ha | ha
    · rw [ha]
      exact .inl (actsOnDctu_onceSettled (actsOnDctu_exec ha))
    · rw [unitOf_of_isExpansion ha]
      exact .inr (actsOnCexu_onceSettled (actsOnCexu_exec ha))
  · exact funext (perform_issue (decode_encode hwf) k)

theorem perform_issue_replies {w : Word} {k : Nat} {s t : State}
    (h : perform (.host k (.issue w)) s = .next t) : t.replies = s.replies := by
  obtain ⟨s', -, -, -, hreplies, h⟩ := perform_host_next h
  obtain ⟨i, -, h⟩ := hostIssue_next.mp h
  obtain ⟨-, hreplies'⟩ := exec_port_replies h
  exact hreplies'.trans hreplies

theorem performAll_issue_pair_replies {v w : Word} {j k : Nat} {s t : State}
    (h : performAll [.host j (.issue v), .host k (.issue w)] s = .next t) :
    t.replies = s.replies := by
  obtain ⟨r, hr, ht⟩ := performAll_pair.mp h
  exact (perform_issue_replies ht).trans (perform_issue_replies hr)

/-- Settles O51: each of the two is an action on its replica, and gives the host no reply. -/
theorem replicasCommute : Obligations.ReplicasCommute := by
  intro j k a b s t hjk ha hb h
  obtain ⟨F, hF, haF⟩ := perform_issue_replica ha
  obtain ⟨G, hG, hbG⟩ := perform_issue_replica hb
  have hc : Commutes (perform (.host j (.issue (encode a))))
      (perform (.host k (.issue (encode b)))) := by
    rw [haF, hbG]
    exact commutes_of_replicas hF hG hjk
  obtain ⟨t', ht', hagree⟩ := hc.performAll_swap h
  refine ⟨t', ht', hagree.of_replies ?_⟩
  rw [performAll_issue_pair_replies ht', performAll_issue_pair_replies h]

end Sys2Proof.Machine
end

section
/-! PROOFS. 30_encoding.md: the decoder and the encoder are inverse to each other (R84, R85, R89), the
opcode table says what decodes (R84), the reserved words and that they are refused (R86), operand values
that are no encoding matter (R87), and the vectors of V5.1 and V5.2. -/

namespace Sys2Proof.Machine

/-! ### The decoder and the encoder (R84, R85, R89) -/

/-- Settles O1: an assembled word's fields are the ones it was assembled from. -/
theorem decodeOfEncode : Obligations.DecodeOfEncode := fun _ => decode_encode

/-- The fields that R85's case on `OP` accepts are the ones the accepted operation is assembled from. -/
theorem encode_of_decodeOp {op : BitVec 8} {strat : BitVec 1} {arg : BitVec 16} {i : Instr}
    (h : decodeOp op strat arg = .ok i) :
    encode i = commandWord op strat arg ∧ i.wellFormed = true := by
  obtain ⟨rfl, rfl, ha, rfl⟩ | ⟨rfl, rfl, ha, rfl⟩ | ⟨rfl, rfl, rfl, rfl⟩ | ⟨rfl, rfl, rfl, rfl⟩ |
    ⟨rfl, rfl, ha, hl, rfl⟩ | ⟨rfl, rfl, rfl, rfl⟩ | ⟨rfl, rfl, rfl⟩ | ⟨rfl, rfl, rfl⟩ |
    ⟨rfl, rfl, rfl⟩ := decodeOp_ok.mp h
  · exact ⟨congrArg (commandWord 0x10 0) (argI3_of_high ha), rfl⟩
  · exact ⟨congrArg (commandWord 0x11 0) (argI3_of_high ha), rfl⟩
  · exact ⟨rfl, rfl⟩
  · exact ⟨rfl, rfl⟩
  · exact ⟨congrArg (commandWord 0x20 0) (argL9_of_high ha), decide_eq_true hl⟩
  · exact ⟨rfl, rfl⟩
  · exact ⟨rfl, rfl⟩
  · exact ⟨rfl, rfl⟩
  · exact ⟨rfl, rfl⟩

theorem encode_decode {w : Word} {i : Instr} (h : decode w = .ok i) :
    encode i = w ∧ i.wellFormed = true := by
  obtain ⟨hz, hop⟩ := decode_ok.mp h
  obtain ⟨he, hwf⟩ := encode_of_decodeOp hop
  exact ⟨he.trans (commandWord_fields hz), hwf⟩

/-- Settles O2: the fields of a word that decodes make it up, as its `Z` is 0. -/
theorem encodeOfDecode : Obligations.EncodeOfDecode := fun _ _ => encode_decode

/-! ### The opcode table (R84) -/

/-- A word that agrees with `p` under the mask of all but the `n` operand bits is `p` and an operand. -/
theorem eq_append_of_mask {v n : Nat} {p : BitVec v} {w : BitVec (v + n)}
    (h : w &&& (BitVec.allOnes v ++ 0#n) = p ++ 0#n) : w = p ++ w.extractLsb' 0 n := by
  have hhigh : w.extractLsb' n v = p := by
    have hw := append_extract w
    rw [← hw, and_halves, BitVec.and_allOnes, BitVec.and_zero] at h
    exact (BitVec.append_left_inj _).mp h
  rw [← hhigh, append_extract]

theorem encode_dctRow (r : BitVec 3) : encode (.dctRow r) = (0x2000000 : BitVec 29) ++ r :=
  BitVec.eq_of_toNat_eq (append_append_toNat (0x1000 : BitVec 16) (0 : BitVec 13) r)

theorem encode_dctCol (c : BitVec 3) : encode (.dctCol c) = (0x2200000 : BitVec 29) ++ c :=
  BitVec.eq_of_toNat_eq (append_append_toNat (0x1100 : BitVec 16) (0 : BitVec 13) c)

theorem encode_cmapPublish (len : BitVec 9) :
    encode (.cmapPublish len) = (0x100000 : BitVec 23) ++ len :=
  BitVec.eq_of_toNat_eq (append_append_toNat (0x2000 : BitVec 16) (0 : BitVec 7) len)

/-- The length operand, read off the word of a `CMAP_PUBLISH`. -/
theorem extract_encode_cmapPublish (len : BitVec 9) :
    (encode (.cmapPublish len)).extractLsb' 0 9 = len := by
  rw [encode_cmapPublish]
  exact extract_append_low (w := 23) _ len

theorem selects_iff {row : OpcodeRow} {w : Word} :
    row.selects w = true ↔ w &&& row.mask = row.pattern := beq_iff_eq

/-- R84's masks are disjoint: two rows that agree where both masks look are the same row. -/
theorem opcodeTable_disjoint : ∀ row ∈ opcodeTable, ∀ row' ∈ opcodeTable,
    row.pattern &&& row'.mask = row'.pattern &&& row.mask → row = row' := by decide

theorem selects_unique {w : Word} {row row' : OpcodeRow} (hrow : row ∈ opcodeTable)
    (hrow' : row' ∈ opcodeTable) (h : row.selects w = true) (h' : row'.selects w = true) :
    row = row' :=
  opcodeTable_disjoint row hrow row' hrow' (by
    rw [← selects_iff.mp h, ← selects_iff.mp h', BitVec.and_assoc, BitVec.and_assoc,
      BitVec.and_comm row.mask])

theorem row_of_mnemonic : ∀ row ∈ opcodeTable, ∀ row' ∈ opcodeTable,
    row.mnemonic = row'.mnemonic → row = row' := by decide

/-- The word of an instruction selects the row of its mnemonic. -/
theorem exists_row_selects_encode {i : Instr} (hi : i.wellFormed = true) :
    ∃ row ∈ opcodeTable, row.mnemonic = i.mnemonic ∧ row.selects (encode i) = true := by
  cases i with
  | dctRow r => exact Laws.TableRow.dctRow r hi
  | dctCol c => exact Laws.TableRow.dctCol c hi
  | dctFwdS => exact Laws.TableRow.dctFwdS hi
  | dctFwdP => exact Laws.TableRow.dctFwdP hi
  | cmapPublish len => exact Laws.TableRow.cmapPublish len hi
  | cmapRelease => exact Laws.TableRow.cmapRelease hi
  | cexpPix p => exact Laws.TableRow.cexpPix p hi
  | cexpRowS n => exact Laws.TableRow.cexpRowS n hi
  | cexpRowP n => exact Laws.TableRow.cexpRowP n hi

theorem selects_encode {i : Instr} {row : OpcodeRow} (hi : i.wellFormed = true)
    (hrow : row ∈ opcodeTable) (hm : i.mnemonic = row.mnemonic) : row.selects (encode i) = true := by
  obtain ⟨row', hrow', hm', hsel⟩ := exists_row_selects_encode hi
  rwa [row_of_mnemonic row hrow row' hrow' (hm.symm.trans hm'.symm)]

theorem publish_of_mnemonic {i : Instr} (h : i.mnemonic = "CMAP_PUBLISH") :
    ∃ len, i = .cmapPublish len := by
  cases i with
  | cmapPublish len => exact ⟨len, rfl⟩
  | _ => exact absurd h (by simp only [Instr.mnemonic]; decide)

/-- A word that selects a row is the word of an instruction with that row's mnemonic. -/
theorem exists_encode_of_selects {row : OpcodeRow} {w : Word} (hrow : row ∈ opcodeTable)
    (h : row.selects w = true) : ∃ i : Instr, w = encode i ∧ i.mnemonic = row.mnemonic := by
  rw [selects_iff] at h
  simp only [opcodeTable, List.mem_cons, List.not_mem_nil, or_false] at hrow
  have hwhole : w &&& 0xFFFFFFFF = w := BitVec.and_allOnes
  obtain rfl | rfl | rfl | rfl | rfl | rfl | rfl | rfl | rfl := hrow
  · exact ⟨.dctRow _, (eq_append_of_mask (v := 29) (n := 3) h).trans (encode_dctRow _).symm, rfl⟩
  · exact ⟨.dctCol _, (eq_append_of_mask (v := 29) (n := 3) h).trans (encode_dctCol _).symm, rfl⟩
  · exact ⟨.dctFwdS, hwhole.symm.trans h, rfl⟩
  · exact ⟨.dctFwdP, hwhole.symm.trans h, rfl⟩
  · exact ⟨.cmapPublish _,
      (eq_append_of_mask (v := 23) (n := 9) h).trans (encode_cmapPublish _).symm, rfl⟩
  · exact ⟨.cmapRelease, hwhole.symm.trans h, rfl⟩
  · exact ⟨.cexpPix _, eq_append_of_mask (v := 16) (n := 16) h, rfl⟩
  · exact ⟨.cexpRowS _, eq_append_of_mask (v := 16) (n := 16) h, rfl⟩
  · exact ⟨.cexpRowP _, eq_append_of_mask (v := 16) (n := 16) h, rfl⟩

/-- Well-formedness is R81's bound on the length of a `CMAP_PUBLISH`, read off the word. -/
theorem wellFormed_iff_publishLength (i : Instr) :
    i.wellFormed = true ↔
      (i.mnemonic = "CMAP_PUBLISH" → ((encode i).extractLsb' 0 9).toNat ≤ 256) := by
  refine ⟨fun hi hm => ?_, fun h => ?_⟩
  · obtain ⟨len, rfl⟩ := publish_of_mnemonic hm
    rw [extract_encode_cmapPublish]
    exact of_decide_eq_true hi
  · cases i with
    | cmapPublish len =>
      have hl := h rfl
      rw [extract_encode_cmapPublish] at hl
      exact decide_eq_true hl
    | _ => rfl

/-- Settles O3: the words that select a row are the words of the instructions with its mnemonic, and
such an instruction decodes when it is well formed. -/
theorem decodeSelectsTheTableRow : Obligations.DecodeSelectsTheTableRow := by
  refine ⟨fun w row hrow => ⟨?_, ?_⟩, fun _ _ _ hrow hrow' => selects_unique hrow hrow'⟩
  · rintro ⟨i, hi, hm⟩
    obtain ⟨rfl, hwf⟩ := encode_decode hi
    exact ⟨selects_encode hwf hrow hm, hm ▸ (wellFormed_iff_publishLength i).mp hwf⟩
  · rintro ⟨hsel, hlen⟩
    obtain ⟨i, rfl, hm⟩ := exists_encode_of_selects hrow hsel
    exact ⟨i, decode_encode ((wellFormed_iff_publishLength i).mpr (hm ▸ hlen)), hm⟩

/-! ### Reserved words (R86) -/

theorem operandN_error {arg : BitVec 16} {i : Instr} :
    (∃ why, operandN arg i = .error why) ↔ arg ≠ 0 := by
  unfold operandN
  split <;> simp_all

theorem operandI3_error {arg : BitVec 16} {f : BitVec 3 → Instr} :
    (∃ why, operandI3 arg f = .error why) ↔ arg.extractLsb' 3 13 ≠ 0 := by
  unfold operandI3
  split <;> simp_all

theorem operandL9_error {arg : BitVec 16} {f : BitVec 9 → Instr} :
    (∃ why, operandL9 arg f = .error why) ↔
      arg.extractLsb' 9 7 ≠ 0 ∨ 256 < (arg.extractLsb' 0 9).toNat := by
  unfold operandL9
  split_ifs <;> simp_all

theorem withoutStrategy_error {strat : BitVec 1} {r : Except Reserved Instr} :
    (∃ why, withoutStrategy strat r = .error why) ↔ strat = 1 ∨ ∃ why, r = .error why := by
  have hs : strat = 0 ∨ strat = 1 := by revert strat; decide
  obtain rfl | rfl := hs <;> simp [withoutStrategy]

/-- R86's list but for `Z`: what R85's case on `OP` reserves. -/
theorem decodeOp_error {op : BitVec 8} {strat : BitVec 1} {arg : BitVec 16} :
    (∃ why, decodeOp op strat arg = .error why) ↔
      op ∉ ([0x10, 0x11, 0x12, 0x20, 0x21, 0x22, 0x23] : List (BitVec 8)) ∨
      (strat = 1 ∧ op ∈ ([0x10, 0x11, 0x20, 0x21, 0x22] : List (BitVec 8))) ∨
      (op ∈ ([0x10, 0x11] : List (BitVec 8)) ∧ arg.extractLsb' 3 13 ≠ 0) ∨
      (op ∈ ([0x12, 0x21] : List (BitVec 8)) ∧ arg ≠ 0) ∨
      (op = 0x20 ∧ arg.extractLsb' 9 7 ≠ 0) ∨
      (op = 0x20 ∧ 256 < (arg.extractLsb' 0 9).toNat) := by
  by_cases hop : op ∈ ([0x10, 0x11, 0x12, 0x20, 0x21, 0x22, 0x23] : List (BitVec 8))
  · simp only [List.mem_cons, List.not_mem_nil, or_false] at hop
    obtain rfl | rfl | rfl | rfl | rfl | rfl | rfl := hop <;>
      simp [decodeOp, withoutStrategy_error, operandI3_error, operandN_error, operandL9_error]
  · refine iff_of_true ⟨.opcode op, ?_⟩ (.inl hop)
    simp only [List.mem_cons, List.not_mem_nil, or_false, not_or] at hop
    simp only [decodeOp, hop, if_false]

theorem decode_error {w : Word} :
    (∃ why, decode w = .error why) ↔
      zField w ≠ 0 ∨ ∃ why, decodeOp (opField w) (stratField w) (argField w) = .error why := by
  unfold decode
  split <;> simp_all

/-- Settles O4: `Z` is tested first, then `OP` selects the fields that can fail; `HostIssue` of what fails
is refused. -/
theorem reservedWordsAreRefused : Obligations.ReservedWordsAreRefused := by
  refine ⟨fun w => ?_, fun s k w rest why hin hw => ?_⟩
  · rw [decode_error, decodeOp_error]
    exact or_left_comm
  · rw [step_of_inputs hin]
    exact perform_issue_reserved hw k _

/-! ### Operand values (R87) -/

theorem execCexpPix_refuses {p : BitVec 16} {s : State}
    (h : s.cmapFrozen = false ∨ s.cfg.maxRow.toNat ≤ p.toNat) : Refuses (execCexpPix p s) := by
  refine (refuses_iff _).mpr fun t ht => ?_
  obtain ⟨u, c, -, hf, hc, -⟩ := execCexpPix_next.mp ht
  obtain ⟨hp, -⟩ := pixel_ok.mp hc
  exact h.elim (ne_true_of_eq_false · hf) hp.not_ge

theorem execCexpRowS_refuses {n : BitVec 16} {s : State}
    (h : s.cmapFrozen = false ∨ s.cfg.maxRow.toNat < n.toNat) : Refuses (execCexpRowS n s) := by
  refine (refuses_iff _).mpr fun t ht => ?_
  obtain ⟨u, rgb, -, hr, -⟩ := execCexpRowS_next.mp ht
  obtain ⟨hf, hn, -⟩ := requireRow_ok.mp hr
  exact h.elim (ne_true_of_eq_false · hf) hn.not_gt

/-- The two strategies of `CEXP_ROW` refuse alike (R146). -/
theorem execCexpRowP_refuses_iff {n : BitVec 16} {s : State} :
    Refuses (execCexpRowP n s) ↔ Refuses (execCexpRowS n s) := by
  simp only [refuses_iff, ne_eq, execCexpRowP_next_iff_execCexpRowS_next]

theorem execCmapPublish_refuses {len : BitVec 9} {s : State}
    (h : s.cmapFrozen = true ∨ ¬Populated s.cmap len.toNat) : Refuses (execCmapPublish len s) := by
  refine (refuses_iff _).mpr fun t ht => ?_
  obtain ⟨-, -, hf, -, hp, -⟩ := execCmapPublish_next.mp ht
  exact h.elim (ne_true_of_eq_false hf) (· ((entriesDefined_iff _ _).mp hp))

/-- Settles O6: the words decode whatever the operand, and each operation needs what is missing. -/
theorem operandValueIsNoReservedEncoding : Obligations.OperandValueIsNoReservedEncoding := by
  intro n s
  refine ⟨⟨decode_encode rfl, decode_encode rfl, decode_encode rfl⟩, execCexpPix_refuses,
    fun h => ?_, fun len hlen => ⟨decode_encode (decide_eq_true hlen), execCmapPublish_refuses⟩⟩
  have hS := execCexpRowS_refuses h
  exact ⟨hS, execCexpRowP_refuses_iff.mpr hS⟩

/-! ### The vectors of V5.1 and V5.2 -/

/-- Settles O5: the accepted words are the words of their operations, and each reserved word is named
with the first test of R85 that it fails. -/
theorem sampleWordsDecode : Obligations.SampleWordsDecode := by
  refine ⟨by decide, ?_⟩
  simp only [List.forall_mem_cons]
  exact ⟨⟨.argBits, by decide⟩, ⟨.zField, by decide⟩, ⟨.publishLength, by decide⟩,
    ⟨.strategyBit, by decide⟩, ⟨.opcode 0x00, by decide⟩, ⟨.zField, by decide⟩, by simp⟩

/-- Settles O7: each line is parsed and its commands encoded by evaluation. -/
theorem sampleLinesAssemble : Obligations.SampleLinesAssemble :=
  ⟨rfl, rfl, rfl, rfl, rfl, rfl, rfl, rfl, rfl, rfl⟩

end Sys2Proof.Machine
end

section
/-! PROOFS. 40_dct_forward.md, the arithmetic: DESCALE (R101, R102), the 1-D transform (R104, R112, R113,
R119, R122) and finite datapaths (R124, R125, R202). -/

namespace Sys2Proof.Machine

/-! ### Rounding (R101, R102) -/

theorem descale_eq_iff (x : Int) (n : Nat) (y : Int) :
    descale x n = y ↔ 2 ^ n * y ≤ x + 2 ^ (n - 1) ∧ x + 2 ^ (n - 1) < 2 ^ n * (y + 1) := by
  have hpos : (0 : Int) < 2 ^ n := by positivity
  rw [descale_eq_ediv, le_antisymm_iff, ← Int.lt_add_one_iff, Int.ediv_lt_iff_lt_mul hpos,
    Int.le_ediv_iff_mul_le hpos, mul_comm y, mul_comm (y + 1), and_comm]

/-- Settles O19: an integer is a floored quotient exactly between these two multiples. -/
theorem descaleIsTheBiasedFloor : Obligations.DescaleIsTheBiasedFloor :=
  fun x n _ y => descale_eq_iff x n y

/-- The bias is half a unit of the result. -/
theorem two_pow_eq_two_mul {n : Nat} (hn : 1 ≤ n) : (2 : Int) ^ n = 2 * 2 ^ (n - 1) := by
  rw [← pow_succ', Nat.sub_add_cancel hn]

/-- The same in halves of a unit. -/
theorem descale_eq_iff_halves {n : Nat} (hn : 1 ≤ n) {x y : Int} :
    descale x n = y ↔ 2 ^ (n - 1) * (2 * y - 1) ≤ x ∧ x < 2 ^ (n - 1) * (2 * y + 1) := by
  have hsplit (z : Int) : (2 : Int) ^ n * z = 2 ^ (n - 1) * (2 * z - 1) + 2 ^ (n - 1) := by
    rw [two_pow_eq_two_mul hn]; ring
  rw [descale_eq_iff, hsplit, hsplit, add_le_add_iff_right, add_lt_add_iff_right,
    show 2 * (y + 1) - 1 = 2 * y + 1 by ring]

/-- R102: `DESCALE` rounds to a nearest integer. -/
theorem descale_error_le (x : Int) {n : Nat} (hn : 1 ≤ n) :
    |2 * (2 ^ n * descale x n - x)| ≤ 2 ^ n := by
  obtain ⟨hlow, hhigh⟩ := (descale_eq_iff_halves hn).mp (rfl : descale x n = _)
  rw [abs_le, two_pow_eq_two_mul hn]
  constructor <;> linarith

theorem descale_half (m : Int) {n : Nat} (hn : 1 ≤ n) :
    descale ((2 * m + 1) * 2 ^ (n - 1)) n = m + 1 := by
  have hpos : (0 : Int) < 2 ^ (n - 1) := by positivity
  rw [descale_eq_iff_halves hn]
  constructor <;> linarith

/-- R102: only at a half does `DESCALE` of the negative differ from the negative of `DESCALE`. -/
theorem descale_neg_ne_iff (x : Int) {n : Nat} (hn : 1 ≤ n) :
    descale (-x) n ≠ -descale x n ↔ ∃ m : Int, x = (2 * m + 1) * 2 ^ (n - 1) := by
  constructor
  · intro hne
    obtain ⟨hlow, hhigh⟩ := (descale_eq_iff_halves hn).mp (rfl : descale x n = _)
    refine ⟨descale x n - 1, ?_⟩
    by_contra hx
    have hlt : 2 ^ (n - 1) * (2 * descale x n - 1) < x := lt_of_le_of_ne hlow fun e => hx (by linarith)
    exact hne ((descale_eq_iff_halves hn).mpr ⟨by linarith, by linarith⟩)
  · rintro ⟨m, rfl⟩
    have hneg : -((2 * m + 1) * 2 ^ (n - 1)) = (2 * (-m - 1) + 1) * (2 : Int) ^ (n - 1) := by ring
    rw [hneg, descale_half _ hn, descale_half _ hn]
    omega

theorem descale_zero {n : Nat} (hn : 1 ≤ n) : descale 0 n = 0 := by
  simpa using descale_two_pow_mul 0 hn

/-- Settles O20, one clause of R102 after the other. -/
theorem descaleRoundsHalvesUp : Obligations.DescaleRoundsHalvesUp := fun x _ hn =>
  ⟨descale_error_le x hn, fun m => descale_half m hn, descale_neg_ne_iff x hn, descale_zero hn⟩

/-! ### Symmetric lines (R122) -/

theorem one_le_pass1Bits (b : Precision) : 1 ≤ pass1Bits b := by cases b <;> decide

theorem one_le_descaleShift (b : Precision) (st : Stage) : 1 ≤ descaleShift b st := by
  cases b <;> cases st <;> decide

theorem dcScale_zero (b : Precision) (st : Stage) : dcScale b st 0 = 0 := by
  cases st with
  | row => exact zero_mul _
  | col => exact descale_zero (one_le_pass1Bits b)

/-- A line of 8 equal values: every difference of it vanishes, so only output 0 is left. -/
theorem dct1d_constant (b : Precision) (F : FixName → Int) (st : Stage) (v : Int) :
    dct1d b F st ⟨v, v, v, v, v, v, v, v⟩ = ⟨dcScale b st (8 * v), 0, 0, 0, 0, 0, 0, 0⟩ := by
  have hsum : v + v + (v + v) + (v + v + (v + v)) = 8 * v := by ring
  simp [dct1d, evenPart, oddPart, oddSums, multiply, dcScale_zero, hsum,
    descale_zero (one_le_descaleShift b st)]

/-- Settles O21: in the row stage the sum is shifted, in the column stage descaled. -/
theorem constantLine : Obligations.ConstantLine := fun b F v =>
  ⟨dct1d_constant b F .row v, dct1d_constant b F .col v⟩

/-- A line from its last value to its first. -/
def Vec8.reverse (x : Vec8) : Vec8 := ⟨x.x7, x.x6, x.x5, x.x4, x.x3, x.x2, x.x1, x.x0⟩

theorem oddSums_neg (F : FixName → Int) (a b c d : Int) :
    oddSums F (-a) (-b) (-c) (-d) =
      (-(oddSums F a b c d).1, -(oddSums F a b c d).2.1, -(oddSums F a b c d).2.2.1,
        -(oddSums F a b c d).2.2.2) := by
  simp only [oddSums, multiply, Prod.mk.injEq]
  refine ⟨?_, ?_, ?_, ?_⟩ <;> ring

/-- Reversing a line negates its differences. -/
theorem lineOddSums_reverse (F : FixName → Int) (x : Vec8) :
    lineOddSums F x.reverse =
      (-(lineOddSums F x).1, -(lineOddSums F x).2.1, -(lineOddSums F x).2.2.1,
        -(lineOddSums F x).2.2.2) := by
  rw [lineOddSums, lineOddSums, ← oddSums_neg, neg_sub, neg_sub, neg_sub, neg_sub]
  rfl

/-- Reversing a line keeps its sums, which the even outputs come from. -/
theorem dct1d_reverse (b : Precision) (F : FixName → Int) (st : Stage) (x : Vec8) :
    dct1d b F st x.reverse =
      let y := dct1d b F st x
      let a := lineOddSums F x
      let sh := descaleShift b st
      ⟨y.x0, descale (-a.1) sh, y.x2, descale (-a.2.1) sh, y.x4, descale (-a.2.2.1) sh, y.x6,
        descale (-a.2.2.2) sh⟩ := by
  have heven : evenPart b F st (x.x7 + x.x0) (x.x6 + x.x1) (x.x5 + x.x2) (x.x4 + x.x3) =
      evenPart b F st (x.x0 + x.x7) (x.x1 + x.x6) (x.x2 + x.x5) (x.x3 + x.x4) := by
    rw [add_comm x.x7, add_comm x.x6, add_comm x.x5, add_comm x.x4]
  have hodd : oddSums F (x.x4 - x.x3) (x.x5 - x.x2) (x.x6 - x.x1) (x.x7 - x.x0) = _ :=
    lineOddSums_reverse F x
  simp only [dct1d, Vec8.reverse, heven, oddPart, hodd, lineOddSums]

/-- Settles O22: reversing a line keeps its sums and negates its differences. -/
theorem mirroredLine : Obligations.MirroredLine := by
  intro b F st x
  have hrev := dct1d_reverse b F st x
  rw [Vec8.reverse] at hrev
  refine ⟨lineOddSums_reverse F x, ?_, ⟨rfl, rfl, rfl, rfl⟩, ?_⟩ <;> rw [hrev] <;>
    exact ⟨rfl, rfl, rfl, rfl⟩

/-! ### Ranges of results (R119) -/

/-- Settles O23, by the bound on the outputs of a stage. -/
theorem rowStageStaysInTheIntermediateDomain : Obligations.RowStageStaysInTheIntermediateDomain :=
  fun _ t _ h => dct1d_row_inDomain t h

/-- Settles O24, by the bound on the outputs of a stage. -/
theorem columnStageFitsTheElement : Obligations.ColumnStageFitsTheElement :=
  fun _ t _ h k => ⟨dct1d_col_abs_le t h k, fun _ hw => inElem_dct1d t hw h k⟩

/-- Settles O25: the column is evaluated. -/
theorem columnStageReaches7569 : Obligations.ColumnStageReaches7569 :=
  ⟨(lineInDomain_iff ..).mpr (by decide), by decide⟩

/-- Settles O37: the two columns are evaluated under each table. -/
theorem columnStageIsNotOdd : Obligations.ColumnStageIsNotOdd
  | .trunc => by decide
  | .ref => by decide

/-- Settles O29: the column of V3.11 is evaluated on the datapath and exactly, under each table. -/
theorem saturatingThirtyTwoBitDatapathDiffers : Obligations.SaturatingThirtyTwoBitDatapathDiffers :=
  ⟨(lineInDomain_iff ..).mpr (by decide), fun
    | .trunc => by decide
    | .ref => by decide⟩

/-! ### The sums that outputs are rounded from (R104) -/

/-- The exact integer sums of R106 to R110, in the order of the outputs that come from them. -/
def lineSums (F : FixName → Int) (x : Vec8) : Vec8 :=
  let tmp10 := x.x0 + x.x7 + (x.x3 + x.x4)
  let tmp13 := x.x0 + x.x7 - (x.x3 + x.x4)
  let tmp11 := x.x1 + x.x6 + (x.x2 + x.x5)
  let tmp12 := x.x1 + x.x6 - (x.x2 + x.x5)
  let z1 := multiply (tmp12 + tmp13) (F .c0_541196100)
  let o := lineOddSums F x
  ⟨tmp10 + tmp11, o.1, z1 + multiply tmp13 (F .c0_765366865), o.2.1, tmp10 - tmp11, o.2.2.1,
    z1 + multiply tmp12 (-(F .c1_847759065)), o.2.2.2⟩

/-- What a stage makes of sum `k`: outputs 0 and 4 are scaled (R107), the others descaled. -/
def roundSum (b : Precision) (st : Stage) : Fin 8 → Int → Int
  | 0, v => dcScale b st v
  | 4, v => dcScale b st v
  | _, v => descale v (descaleShift b st)

/-- The same on a datapath. -/
def roundSumOn (acc : Int → Int) (b : Precision) (st : Stage) : Fin 8 → Int → Int
  | 0, v => dcScaleOn acc b st v
  | 4, v => dcScaleOn acc b st v
  | _, v => descaleOn acc v (descaleShift b st)

theorem dct1d_get (b : Precision) (F : FixName → Int) (st : Stage) (x : Vec8) (k : Fin 8) :
    (dct1d b F st x).get k = roundSum b st k ((lineSums F x).get k) := by
  match k with
  | 0 | 1 | 2 | 3 | 4 | 5 | 6 | 7 => rfl

section
variable {x : Vec8} {m : Int} (hx : ∀ k, |x.get k| ≤ m)
include hx

theorem Vec8.fields_abs_le : |x.x0| ≤ m ∧ |x.x1| ≤ m ∧ |x.x2| ≤ m ∧ |x.x3| ≤ m ∧ |x.x4| ≤ m ∧
    |x.x5| ≤ m ∧ |x.x6| ≤ m ∧ |x.x7| ≤ m :=
  ⟨hx 0, hx 1, hx 2, hx 3, hx 4, hx 5, hx 6, hx 7⟩

/-- Of the sums of coefficients, the largest is the one of output 6 under `FIXTAB_REF`: that is
`4 * (15137 - 4433) + 4 * 4433` (R124). -/
theorem lineSums_abs_le (t : FixTab) (k : Fin 8) :
    |(lineSums (fix t) x).get k| ≤ 60548 * m := by
  obtain ⟨h0, h1, h2, h3, h4, h5, h6, h7⟩ := Vec8.fields_abs_le hx
  simp only [abs_le] at *
  match k with
  | 0 | 1 | 2 | 3 | 4 | 5 | 6 | 7 =>
    cases t <;>
      simp only [Vec8.get, lineSums, lineOddSums, oddSums, multiply, fix, fixTrunc, fixRef] <;> omega

/-- Outputs 0 and 4 come from sums and differences of the 8 values (R107). -/
theorem lineSums_dc_abs_le (F : FixName → Int) {k : Fin 8} (hk : k = 0 ∨ k = 4) :
    |(lineSums F x).get k| ≤ 8 * m := by
  obtain ⟨h0, h1, h2, h3, h4, h5, h6, h7⟩ := Vec8.fields_abs_le hx
  simp only [abs_le] at *
  rcases hk with rfl | rfl <;> simp only [Vec8.get, lineSums] <;> omega

end

/-! ### Datapaths that hold every intermediate value (R124, R125) -/

theorem LineInDomain.abs_le {b : Precision} {st : Stage} {x : Vec8} (h : LineInDomain b st x)
    (k : Fin 8) : |x.get k| ≤ 2 ^ (sampleBits b + pass1Bits b + 2) := by
  cases st with
  | row => exact (h.abs_le_row k).trans (by cases b <;> decide)
  | col => exact lineInDomain_col_iff.mp h k

theorem dcScaleOn_eq {acc : Int → Int} {W : Int} (hacc : ∀ v, -W ≤ v → v ≤ W → acc v = v)
    {b : Precision} {st : Stage} {v : Int} (hv : 4 * |v| + 2 ≤ W) :
    dcScaleOn acc b st v = dcScale b st v := by
  obtain ⟨hlow, hhigh⟩ := abs_le.mp (le_refl |v|)
  cases b <;> cases st <;>
    simp (disch := omega) only [dcScaleOn, dcScale, descaleOn, descale, shl, pass1Bits, hacc]

section
variable {acc : Int → Int} {W m : Int} (hacc : ∀ v, -W ≤ v → v ≤ W → acc v = v)
  {b : Precision} {st : Stage} (hW : 83980 * m + 2 ^ (descaleShift b st - 1) ≤ W)
include hacc hW

/-- The even part's sums and products, the biased ones included, are within the accumulator: from the
innermost outwards, each is a linear form in the inputs that the bound on them keeps there. -/
theorem evenPartOn_eq (t : FixTab) {p q r s : Int}
    (hp : |p| ≤ 2 * m) (hq : |q| ≤ 2 * m) (hr : |r| ≤ 2 * m) (hs : |s| ≤ 2 * m) :
    evenPartOn acc b (fix t) st p q r s = evenPart b (fix t) st p q r s := by
  have hbias : (2 : Int) ≤ 2 ^ (descaleShift b st - 1) := by cases b <;> cases st <;> decide
  have hdc {v : Int} (hv : |v| ≤ 8 * m) : dcScaleOn acc b st v = dcScale b st v :=
    dcScaleOn_eq hacc (by linarith [abs_nonneg p])
  simp only [abs_le] at *
  cases t <;>
    simp (disch := omega) only [evenPartOn, evenPart, multiply, fix, fixTrunc, fixRef, descaleOn,
      descale, hacc, hdc]

/-- So are the odd part's; the largest is `m2`, with `4 * 20995 = 83980` (R125). -/
theorem oddPartOn_eq (t : FixTab) {p q r s : Int}
    (hp : |p| ≤ 2 * m) (hq : |q| ≤ 2 * m) (hr : |r| ≤ 2 * m) (hs : |s| ≤ 2 * m) :
    oddPartOn acc b (fix t) st p q r s = oddPart b (fix t) st p q r s := by
  have hbias : (0 : Int) < 2 ^ (descaleShift b st - 1) := by positivity
  simp only [abs_le] at *
  cases t <;>
    simp (disch := omega) only [oddPartOn, oddPart, oddSums, multiply, fix, fixTrunc, fixRef,
      descaleOn, descale, hacc]

theorem dct1dOn_eq (t : FixTab) {x : Vec8} (hx : ∀ k, |x.get k| ≤ m) :
    dct1dOn acc b (fix t) st x = dct1d b (fix t) st x := by
  have hfits {v : Int} (hv : |v| ≤ 2 * m) : acc v = v := by
    have hbias : (0 : Int) < 2 ^ (descaleShift b st - 1) := by positivity
    rw [abs_le] at hv
    exact hacc v (by omega) (by omega)
  obtain ⟨h0, h7⟩ := abs_add_sub_le (hx 0) (hx 7)
  obtain ⟨h1, h6⟩ := abs_add_sub_le (hx 1) (hx 6)
  obtain ⟨h2, h5⟩ := abs_add_sub_le (hx 2) (hx 5)
  obtain ⟨h3, h4⟩ := abs_add_sub_le (hx 3) (hx 4)
  have heven := evenPartOn_eq hacc hW t h0 h1 h2 h3
  have hodd := oddPartOn_eq hacc hW t h4 h5 h6 h7
  simp only [Vec8.get] at *
  simp only [dct1dOn, dct1d, hfits, heven, hodd, h0, h1, h2, h3, h4, h5, h6, h7]

end

/-- An accumulator that holds `w`-bit values is exact on every line in contract, when `w` bits hold the
largest intermediate value of the precision. -/
theorem dct1dOn_eq_of_width {acc : Int → Int} {w : Nat} (hacc : ∀ v, fitsAcc w v → acc v = v)
    {b : Precision}
    (hw : 83980 * 2 ^ (sampleBits b + pass1Bits b + 2) + 2 ^ 14 ≤ (2 : Int) ^ (w - 1) - 1)
    (t : FixTab) {st : Stage} {x : Vec8} (hx : LineInDomain b st x) :
    dct1dOn acc b (fix t) st x = dct1d b (fix t) st x := by
  have hbias : (2 : Int) ^ (descaleShift b st - 1) ≤ 2 ^ 14 := by cases b <;> cases st <;> decide
  exact dct1dOn_eq (W := 2 ^ (w - 1) - 1) (fun v hlow hhigh => hacc v ⟨by omega, hhigh⟩)
    (by omega) t hx.abs_le

/-- Settles O26: `83980 * 4096` and the bias are below `2^29`. -/
theorem thirtyBitDatapathIsExactAtEightBits : Obligations.ThirtyBitDatapathIsExactAtEightBits :=
  fun _ hacc t _ _ hx => dct1dOn_eq_of_width hacc (by decide) t hx

/-- Settles O27: `83980 * 32768` and the bias are below `2^32`. -/
theorem thirtyThreeBitDatapathIsExactAtTwelveBits :
    Obligations.ThirtyThreeBitDatapathIsExactAtTwelveBits :=
  fun _ hacc t _ _ hx => dct1dOn_eq_of_width hacc (by decide) t hx

/-! ### A datapath that wraps (R125, R202) -/

section
variable (w : Nat) (x y : Int)

theorem wrapAcc_add_wrapAcc : wrapAcc w (x + wrapAcc w y) = wrapAcc w (x + y) := Int.add_bmod_bmod

theorem wrapAcc_wrapAcc_add : wrapAcc w (wrapAcc w x + y) = wrapAcc w (x + y) := Int.bmod_add_bmod

theorem wrapAcc_sub_wrapAcc : wrapAcc w (x - wrapAcc w y) = wrapAcc w (x - y) := Int.sub_bmod_bmod

theorem wrapAcc_wrapAcc_sub : wrapAcc w (wrapAcc w x - y) = wrapAcc w (x - y) := Int.bmod_sub_bmod

theorem wrapAcc_multiply_wrapAcc :
    wrapAcc w (multiply (wrapAcc w x) y) = wrapAcc w (multiply x y) := Int.bmod_mul_bmod

theorem dcScaleOn_wrapAcc (b : Precision) (st : Stage) :
    dcScaleOn (wrapAcc w) b st (wrapAcc w x) = dcScaleOn (wrapAcc w) b st x := by
  cases st with
  | row => exact Int.bmod_mul_bmod
  | col => exact congrArg (asr · _) (wrapAcc_wrapAcc_add ..)

theorem descaleOn_wrapAcc (n : Nat) :
    descaleOn (wrapAcc w) (wrapAcc w x) n = descaleOn (wrapAcc w) x n :=
  congrArg (asr · n) (wrapAcc_wrapAcc_add ..)

end

theorem wrapAcc_of_fitsAcc {w : Nat} (hw : 1 ≤ w) {v : Int} (h : fitsAcc w v) : wrapAcc w v = v := by
  obtain ⟨hlow, hhigh⟩ := h
  have htwo := two_pow_eq_two_mul hw
  exact Int.bmod_eq_of_le (by push_cast; omega) (by push_cast; omega)

/-- Wrapping on the way does not show where the sum is wrapped again (R125). -/
theorem dct1dOn_wrapAcc_get (w : Nat) (b : Precision) (F : FixName → Int) (st : Stage) (x : Vec8)
    (k : Fin 8) :
    (dct1dOn (wrapAcc w) b F st x).get k = roundSumOn (wrapAcc w) b st k ((lineSums F x).get k) := by
  match k with
  | 0 | 1 | 2 | 3 | 4 | 5 | 6 | 7 =>
    simp only [Vec8.get, roundSumOn, dct1dOn, evenPartOn, oddPartOn, lineSums, lineOddSums, oddSums,
      wrapAcc_add_wrapAcc, wrapAcc_wrapAcc_add, wrapAcc_sub_wrapAcc, wrapAcc_wrapAcc_sub,
      wrapAcc_multiply_wrapAcc, dcScaleOn_wrapAcc, descaleOn_wrapAcc]

/-- A sum that fits with its bias is rounded exactly. -/
theorem roundSumOn_eq {acc : Int → Int} {W : Int} (hacc : ∀ v, -W ≤ v → v ≤ W → acc v = v)
    {b : Precision} {st : Stage} {k : Fin 8} {v : Int} (hv : |v| + 2 ^ (descaleShift b st - 1) ≤ W)
    (hdc : k = 0 ∨ k = 4 → 4 * |v| + 2 ≤ W) : roundSumOn acc b st k v = roundSum b st k v := by
  have hdescale : descaleOn acc v (descaleShift b st) = descale v (descaleShift b st) := by
    have hbias : (0 : Int) < 2 ^ (descaleShift b st - 1) := by positivity
    obtain ⟨hlow, hhigh⟩ := abs_le.mp (le_refl |v|)
    exact congrArg (asr · _) (hacc _ (by omega) (by omega))
  match k with
  | 0 | 4 => exact dcScaleOn_eq hacc (hdc (by decide))
  | 1 | 2 | 3 | 5 | 6 | 7 => exact hdescale

/-- Settles O28: the biased sums are right modulo `2^32`, and `60548 * 32768` and the bias are below
`2^31`. -/
theorem wrappingThirtyTwoBitDatapathIsExactAtTwelveBits :
    Obligations.WrappingThirtyTwoBitDatapathIsExactAtTwelveBits := by
  intro t st x hx
  have hacc (v : Int) (hlow : -(2 ^ 31 - 1) ≤ v) (hhigh : v ≤ 2 ^ 31 - 1) : wrapAcc 32 v = v :=
    wrapAcc_of_fitsAcc (by decide) ⟨by omega, hhigh⟩
  have hbias : (2 : Int) ^ (descaleShift .b12 st - 1) ≤ 2 ^ 13 := by cases st <;> decide
  have hm (k : Fin 8) : |x.get k| ≤ 32768 := hx.abs_le k
  refine Vec8.ext_get fun k => ?_
  rw [dct1dOn_wrapAcc_get, dct1d_get]
  refine roundSumOn_eq hacc ?_ fun hk => ?_
  · linarith [lineSums_abs_le hm t k]
  · linarith [lineSums_dc_abs_le hm (fix t) hk]

end Sys2Proof.Machine
end

section
/-! PROOFS. 40_dct_forward.md, the operations: one line (R112, R113), the whole transform (R114, R116,
R117), its parts (R115, R90), the sum of the samples (R122) and linearity up to rounding (R123). -/

namespace Sys2Proof.Machine

/-! ### One line (R111, R112, R113) -/

/-- The operation of a stage on one line. -/
def lineInstr : Stage → BitVec 3 → Instr
  | .row => .dctRow
  | .col => .dctCol

theorem exec_lineInstr (st : Stage) (n : BitVec 3) (s : State) :
    exec (lineInstr st n) s = dctLine st n s := by
  cases st <;> rfl

/-- A line that is not in contract is refused. -/
theorem dctLine_refuses {st : Stage} {n : BitVec 3} {s : State} {u : Dctu} (hu : AtDctu s u)
    (h : ¬LineReady s.cfg.precision st n u.blk) : Refuses (dctLine st n s) := by
  rw [refuses_iff]
  intro t ht
  obtain ⟨v, hv, hr, -⟩ := dctLine_next.mp ht
  rw [AtDctu.unique hu hv] at h
  exact h hr

/-- One undefined element, or one outside the domain, and the line is not in contract. -/
theorem not_lineReady {p : Precision} {st : Stage} {n : BitVec 3} {b : Block} {k : Fin 8}
    (h : b.get (lineElement st n k) = none ∨
      ∃ v, b.get (lineElement st n k) = some v ∧ inDomain p st v = false) :
    ¬LineReady p st n b := by
  rintro ⟨x, hx, hd⟩
  rcases h with h | ⟨v, h, hv⟩
  · rw [hx k] at h
    cases h
  · rw [hx k] at h
    cases h
    rw [hd k] at hv
    cases hv

theorem LineIs.transformLine_own (c : Config) {st : Stage} {n : BitVec 3} {b : Block} {x : Vec8}
    (h : LineIs b st n x) :
    LineIs (transformLine c st n b) st n (dct1d c.precision (fix c.fixTab) st x) := fun k => by
  rw [transformLine_get_own, readLine_of_lineIs h]

/-- Settles O30: a line in contract is transformed in place, and what is not in contract is refused. -/
theorem dctLineResult : Obligations.DctLineResult := by
  intro st n s u hu
  have hline {x : Vec8} (hx : LineIs u.blk st n x) (hd : LineInDomain s.cfg.precision st x) :=
    dctLine_next.mpr ⟨u, hu, ⟨x, hx, hd⟩, rfl⟩
  cases st with
  | row | col =>
    exact ⟨fun x hx hd => ⟨_, hline hx hd, hx.transformLine_own s.cfg,
        fun e he => ⟨transformLine_val_other _ _ he, transformLine_defd_other _ _ he⟩⟩,
      fun ⟨_, hk⟩ => dctLine_refuses hu (not_lineReady hk)⟩

/-! ### The whole transform (R114, R116, R117) -/

/-- Settles O32: the groups of lanes do what the lines do one after the other, under the same
precondition. -/
theorem forwardStrategiesAgree : Obligations.ForwardStrategiesAgree := by
  intro s
  have hrun : forwardParallel = forwardScalar := funext₂ forwardParallel_eq
  exact congrArg (dctForward · s) hrun

/-- Everything `DCT_FWD` of either strategy can do. -/
theorem exec_forward_next {i : Instr} (hi : i = .dctFwdS ∨ i = .dctFwdP) {s t : State} :
    exec i s = .next t ↔
      ∃ u, AtDctu s u ∧ BlockReady s.cfg.precision u.blk ∧
        t = s.setDctu s.port { u with blk := forwardScalar s.cfg u.blk } := by
  have hS : exec .dctFwdS s = .next t ↔ _ := dctForward_next
  rcases hi with rfl | rfl
  · exact hS
  · rw [forwardStrategiesAgree s]
    exact hS

theorem lineIs_scalarPass (c : Config) (st : Stage) (b : Block) (n : BitVec 3) :
    LineIs (scalarPass c st eightLines b) st n
      (dct1d c.precision (fix c.fixTab) st (b.readLine st n)) :=
  fun k => scalarPass_get c st eightLines b eightLines_nodup (mem_eightLines n) k

/-- Settles O31: the intermediate is the block after the pass over the rows. -/
theorem dctForwardResult : Obligations.DctForwardResult := by
  intro i s u hi hu
  refine ⟨fun hb => ⟨scalarPass s.cfg .row eightLines u.blk, forwardScalar s.cfg u.blk,
    (exec_forward_next hi).mpr ⟨u, hu, hb, rfl⟩, lineIs_scalarPass s.cfg .row u.blk,
    lineIs_scalarPass s.cfg .col _⟩, fun hb => ?_⟩
  rw [refuses_iff]
  intro t ht
  obtain ⟨v, hv, hr, -⟩ := (exec_forward_next hi).mp ht
  rw [AtDctu.unique hu hv] at hb
  exact hb hr

/-! ### The transform as 16 line operations (R115, R90) -/

theorem runAll_cons_lineInstr {s : State} {u : Dctu} {st : Stage} {n : BitVec 3} (is : List Instr)
    (hu : AtDctu s u) (hr : LineReady s.cfg.precision st n u.blk) :
    runAll (lineInstr st n :: is) s =
      runAll is (s.setDctu s.port { u with blk := transformLine s.cfg st n u.blk }) :=
  runAll_cons_next ((exec_lineInstr st n s).trans (dctLine_next.mpr ⟨u, hu, hr, rfl⟩))

/-- Line operations one after the other do what the pass over their lines does. -/
theorem runAll_lineInstr {s : State} {u : Dctu} {st : Stage} {ns : List (BitVec 3)} {b b' : Block}
    (hu : AtDctu s u) (hb : passChecked s.cfg st ns b = .ok b') :
    runAll (ns.map (lineInstr st)) (s.setDctu s.port { u with blk := b }) =
      .next (s.setDctu s.port { u with blk := b' }) := by
  induction ns generalizing b with
  | nil => cases hb; rfl
  | cons n ns ih =>
    rw [passChecked] at hb
    split at hb
    · rename_i b₁ hb₁
      obtain ⟨hr, rfl⟩ := transformChecked_ok.mp hb₁
      have hat : AtDctu (s.setDctu s.port { u with blk := b }) { u with blk := b } :=
        State.setDctu_same _ hu
      rw [List.map_cons, runAll_cons_lineInstr _ hat hr, State.setDctu_port, State.setDctu_twice]
      exact ih hb
    · cases hb

/-- The 8 lines of a stage in any order. -/
theorem runAll_pass {s : State} {u : Dctu} {st : Stage} {ns : List (BitVec 3)} {b : Block}
    (hu : AtDctu s u) (hns : ns.Perm eightLines) (hr : ∀ n, LineReady s.cfg.precision st n b) :
    runAll (ns.map (lineInstr st)) (s.setDctu s.port { u with blk := b }) =
      .next (s.setDctu s.port { u with blk := scalarPass s.cfg st eightLines b }) := by
  have hnd : ns.Nodup := hns.nodup_iff.mpr eightLines_nodup
  rw [← scalarPass_perm s.cfg st b hns hnd]
  exact runAll_lineInstr hu (passChecked_ok hnd fun n _ => hr n)

/-- On a block in contract, the rows in any order and then the columns in any order. -/
theorem runAll_rows_cols {s : State} {u : Dctu} {rs cs : List (BitVec 3)} (hu : AtDctu s u)
    (hb : BlockReady s.cfg.precision u.blk) (hrs : rs.Perm eightLines) (hcs : cs.Perm eightLines) :
    runAll (rs.map Instr.dctRow ++ cs.map Instr.dctCol) s =
      .next (s.setDctu s.port { u with blk := forwardScalar s.cfg u.blk }) := by
  have hrows := runAll_pass (st := .row) hu hrs (LineReady.of_block hb)
  rw [State.setDctu_self hu] at hrows
  exact (runAll_append hrows).trans
    (runAll_pass (st := .col) hu hcs (lineReady_col_of_rowDone (rowDone_scalarPass hb)))

/-- A DCT unit with 1 in `BLK(0,0)` and 0 in every other element. -/
def impulseUnit : Dctu where
  blk := ⟨(Vector.replicate 64 0).set 0 1, Vector.replicate 64 true⟩
  progress := .idle

/-- The reset state with this DCT unit. -/
def impulseState : State := State.reset.setDctu 0 impulseUnit

theorem at_impulseState : AtDctu impulseState impulseUnit := rfl

/-- What line 0 of one stage and then line 0 of another make of it. -/
def impulseAfter (st st' : Stage) : Block :=
  transformLine Config.default st' 0 (transformLine Config.default st 0 impulseUnit.blk)

theorem runAll_impulse {st st' : Stage} (hne : st ≠ st') :
    runAll [lineInstr st 0, lineInstr st' 0] impulseState =
      .next (impulseState.setDctu 0 { impulseUnit with blk := impulseAfter st st' }) := by
  have hfirst : LineReady .b8 st 0 impulseUnit.blk :=
    (requireLine_ok ..).mp (by cases st <;> decide +kernel)
  have hsecond : LineReady .b8 st' 0 (transformLine Config.default st 0 impulseUnit.blk) :=
    (requireLine_ok ..).mp (by revert hne; cases st <;> cases st' <;> decide +kernel)
  have hat := State.setDctu_same
    { impulseUnit with blk := transformLine Config.default st 0 impulseUnit.blk } at_impulseState
  refine (runAll_cons_lineInstr _ at_impulseState hfirst).trans ?_
  refine (runAll_cons_lineInstr [] hat hsecond).trans ?_
  exact congrArg _ (State.setDctu_twice ..)

/-- Row 0 of the impulse is `[4,6,5,…]` (R112), and column 0 of it is 0 (R113). -/
theorem impulseAfter_ne : impulseAfter .row .col ≠ impulseAfter .col .row := fun h =>
  absurd (congrArg (·.get 1) h) (by decide +kernel)

/-- Settles O33: the order within a pass does not matter, and after the rows the columns are in contract;
the two operations that share `BLK(0,0)` leave different blocks of the unit impulse. -/
theorem forwardDecomposesInAnyOrder : Obligations.ForwardDecomposesInAnyOrder := by
  constructor
  · intro s u rs cs hu hb hrs hcs
    have hfwd {i : Instr} (hi : i = .dctFwdS ∨ i = .dctFwdP) :=
      (exec_forward_next hi).mpr ⟨u, hu, hb, rfl⟩
    exact ⟨_, hfwd (.inl rfl), hfwd (.inr rfl), runAll_rows_cols hu hb hrs hcs,
      runAll_rows_cols hu hb (.refl _) (.refl _)⟩
  · refine ⟨impulseState, _, _, runAll_impulse (st := .row) (st' := .col) (by decide),
      runAll_impulse (st := .col) (st' := .row) (by decide), fun h => impulseAfter_ne ?_⟩
    have hat (b : Block) := State.setDctu_same { impulseUnit with blk := b } at_impulseState
    have hunit := (hat _).symm.trans ((congrArg (fun t : State => t.dctus[0]?) h).trans (hat _))
    exact congrArg Dctu.blk (Option.some.inj hunit)

/-! ### The block after a transform -/

/-- Element `k` of column `n` after the pass over the rows is output `n` of row `k`. -/
theorem rowPass_readLine_col_get (c : Config) (b : Block) (n : BitVec 3) (k : Fin 8) :
    ((scalarPass c .row eightLines b).readLine .col n).get k =
      (dct1d c.precision (fix c.fixTab) .row (b.readLine .row (BitVec.ofFin k))).get n.toFin := by
  rw [Block.readLine_get]
  exact Block.val_of_get (lineIs_scalarPass c .row b (BitVec.ofFin k) n.toFin)

theorem forwardScalar_get (c : Config) (b : Block) (n : BitVec 3) (k : Fin 8) :
    (forwardScalar c b).get (lineElement .col n k) =
      some ((dct1d c.precision (fix c.fixTab) .col
        ((scalarPass c .row eightLines b).readLine .col n)).get k) :=
  lineIs_scalarPass c .col _ n k

/-! ### The sum of the samples (R122) -/

/-- The sum of a line's values. -/
def Vec8.sum (x : Vec8) : Int := (eight.map x.get).sum

theorem lineSums_get_zero (F : FixName → Int) (x : Vec8) : (lineSums F x).get 0 = x.sum := by
  simp only [lineSums, Vec8.sum, eight, Vec8.get, List.map_cons, List.map_nil, List.sum_cons,
    List.sum_nil]
  ring

/-- The 64 elements, row by row. -/
theorem finRange_eq_rows :
    List.finRange 64 = (eight.map fun k => eight.map (lineElement .row (BitVec.ofFin k))).flatten := by
  decide

theorem sum_rows (b : Block) :
    ((List.finRange 64).map fun i => b.val[i]).sum =
      (eight.map fun k => (b.readLine .row (BitVec.ofFin k)).sum).sum := by
  have hget (k : Fin 8) : (b.readLine .row (BitVec.ofFin k)).get =
      fun j => b.val[lineElement .row (BitVec.ofFin k) j] := funext fun _ => b.readLine_get ..
  simp only [finRange_eq_rows, List.map_flatten, List.sum_flatten, List.map_map, Vec8.sum,
    Function.comp_def, hget]

/-- The row stage scales each row's sum up into column 0. -/
theorem rowPass_column_zero_sum (c : Config) (b : Block) :
    ((scalarPass c .row eightLines b).readLine .col 0).sum =
      2 ^ pass1Bits c.precision * ((List.finRange 64).map fun i => b.val[i]).sum := by
  rw [sum_rows, ← List.sum_map_mul_left, Vec8.sum]
  refine congrArg (fun f => (eight.map f).sum) (funext fun k => ?_)
  rw [rowPass_readLine_col_get, mul_comm]
  exact (dct1d_get ..).trans (congrArg (dcScale _ .row) (lineSums_get_zero ..))

/-- The column stage scales the sum of column 0 down again, without a remainder. -/
theorem forwardScalar_get_zero (c : Config) (b : Block) :
    (forwardScalar c b).get 0 = some ((List.finRange 64).map fun i => b.val[i]).sum := by
  refine (forwardScalar_get c b 0 0).trans (congrArg some ?_)
  rw [dct1d_get, lineSums_get_zero, rowPass_column_zero_sum]
  exact descale_two_pow_mul _ (one_le_pass1Bits _)

theorem dct1d_constant_get {b : Precision} {F : FixName → Int} {st : Stage} {x : Vec8} {v : Int}
    (hx : ∀ k, x.get k = v) (k : Fin 8) :
    (dct1d b F st x).get k = if k = 0 then dcScale b st (8 * v) else 0 := by
  have hconst : x = ⟨v, v, v, v, v, v, v, v⟩ := Vec8.ext_get fun j => by
    rw [hx j]
    match j with
    | 0 | 1 | 2 | 3 | 4 | 5 | 6 | 7 => rfl
  rw [hconst, dct1d_constant]
  match k with
  | 0 | 1 | 2 | 3 | 4 | 5 | 6 | 7 => rfl

theorem columnElement_eq_zero (n : BitVec 3) (k : Fin 8) :
    lineElement .col n k = 0 ↔ k = 0 ∧ n.toFin = 0 := by
  revert n k
  decide

theorem dcScale_col_row (b : Precision) (v : Int) :
    dcScale b .col (8 * dcScale b .row v) = 8 * v := by
  have hshl : 8 * shl v (pass1Bits b) = 2 ^ pass1Bits b * (8 * v) := by rw [shl]; ring
  exact (congrArg (descale · _) hshl).trans (descale_two_pow_mul _ (one_le_pass1Bits b))

/-- Of equal values each row leaves its scaled sum and zeros, so column 0 is constant and the others
are 0. -/
theorem forwardScalar_constant (c : Config) {b : Block} {v : Int} (hv : ∀ i : Fin 64, b.val[i] = v)
    (i : Fin 64) : (forwardScalar c b).get i = some (if i = 0 then 64 * v else 0) := by
  obtain ⟨n, k, rfl⟩ := exists_lineElement .col i
  have hrow (r : BitVec 3) (j : Fin 8) : (b.readLine .row r).get j = v := by
    rw [Block.readLine_get, hv]
  have hcol (j : Fin 8) : ((scalarPass c .row eightLines b).readLine .col n).get j =
      if n.toFin = 0 then dcScale c.precision .row (8 * v) else 0 := by
    rw [rowPass_readLine_col_get, dct1d_constant_get (hrow _)]
  rw [forwardScalar_get, dct1d_constant_get hcol]
  simp only [columnElement_eq_zero]
  by_cases hk : k = 0
  · by_cases hn : n.toFin = 0
    · simp only [hk, hn, and_self, if_true, dcScale_col_row, ← mul_assoc, Int.reduceMul]
    · simp only [hk, hn, and_false, if_true, if_false, mul_zero, dcScale_zero]
  · simp only [hk, false_and, if_false]

/-- Settles O35: the sum of the samples goes through both stages exactly, and equal samples give zeros
elsewhere. -/
theorem forwardDcIsTheSum : Obligations.ForwardDcIsTheSum := by
  intro s t u u' hu _ hexec hu'
  obtain ⟨v, hv, -, rfl⟩ := (exec_forward_next (.inl rfl)).mp hexec
  obtain rfl := AtDctu.unique hu hv
  obtain rfl := Option.some.inj ((State.setDctu_same _ hu).symm.trans hu')
  exact ⟨forwardScalar_get_zero s.cfg u.blk, fun v hv => forwardScalar_constant s.cfg hv⟩

/-! ### Linearity up to rounding (R123) -/

theorem descale_two_pow_mul_add (a : Nat) (x : Int) {n : Nat} (hn : 1 ≤ n) :
    descale (2 ^ a * x) (a + n) = descale x n := by
  have hbias : (2 : Int) ^ (a + n - 1) = 2 ^ a * 2 ^ (n - 1) := by
    rw [← pow_add, Nat.add_sub_assoc hn]
  rw [descale_eq_ediv, descale_eq_ediv, hbias, pow_add, ← mul_add,
    Int.mul_ediv_mul_of_pos _ _ (by positivity)]

/-- The factor that makes the scaling of outputs 0 and 4 the same rounding as that of the others. -/
def sumWeight : Fin 8 → Int
  | 0 => 2 ^ constBits
  | 4 => 2 ^ constBits
  | _ => 1

theorem dcScale_eq_descale (b : Precision) (st : Stage) (v : Int) :
    dcScale b st v = descale (2 ^ constBits * v) (descaleShift b st) := by
  cases st with
  | row =>
    have hsplit : (2 : Int) ^ constBits * v = 2 ^ descaleShift b .row * shl v (pass1Bits b) := by
      rw [shl, mul_comm v, ← mul_assoc, ← pow_add]
      cases b <;> rfl
    rw [hsplit, descale_two_pow_mul _ (one_le_descaleShift b .row), dcScale]
  | col => exact (descale_two_pow_mul_add constBits v (one_le_pass1Bits b)).symm

theorem roundSum_eq_descale (b : Precision) (st : Stage) (k : Fin 8) (v : Int) :
    roundSum b st k v = descale (sumWeight k * v) (descaleShift b st) := by
  match k with
  | 0 | 4 => exact dcScale_eq_descale b st v
  | 1 | 2 | 3 | 5 | 6 | 7 => exact congrArg (descale · _) (one_mul v).symm

/-- The sums of an output as they are descaled, in either stage. -/
theorem dct1d_get_eq_descale (b : Precision) (F : FixName → Int) (st : Stage) (x : Vec8) (k : Fin 8) :
    (dct1d b F st x).get k = descale (sumWeight k * (lineSums F x).get k) (descaleShift b st) := by
  rw [dct1d_get, roundSum_eq_descale]

/-- `8 * 2^13` for outputs 0 and 4, at most 60548 for the others. -/
theorem sumWeight_mul_lineSums_abs_le (t : FixTab) {x : Vec8} {m : Int} (hx : ∀ k, |x.get k| ≤ m)
    (k : Fin 8) : |sumWeight k * (lineSums (fix t) x).get k| ≤ 2 ^ 16 * m := by
  have hm : 0 ≤ m := (abs_nonneg _).trans (hx 0)
  have hsum := lineSums_abs_le hx t k
  have hdc := lineSums_dc_abs_le hx (fix t) (k := k)
  match k with
  | 0 | 4 =>
    rw [abs_mul, sumWeight, abs_of_pos (by positivity), constBits]
    linarith [hdc (by decide)]
  | 1 | 2 | 3 | 5 | 6 | 7 =>
    simp only [sumWeight, one_mul]
    linarith

/-- Twice the deviation of `z` from `a * x + b * y`. -/
def deviation (a b x y z : Int) : Int := 2 * (z - a * x - b * y)

/-- The same of each value of a line. -/
def lineDeviation (a b : Int) (x y z : Vec8) : Vec8 where
  x0 := deviation a b x.x0 y.x0 z.x0
  x1 := deviation a b x.x1 y.x1 z.x1
  x2 := deviation a b x.x2 y.x2 z.x2
  x3 := deviation a b x.x3 y.x3 z.x3
  x4 := deviation a b x.x4 y.x4 z.x4
  x5 := deviation a b x.x5 y.x5 z.x5
  x6 := deviation a b x.x6 y.x6 z.x6
  x7 := deviation a b x.x7 y.x7 z.x7

theorem lineDeviation_get (a b : Int) (x y z : Vec8) (k : Fin 8) :
    (lineDeviation a b x y z).get k = deviation a b (x.get k) (y.get k) (z.get k) := by
  match k with
  | 0 | 1 | 2 | 3 | 4 | 5 | 6 | 7 => rfl

/-- The sums are linear. -/
theorem lineSums_deviation (F : FixName → Int) (a b : Int) (x y z : Vec8) :
    lineSums F (lineDeviation a b x y z) =
      lineDeviation a b (lineSums F x) (lineSums F y) (lineSums F z) := by
  simp only [lineSums, lineOddSums, oddSums, multiply, lineDeviation, deviation, Vec8.mk.injEq]
  refine ⟨?_, ?_, ?_, ?_, ?_, ?_, ?_, ?_⟩ <;> ring

theorem abs_add_sub_sub_le (p q r s : Int) : |p + q - r - s| ≤ |p| + |q| + |r| + |s| := by
  linarith [abs_sub (p + q - r) s, abs_sub (p + q) r, abs_add_le p q]

/-- Rounding three sums adds at most their three errors of 1/2. -/
theorem descale_deviation_le (a b x y z : Int) {n : Nat} (hn : 1 ≤ n) :
    2 ^ n * |deviation a b (descale x n) (descale y n) (descale z n)| ≤
      |deviation a b x y z| + 2 ^ n * (1 + |a| + |b|) := by
  have hscaled (c v : Int) : |c * (2 * (2 ^ n * descale v n - v))| ≤ |c| * 2 ^ n := by
    rw [abs_mul]
    exact mul_le_mul_of_nonneg_left (descale_error_le v hn) (abs_nonneg c)
  calc 2 ^ n * |deviation a b (descale x n) (descale y n) (descale z n)|
      = |2 ^ n * deviation a b (descale x n) (descale y n) (descale z n)| := by
        rw [abs_mul, abs_of_pos (by positivity : (0 : Int) < 2 ^ n)]
    _ = |deviation a b x y z + 2 * (2 ^ n * descale z n - z) - a * (2 * (2 ^ n * descale x n - x)) -
          b * (2 * (2 ^ n * descale y n - y))| := by
        simp only [deviation]
        ring_nf
    _ ≤ |deviation a b x y z| + 2 ^ n + |a| * 2 ^ n + |b| * 2 ^ n := by
        refine (abs_add_sub_sub_le ..).trans ?_
        gcongr
        · exact descale_error_le z hn
        · exact hscaled a x
        · exact hscaled b y
    _ = |deviation a b x y z| + 2 ^ n * (1 + |a| + |b|) := by ring

/-- One stage: the deviation of the inputs, multiplied by the coefficients, and the three roundings. -/
theorem dct1d_deviation_le {p : Precision} {t : FixTab} {st : Stage} {a b E : Int} {x y z : Vec8}
    (hE : ∀ k, |deviation a b (x.get k) (y.get k) (z.get k)| ≤ E) (k : Fin 8) :
    2 ^ descaleShift p st * |deviation a b ((dct1d p (fix t) st x).get k)
      ((dct1d p (fix t) st y).get k) ((dct1d p (fix t) st z).get k)| ≤
    2 ^ 16 * E + 2 ^ descaleShift p st * (1 + |a| + |b|) := by
  have hsums : |sumWeight k * (lineSums (fix t) (lineDeviation a b x y z)).get k| ≤ 2 ^ 16 * E :=
    sumWeight_mul_lineSums_abs_le t (fun j => by rw [lineDeviation_get]; exact hE j) k
  have hlinear : sumWeight k * (lineSums (fix t) (lineDeviation a b x y z)).get k =
      deviation a b (sumWeight k * (lineSums (fix t) x).get k) (sumWeight k * (lineSums (fix t) y).get k)
        (sumWeight k * (lineSums (fix t) z).get k) := by
    rw [lineSums_deviation, lineDeviation_get, deviation, deviation]
    ring
  rw [hlinear] at hsums
  simp only [dct1d_get_eq_descale]
  linarith [descale_deviation_le a b (sumWeight k * (lineSums (fix t) x).get k)
    (sumWeight k * (lineSums (fix t) y).get k) (sumWeight k * (lineSums (fix t) z).get k)
    (one_le_descaleShift p st)]

/-- Twice R123's `e`. -/
def roundingBound : Precision → Int
  | .b8 => 3
  | .b12 => 5

/-- What the rows leave deviates by at most `(1 + |a| + |b|) / 2`. -/
theorem rowPass_deviation_le (c : Config) {a b : Int} {X Y Z : Block}
    (h : ∀ i : Fin 64, Z.val[i] = a * X.val[i] + b * Y.val[i]) (n : BitVec 3) (k : Fin 8) :
    |deviation a b (((scalarPass c .row eightLines X).readLine .col n).get k)
      (((scalarPass c .row eightLines Y).readLine .col n).get k)
      (((scalarPass c .row eightLines Z).readLine .col n).get k)| ≤ 1 + |a| + |b| := by
  have hinput (r : BitVec 3) (j : Fin 8) : |deviation a b ((X.readLine .row r).get j)
      ((Y.readLine .row r).get j) ((Z.readLine .row r).get j)| ≤ 0 := by
    rw [abs_nonpos_iff, Block.readLine_get, Block.readLine_get, Block.readLine_get, h, deviation]
    ring
  simp only [rowPass_readLine_col_get]
  refine le_of_mul_le_mul_left ((dct1d_deviation_le (hinput _) _).trans_eq ?_)
    (by positivity : (0 : Int) < 2 ^ descaleShift c.precision .row)
  rw [mul_zero, zero_add]

/-- The columns make at most `2^16 / 2^SH_COL` times as much of it, and add as much again. -/
theorem forwardScalar_deviation_le (c : Config) {a b : Int} {X Y Z : Block}
    (h : ∀ i : Fin 64, Z.val[i] = a * X.val[i] + b * Y.val[i]) (i : Fin 64) :
    |deviation a b (forwardScalar c X).val[i] (forwardScalar c Y).val[i] (forwardScalar c Z).val[i]| ≤
      roundingBound c.precision * (1 + |a| + |b|) := by
  obtain ⟨n, k, rfl⟩ := exists_lineElement .col i
  have hval (b : Block) := Block.val_of_get (forwardScalar_get c b n k)
  have hbound : (2 : Int) ^ 16 + 2 ^ descaleShift c.precision .col =
      2 ^ descaleShift c.precision .col * roundingBound c.precision := by
    cases c.precision <;> rfl
  rw [hval, hval, hval]
  refine le_of_mul_le_mul_left
    ((dct1d_deviation_le (rowPass_deviation_le c h n) k).trans_eq ?_)
    (by positivity : (0 : Int) < 2 ^ descaleShift c.precision .col)
  rw [← add_mul, hbound, mul_assoc]

/-- Settles O36: the bound of the whole transform, for each strategy. -/
theorem forwardIsLinearUpToRounding : Obligations.ForwardIsLinearUpToRounding := by
  intro i sX sY sZ uX uY uZ a b hi hX hY hZ hcX hcY hbX hbY hbZ h
  refine ⟨forwardScalar sZ.cfg uX.blk, forwardScalar sZ.cfg uY.blk, forwardScalar sZ.cfg uZ.blk,
    (exec_forward_next hi).mpr ⟨uX, hX, ?_, ?_⟩, (exec_forward_next hi).mpr ⟨uY, hY, ?_, ?_⟩,
    (exec_forward_next hi).mpr ⟨uZ, hZ, hbZ, rfl⟩, fun k => ?_⟩
  · rwa [hcX]
  · rw [hcX]
  · rwa [hcY]
  · rw [hcY]
  · have hdev := forwardScalar_deviation_le sZ.cfg h k
    rw [deviation, abs_mul] at hdev
    exact hdev

end Sys2Proof.Machine
end

section
/-! PROOFS. 41_color_expand.md: the lifecycle of the colormap (R141, R142, R150), the expansion of one
position and of a row (R140, R143, R144, R146, R147, R151), its parts (R145), its repetition (R149), what
it refuses (R148) and what it leaves unchanged. -/

namespace Sys2Proof.Machine

/-! ### The lifecycle (R141, R142) -/

/-- Settles O39, from everything `CMAP_PUBLISH` can do. -/
theorem publishResult : Obligations.PublishResult := by
  intro len s u hu hlen
  refine ⟨fun hx hf hp => ?_, execCmapPublish_refuses⟩
  exact execCmapPublish_next.mpr ⟨⟨u, hu⟩, hx, hf, hlen, (entriesDefined_iff ..).mpr hp, rfl⟩

theorem execCmapRelease_refuses {s : State} (h : s.anyExpanding = true ∨ s.cmapFrozen = false) :
    Refuses (execCmapRelease s) := by
  refine (refuses_iff _).mpr fun t ht => ?_
  obtain ⟨-, hx, hf, -⟩ := execCmapRelease_next.mp ht
  exact h.elim (ne_true_of_eq_false hx) (ne_true_of_eq_false · hf)

/-- Settles O40, from everything `CMAP_RELEASE` can do. -/
theorem releaseResult : Obligations.ReleaseResult := by
  intro s u hu
  exact ⟨fun hx hf => execCmapRelease_next.mpr ⟨⟨u, hu⟩, hx, hf, rfl⟩, execCmapRelease_refuses⟩

/-! ### The frozen colormap (R150, R198) -/

/-- Completing an operation leaves the colormap's phase. -/
theorem settle_cmapFrozen {unit : Option FuncUnit} {s t : State} (hs : settle unit s = .ok t) :
    t.cmapFrozen = s.cmapFrozen := by
  match unit with
  | none => cases hs; rfl
  | some .dctu => rcases settle_dctu.mp hs with ⟨-, rfl⟩ | ⟨u, u', -, -, rfl⟩ <;> rfl
  | some .cexu => rcases settle_cexu.mp hs with ⟨-, rfl⟩ | ⟨u, u', -, -, rfl⟩ <;> rfl

/-- `HostWrCMAP` takes effect on an open colormap only (R54). -/
theorem cmapFrozen_of_wrCmap {s t : State} {k i v : Nat} {ch : Channel}
    (h : perform (.host k (.wrCmap ch i v)) s = .next t) : s.cmapFrozen = false := by
  obtain ⟨s', hs, h⟩ := onceSettled_next.mp h
  obtain ⟨-, -, hf, -⟩ := hostWrCmap_next.mp h
  exact (settle_cmapFrozen hs).symm.trans hf

/-- So does `CMAP_PUBLISH`, issued or begun (R141). -/
theorem cmapFrozen_of_issues_publish {e : Event} {s t : State} {k : Nat} {len : BitVec 9}
    (he : e.Issues k fun i => i == .cmapPublish len) (h : perform e s = .next t) :
    s.cmapFrozen = false := by
  obtain ⟨w, i, he, hi, hlen⟩ := he
  cases eq_of_beq hlen
  obtain ⟨s', hs, hpub⟩ : ∃ s', settle (commandUnit w) { s with port := k } = .ok s' ∧
      execCmapPublish len s' = .next t := by
    rcases he with rfl | rfl
    · obtain ⟨s', hs, h⟩ := onceSettled_next.mp h
      exact ⟨s', hs, (congrFun (hostIssue_of_decode hi) s').symm.trans h⟩
    · obtain ⟨s', hs, h⟩ := onceSettled_next.mp h
      exact ⟨s', hs, (congrFun (hostStart_of_decode hi) s').symm.trans h⟩
  obtain ⟨-, -, hf, -⟩ := execCmapPublish_next.mp hpub
  exact (settle_cmapFrozen hs).symm.trans hf

/-- Settles O53: of what R33 lets an event write, the entries and the length need an open colormap. -/
theorem frozenColormapDoesNotChange : Obligations.FrozenColormapDoesNotChange := by
  intro s t e rest hin hr hf h
  rw [step_of_inputs hin] at h
  have hopen : s.cmapFrozen ≠ false := by simp [hf]
  have hw := perform_changesOnly hr h
  constructor
  · refine hw.cmap.resolve_right ?_
    rintro ⟨k, ch, i, v, rfl⟩
    exact absurd (cmapFrozen_of_wrCmap h) hopen
  · rcases hw.regs with ⟨hl, -⟩ | ⟨-, k, hpub⟩ | ⟨hl, -⟩
    · exact hl
    · exact absurd (cmapFrozen_of_issues_publish hpub h) hopen
    · exact hl

/-! ### What an expansion can do (R143, R144, R147) -/

/-- Settles O44: under the same precondition the groups of lanes do what the positions do one after the
other. -/
theorem rowStrategiesAgree : Obligations.RowStrategiesAgree := by
  intro n s
  refine congrArg (onCexu s) (funext fun u => ?_)
  cases hr : requireRow s u n with
  | ok _ => simp only [expandParallel_eq_of_requireRow hr]
  | error e => rfl

/-- The positions an expansion names. -/
def expandedPositions : Instr → List Nat
  | .dctRow _ => []
  | .dctCol _ => []
  | .dctFwdS => []
  | .dctFwdP => []
  | .cmapPublish _ => []
  | .cmapRelease => []
  | .cexpPix p => [p.toNat]
  | .cexpRowS n => List.range n.toNat
  | .cexpRowP n => List.range n.toNat

/-- A row whose positions all have a colour is no longer than `MAX_ROW`. -/
theorem requireRow_of_expandScalar {s : State} {u : Cexu} {n : BitVec 16} {rgb rgb' : Memory}
    (hf : s.cmapFrozen = true) (hx : expandScalar s u (List.range n.toNat) rgb = .ok rgb') :
    requireRow s u n = .ok () := by
  have hpix : ∀ p, p < n.toNat → ∃ t, pixel s u p = .ok t := fun p hp =>
    (expandScalar_isOk _ _).mp ⟨rgb', hx⟩ p (List.mem_range.mpr hp)
  refine requireRow_ok.mpr ⟨hf, Nat.le_of_not_lt fun hlt => ?_, hpix⟩
  obtain ⟨c, hc⟩ := hpix _ hlt
  obtain ⟨hself, -⟩ := pixel_ok.mp hc
  exact hself.false

/-- From `s` to `t`, with `CMAP_FROZEN = 1`, the replica at the present port has expanded the positions
`ps` one after the other, and nothing else has happened. -/
def Expands (ps : List Nat) (s t : State) : Prop :=
  ∃ u rgb, AtCexu s u ∧ s.cmapFrozen = true ∧ expandScalar s u ps u.rgb = .ok rgb ∧
    t = s.setCexu s.port { u with rgb := rgb }

theorem execCexpPix_next_iff_expands {p : BitVec 16} {s t : State} :
    execCexpPix p s = .next t ↔ Expands [p.toNat] s t := by
  refine execCexpPix_next.trans (exists_congr fun u => ?_)
  simp only [expandScalar_singleton]
  constructor
  · rintro ⟨c, hu, hf, hc, ht⟩
    exact ⟨_, hu, hf, ⟨c, hc, rfl⟩, ht⟩
  · rintro ⟨_, hu, hf, ⟨c, hc, rfl⟩, ht⟩
    exact ⟨c, hu, hf, hc, ht⟩

theorem execCexpRowS_next_iff_expands {n : BitVec 16} {s t : State} :
    execCexpRowS n s = .next t ↔ Expands (List.range n.toNat) s t := by
  refine execCexpRowS_next.trans (exists₂_congr fun u rgb => and_congr_right fun _ => ?_)
  constructor
  · rintro ⟨hr, hx, ht⟩
    obtain ⟨hf, -⟩ := requireRow_ok.mp hr
    exact ⟨hf, hx, ht⟩
  · rintro ⟨hf, hx, ht⟩
    exact ⟨requireRow_of_expandScalar hf hx, hx, ht⟩

/-- Everything an expansion can do, whichever of the three it is. -/
theorem exec_expansion_next {i : Instr} (hi : isExpansion i = true) {s t : State} :
    exec i s = .next t ↔ Expands (expandedPositions i) s t := by
  cases i with
  | cexpPix p => exact execCexpPix_next_iff_expands
  | cexpRowS n => exact execCexpRowS_next_iff_expands
  | cexpRowP n =>
    exact execCexpRowP_next_iff_execCexpRowS_next.trans execCexpRowS_next_iff_expands
  | dctRow _ | dctCol _ | dctFwdS | dctFwdP | cmapPublish _ | cmapRelease => cases hi

/-! ### The result (R140, R143, R151) -/

/-- Settles O42: the position's colour is written to its triplet. -/
theorem expandPixelResult : Obligations.ExpandPixelResult := by
  intro p s u i r g b hu hf hp hi hl hr hg hb
  have hc : pixel s u p.toNat = .ok ⟨r, g, b⟩ := pixel_ok.mpr ⟨hp, i, hi, hl, hr, hg, hb⟩
  refine ⟨writeTriplet u.rgb p.toNat ⟨r, g, b⟩, execCexpPix_next.mpr ⟨u, _, hu, hf, hc, rfl⟩,
    read_writeTriplet_own _ _ _ .r, read_writeTriplet_own _ _ _ .g, read_writeTriplet_own _ _ _ .b,
    fun k h0 h1 h2 => ?_⟩
  rw [read_writeTriplet, if_neg h0, if_neg h1, if_neg h2]

/-- An expanded position has in each channel what the colormap has at its palette index. -/
theorem expandScalar_read_channel {s : State} {u : Cexu} {ps : List Nat} {rgb rgb' : Memory} {p : Nat}
    {i : Byte} (h : expandScalar s u ps rgb = .ok rgb') (hp : p ∈ ps) (hi : u.idx.read p = some i)
    (ch : Channel) :
    rgb'.read (tripletElement p ch) = (s.cmap.channel ch).read i.toNat ∧
      ((s.cmap.channel ch).read i.toNat).isSome = true := by
  obtain ⟨c, hc⟩ := (expandScalar_isOk ps rgb).mp ⟨rgb', h⟩ p hp
  rw [(expandScalar_read h).1 p hp c hc ch, pixel_channel hc hi ch]
  exact ⟨rfl, rfl⟩

/-- Settles O43: a frozen colormap is populated, so every position has a colour; what the row leaves in
`RGB` is what the expansion of its positions leaves. -/
theorem expandRowResult : Obligations.ExpandRowResult := by
  intro n i s u h hi hu hf hrow
  have hr : requireRow s u n = .ok () := (requireRow_ok_iff_rowReady h.frozen).mpr ⟨hf, hrow⟩
  obtain ⟨rgb, hx⟩ := expandScalar_isOk_of_requireRow hr u.rgb
  have hexp : exec i s = .next (s.setCexu s.port { u with rgb := rgb }) := by
    rcases hi with rfl | rfl <;> exact (exec_expansion_next rfl).mpr ⟨u, rgb, hu, hf, hx, rfl⟩
  refine ⟨rgb, hexp, fun p ix hp hix => ?_, fun k hk => ?_⟩
  · have hch := expandScalar_read_channel hx (List.mem_range.mpr hp) hix
    exact ⟨(hch .r).1, (hch .g).1, (hch .b).1, fun ch => (hch ch).2⟩
  · refine (expandScalar_read hx).2 k fun hmem => ?_
    have hlt := List.mem_range.mp hmem
    omega

/-! ### A row as its positions (R145) -/

/-- What a replica holds in `RGB` has no part in the colour of a position. -/
theorem pixel_setCexu (s : State) (k : Nat) (v u : Cexu) (m : Memory) (p : Nat) :
    pixel (s.setCexu k v) { u with rgb := m } p = pixel s u p := rfl

/-- Nor in what an expansion makes of a given memory. -/
theorem expandScalar_setCexu (s : State) (k : Nat) (v u : Cexu) (m : Memory) (ps : List Nat)
    (rgb : Memory) :
    expandScalar (s.setCexu k v) { u with rgb := m } ps rgb = expandScalar s u ps rgb := by
  induction ps generalizing rgb with
  | nil => rfl
  | cons p ps ih => simp only [expandScalar, pixel_setCexu, ih]

/-- `CEXP_PIX` operations one after the other do what the expansion of their positions does. -/
theorem runAll_cexpPix {s : State} {u : Cexu} {ps : List (BitVec 16)} {rgb rgb' : Memory}
    (hu : AtCexu s u) (hf : s.cmapFrozen = true)
    (hx : expandScalar s u (ps.map BitVec.toNat) rgb = .ok rgb') :
    runAll (ps.map Instr.cexpPix) (s.setCexu s.port { u with rgb := rgb }) =
      .next (s.setCexu s.port { u with rgb := rgb' }) := by
  induction ps generalizing rgb with
  | nil => cases hx; rfl
  | cons p ps ih =>
    rw [List.map_cons, expandScalar] at hx
    split at hx
    · rename_i c hc
      have hat : AtCexu (s.setCexu s.port { u with rgb := rgb }) { u with rgb := rgb } :=
        State.setCexu_same _ hu
      have hstep : exec (.cexpPix p) _ = .next _ :=
        execCexpPix_next.mpr ⟨_, c, hat, hf, (pixel_setCexu ..).trans hc, rfl⟩
      rw [List.map_cons, runAll_cons_next hstep, State.setCexu_port, State.setCexu_twice]
      exact ih hx
    · cases hx

/-- Settles O45: the positions in any order leave what the positions in ascending order leave. -/
theorem rowDecomposesInAnyOrder : Obligations.RowDecomposesInAnyOrder := by
  intro n s u ps h hu hf hrow hps
  have hr : requireRow s u n = .ok () := (requireRow_ok_iff_rowReady h.frozen).mpr ⟨hf, hrow⟩
  obtain ⟨-, -, hpix⟩ := requireRow_ok.mp hr
  obtain ⟨rgb, hx⟩ := expandScalar_isOk_of_requireRow hr u.rgb
  obtain ⟨hwf, -⟩ := (h.atCexu hu).rgb
  have hany : expandScalar s u (ps.map BitVec.toNat) u.rgb = .ok rgb :=
    (expandScalar_perm hps (hps.nodup_iff.mpr List.nodup_range) hwf fun p hp =>
      hpix p (List.mem_range.mp (hps.mem_iff.mp hp))).trans hx
  have hrun := runAll_cexpPix hu hf hany
  rw [State.setCexu_self hu] at hrun
  have hS := execCexpRowS_next.mpr ⟨u, rgb, hu, hr, hx, rfl⟩
  exact ⟨_, hS, (rowStrategiesAgree n s).trans hS, hrun⟩

/-! ### A repeated expansion (R149) -/

/-- Every byte of `RGB` stands in the triplet of a position. -/
theorem exists_tripletElement (a : Nat) : ∃ ch, tripletElement (a / 3) ch = a := by
  have hlt := Nat.mod_lt a (show 0 < 3 by decide)
  have ha := Nat.div_add_mod a 3
  interval_cases hm : a % 3
  · exact ⟨.r, ha⟩
  · exact ⟨.g, ha⟩
  · exact ⟨.b, ha⟩

/-- Expanding the same positions again writes the bytes that are there. -/
theorem expandScalar_repeat {s : State} {u : Cexu} {ps : List Nat} {rgb rgb' : Memory}
    (h : expandScalar s u ps rgb = .ok rgb') (hw : rgb.wf = true) :
    expandScalar s u ps rgb' = .ok rgb' := by
  have hpix := (expandScalar_isOk ps rgb).mp ⟨rgb', h⟩
  obtain ⟨rgb'', h'⟩ := (expandScalar_isOk ps rgb').mpr hpix
  have hwf := expandScalar_wf h hw
  obtain ⟨hin, -⟩ := expandScalar_read h
  obtain ⟨hin', hout'⟩ := expandScalar_read h'
  have heq : rgb'' = rgb' := by
    refine Memory.ext (expandScalar_wf h' hwf) hwf fun a => ?_
    by_cases ha : a / 3 ∈ ps
    · obtain ⟨c, hc⟩ := hpix _ ha
      obtain ⟨ch, hch⟩ := exists_tripletElement a
      rw [← hch, hin _ ha c hc ch, hin' _ ha c hc ch]
    · exact hout' a ha
  rw [h', heq]

/-- Settles O47: the second expansion reads the same colours and writes the same bytes. -/
theorem expansionIsIdempotent : Obligations.ExpansionIsIdempotent := by
  intro i s t h hi he
  obtain ⟨u, rgb, hu, hf, hx, rfl⟩ := (exec_expansion_next hi).mp he
  obtain ⟨hwf, -⟩ := (h.atCexu hu).rgb
  refine (exec_expansion_next hi).mpr ⟨_, rgb, State.setCexu_same _ hu, hf, ?_, ?_⟩
  · exact (expandScalar_setCexu ..).trans (expandScalar_repeat hx hwf)
  · exact (State.setCexu_twice ..).symm

/-! ### What an expansion refuses (R148) -/

/-- A position that is not in contract makes every expansion that names it refuse. -/
theorem exec_expansion_refuses {i : Instr} (hi : isExpansion i = true) {s : State} {u : Cexu}
    {p : Nat} (hu : AtCexu s u) (hp : p ∈ expandedPositions i) (hbad : ¬PositionReady s u p) :
    Refuses (exec i s) := by
  refine (refuses_iff _).mpr fun t ht => ?_
  obtain ⟨v, rgb, hv, -, hx, -⟩ := (exec_expansion_next hi).mp ht
  cases hu.unique hv
  obtain ⟨c, hc⟩ := (expandScalar_isOk _ _).mp ⟨rgb, hx⟩ p hp
  exact hbad (.of_pixel hc)

/-- Settles O48: each of the three names the position, which is not in contract. -/
theorem invalidIndexRefuses : Obligations.InvalidIndexRefuses := by
  intro n p s u hu hpn hbad
  have hnot : ¬PositionReady s u p.toNat := by
    rintro ⟨-, ix, hix, hlt⟩
    exact (hbad ix hix).not_gt hlt
  have hmem : p.toNat ∈ List.range n.toNat := List.mem_range.mpr hpn
  exact ⟨exec_expansion_refuses rfl hu (List.mem_singleton_self _) hnot,
    exec_expansion_refuses rfl hu hmem hnot, exec_expansion_refuses rfl hu hmem hnot⟩

/-! ### The frame of an expansion -/

/-- Every byte outside the triplets of the positions stays. -/
theorem expandScalar_read_outside {s : State} {u : Cexu} {ps : List Nat} {rgb rgb' : Memory} {k : Nat}
    (h : expandScalar s u ps rgb = .ok rgb') (hk : ∀ p ∈ ps, ∀ ch, k ≠ tripletElement p ch) :
    rgb'.read k = rgb.read k := by
  refine (expandScalar_read h).2 k fun hmem => ?_
  obtain ⟨ch, hch⟩ := exists_tripletElement k
  exact hk _ hmem ch hch.symm

/-- Settles O49: an expansion writes one replica's `RGB`, and there the triplets of its positions. -/
theorem expansionFrame : Obligations.ExpansionFrame := by
  intro i s t hi he
  obtain ⟨u, rgb, hu, -, hx, rfl⟩ := (exec_expansion_next hi).mp he
  refine ⟨rfl, rfl, rfl, rfl, rfl, rfl, rfl, rfl, fun k hk => State.setCexu_other s _ hk,
    u, _, hu, State.setCexu_same _ hu, fun _ => rfl, rfl, fun k hk => ?_⟩
  refine expandScalar_read_outside hx ?_
  cases i with
  | cexpPix p => exact List.forall_mem_singleton.mpr hk
  | cexpRowS n | cexpRowP n => exact fun p hp ch => hk p ch (List.mem_range.mp hp)
  | dctRow _ | dctCol _ | dctFwdS | dctFwdP | cmapPublish _ | cmapRelease => cases hi

end Sys2Proof.Machine
end

section
/-! SUPPORT. Between operations and in the middle of one (60_exceptions.md R175, R183). The pieces left of
an operation, performed in ascending order, lead to the very state in which `settle` completes it, so a
primitive that waits for the replica acts alike before and after them. -/

namespace Sys2Proof.Machine

/-- Settles O9: the step of an empty list of inputs is the idle one. -/
theorem idleStepHoldsTheState : Obligations.IdleStepHoldsTheState := fun s h => by rw [step, h]

/-! ### The pieces left, in ascending order (R114, R144) -/

/-- What is left of `l` after `done`, and `done`, make up `l`. -/
theorem filter_notMem_append_perm {α : Type} [DecidableEq α] {l done : List α} (hl : l.Nodup)
    (hd : done.Nodup) (hsub : ∀ x ∈ done, x ∈ l) : (l.filter (fun x => x ∉ done) ++ done).Perm l := by
  have hdisj : List.Disjoint (l.filter fun x => x ∉ done) done := fun x hx hxd => by
    simp [hxd] at hx
  refine (List.perm_ext_iff_of_nodup ((hl.filter _).append hd hdisj) hl).mpr fun x => ?_
  by_cases hx : x ∈ done
  · simp [hx, hsub x hx]
  · simp [hx]

theorem linesLeft_append_perm {done : List (BitVec 3)} (hd : done.Nodup) :
    (linesLeft done ++ done).Perm eightLines :=
  filter_notMem_append_perm eightLines_nodup hd fun n _ => mem_eightLines n

theorem positionsLeft_append_perm {n : BitVec 16} {done : List Nat} (hd : done.Nodup)
    (hlt : ∀ p ∈ done, p < n.toNat) : (positionsLeft n done ++ done).Perm (List.range n.toNat) :=
  filter_notMem_append_perm List.nodup_range hd fun p hp => List.mem_range.mpr (hlt p hp)

theorem performAll_keeps_inv {es : List Event} {s t : State} (h : s.Inv)
    (he : performAll es s = .next t) : t.Inv := by
  induction es generalizing s with
  | nil => cases he; exact h
  | cons e es ih =>
    rw [performAll] at he
    split at he
    · exact ih (perform_keeps_inv h ‹_›) he
    · cases he
    · cases he

/-! ### What is in progress can be completed in pieces -/

section
variable {s : State} (h : s.Inv)
include h

/-- The lines left of a pass can all be performed, and do what the rest of the pass does. -/
theorem performAll_linesLeft {u : Dctu} {pass : Stage} {done : List (BitVec 3)} (hu : AtDctu s u)
    (hp : u.progress = .forward pass done) :
    ∃ (b : Block) (done' : List (BitVec 3)), done'.length = 8 ∧
      passChecked s.cfg pass (linesLeft done) u.blk = .ok b ∧
      performAll ((linesLeft done).map fun n => Event.work .dctu s.port n.toNat) s =
        .next (s.setDctu s.port ⟨b, afterLine pass done'⟩) := by
  have hok := (h.atDctu hu).progress
  rw [hp] at hok
  obtain ⟨hnd, hl, -, hleft⟩ := hok.pass
  have hperm := linesLeft_append_perm hnd
  have hlen : (linesLeft done).length + done.length = 8 :=
    List.length_append.symm.trans hperm.length_eq
  have hb := passChecked_ok (eightLines_nodup.filter _) fun n hn =>
    hleft n (of_decide_eq_true (List.mem_filter.mp hn).2)
  have hwork := performAll_lineWork hu (by omega) (hperm.nodup_iff.mpr eightLines_nodup) hb
  rw [afterLine_of_lt hl, ← hp, State.setDctu_self hu] at hwork
  exact ⟨_, _, by simpa using hlen, hb, hwork⟩

/-- The pieces left of a `DCT_FWD` can all be performed, and complete it. -/
theorem performAll_forwardLeft {u : Dctu} {pass : Stage} {done : List (BitVec 3)} (hu : AtDctu s u)
    (hp : u.progress = .forward pass done) :
    ∃ (ns : List (BitVec 3)) (u' : Dctu), u.finish s.cfg = .ok u' ∧
      performAll (ns.map fun n => Event.work .dctu s.port n.toNat) s =
        .next (s.setDctu s.port u') := by
  obtain ⟨b, done', hdone, hb, hwork⟩ := performAll_linesLeft h hu hp
  cases pass with
  | col =>
    rw [(afterLine_of_eight hdone).2] at hwork
    exact ⟨_, _, by simp only [Dctu.finish, hp, hb, Except.map], hwork⟩
  | row =>
    rw [(afterLine_of_eight hdone).1] at hwork
    obtain ⟨b', done'', hdone', hb', hwork'⟩ := performAll_linesLeft (performAll_keeps_inv h hwork)
      (State.setDctu_same _ hu) (afterLine_of_lt (pass := .col) (done := []) (by decide))
    rw [(afterLine_of_eight hdone').2] at hwork'
    refine ⟨linesLeft done ++ eightLines, ⟨b', .idle⟩, ?_, ?_⟩
    · have hcols : passChecked s.cfg .col eightLines b = .ok b' := hb'
      simp only [Dctu.finish, hp, hb, hcols, Except.map]
    · rw [List.map_append, performAll_append hwork]
      exact hwork'.trans (congrArg _ (State.setDctu_twice ..))

/-- The positions left of a `CEXP_ROW` can all be performed, and complete it. -/
theorem performAll_positionsLeft {u : Cexu} {n : BitVec 16} {done : List Nat} (hu : AtCexu s u)
    (hp : u.progress = .row n done) :
    ∃ u', u.finish s = .ok u' ∧
      performAll ((positionsLeft n done).map fun p => Event.work .cexu s.port p) s =
        .next (s.setCexu s.port u') := by
  have hok := (h.atCexu hu).progress
  rw [hp] at hok
  obtain ⟨hnd, hl, hlt, hf, -, hready⟩ := hok
  have hperm := positionsLeft_append_perm hnd hlt
  have hlen : (positionsLeft n done).length + done.length = n.toNat :=
    (List.length_append.symm.trans hperm.length_eq).trans List.length_range
  have hmem : ∀ p ∈ positionsLeft n done, p < n.toNat := fun p hp' =>
    List.mem_range.mp (List.mem_filter.mp hp').1
  obtain ⟨rgb, hx⟩ := (expandScalar_isOk _ u.rgb).mpr fun p hp' =>
    (hready p (hmem p hp')).hasPixel (h.frozen hf)
  have hwork := performAll_positionWork hu hf (by omega) hmem
    (hperm.nodup_iff.mpr List.nodup_range) hx
  have hbegun : afterPosition n done = u.progress := by rw [hp]; exact if_neg (by omega)
  have hdone : afterPosition n ((positionsLeft n done).reverse ++ done) = .idle :=
    if_pos (by simpa using hlen)
  rw [hbegun, hdone, State.setCexu_self hu] at hwork
  exact ⟨_, by simp only [Cexu.finish, hp, expandFrozen_ok.mpr ⟨hf, hx⟩, Except.map], hwork⟩

/-- What a replica is in the middle of can be completed in pieces, which leaves what `settle` leaves. -/
theorem exists_work_settles {unit : FuncUnit} (hbusy : ¬IdleAt s unit s.port) :
    ∃ (js : List Nat) (s' : State), performAll (js.map (Event.work unit s.port)) s = .next s' ∧
      settle (some unit) s = .ok s' := by
  cases unit with
  | dctu =>
    obtain ⟨u, hu, hidle⟩ : ∃ u, AtDctu s u ∧ u.progress ≠ .idle := by
      simpa [IdleAt, AtDctu] using hbusy
    cases hp : u.progress with
    | idle => exact absurd hp hidle
    | forward pass done =>
      obtain ⟨ns, u', hf, hwork⟩ := performAll_forwardLeft h hu hp
      refine ⟨ns.map BitVec.toNat, _, ?_, settle_dctu.mpr (.inr ⟨u, u', hu, hf, rfl⟩)⟩
      rw [List.map_map]
      exact hwork
  | cexu =>
    obtain ⟨u, hu, hidle⟩ : ∃ u, AtCexu s u ∧ u.progress ≠ .idle := by
      simpa [IdleAt, AtCexu] using hbusy
    cases hp : u.progress with
    | idle => exact absurd hp hidle
    | row n done =>
      obtain ⟨u', hf, hwork⟩ := performAll_positionsLeft h hu hp
      exact ⟨_, _, hwork, settle_cexu.mpr (.inr ⟨u, u', hu, hf, rfl⟩)⟩

end

/-! ### A primitive in the middle of an operation (R175, R59) -/

/-- What waits for the replica does the same once the replica is settled. -/
theorem onceSettled_of_settle {unit : FuncUnit} {s s' : State}
    (hs : settle (some unit) s = .ok s') (f : State → Host.Outcome State Fault Refusal) :
    onceSettled (some unit) s f = onceSettled (some unit) s' f := by
  rw [onceSettled_idle (settle_idleAt hs), onceSettled, hs]

/-- The first piece brings its port with it. -/
theorem performAll_work_port {js : List Nat} (hjs : js ≠ []) (unit : FuncUnit) (k : Nat) (s : State) :
    performAll (js.map (Event.work unit k)) { s with port := k } =
      performAll (js.map (Event.work unit k)) s := by
  cases js with
  | nil => exact absurd rfl hjs
  | cons j js => rfl

/-- Settles O59: the pieces left lead to the settled state, on which the primitive acts. -/
theorem primitiveTakesEffectAfterTheOperation :
    Obligations.PrimitiveTakesEffectAfterTheOperation := by
  intro s unit k h hbusy
  have h' : ({ s with port := k } : State).Inv := h.hostSide k s.inputs s.replies
  have hbusy' : ¬IdleAt { s with port := k } unit k := by cases unit <;> exact hbusy
  obtain ⟨js, s', hwork, hs⟩ := exists_work_settles h' hbusy'
  obtain ⟨hport, -⟩ := settle_port_cmapLen hs
  obtain rfl : s'.port = k := hport
  have hidle := settle_idleAt hs
  have hsame := onceSettled_of_settle hs
  refine ⟨js, s', ?_, hidle, fun p hp => ?_, fun w hw => ?_⟩
  · rw [← hwork, performAll_work_port]
    rintro rfl
    injection hwork with hstill
    rw [hstill] at hbusy'
    exact hbusy' hidle
  · simp only [perform, hp, hsame]
  · simp only [perform, hw, hsame]

end Sys2Proof.Machine
end

section
/-! PROOFS. The reset event (70_reset_and_hazards.md R190): it gives the reset table's state (10_state.md
R34) whatever the block was in the middle of. -/

namespace Sys2Proof.Machine

/-! ### What a reset leaves undefined (R34, R12) -/

@[simp] theorem Block.reset_get (i : Fin 64) : Block.reset.get i = none := by
  have hdefd : Block.reset.defd[i] = false := by simp [Block.reset]
  rw [Block.get, hdefd, if_neg Bool.false_ne_true]

/-- The empty colormap has no entry in any channel. -/
theorem State.resetOf_cmap_read (c : Config) (ch : Channel) (i : Nat) :
    ((State.resetOf c).cmap.channel ch).read i = none := by
  cases ch <;> exact Memory.read_nil i

/-- Every replica of the DCT unit is idle, with no element of its block defined. -/
theorem State.resetOf_dctu {c : Config} {u : Dctu} (hu : u ∈ (State.resetOf c).dctus) :
    u.progress = .idle ∧ ∀ i : Fin 64, u.blk.get i = none := by
  obtain rfl := List.eq_of_mem_replicate hu
  exact ⟨rfl, Block.reset_get⟩

/-- Every replica of the colour-expansion unit is idle, with no element of its row buffers defined. -/
theorem State.resetOf_cexu {c : Config} {u : Cexu} (hu : u ∈ (State.resetOf c).cexus) :
    u.progress = .idle ∧ (∀ p, u.idx.read p = none) ∧ ∀ k, u.rgb.read k = none := by
  obtain rfl := List.eq_of_mem_replicate hu
  exact ⟨rfl, Memory.read_nil, Memory.read_nil⟩

theorem State.resetOf_cmapStatus (c : Config) : (State.resetOf c).cmapStatus = 0x00000000 :=
  show statusWord 0 false = 0x00000000 by decide

/-! ### The event (R190) -/

/-- The step of a reset event, for any state the block was in. -/
theorem step_reset {s : State} {rest : List Event} (h : s.inputs = .reset :: rest) :
    step s = .next { State.resetOf s.cfg with inputs := rest, replies := s.replies } :=
  step_of_inputs h

/-- Settles O10: the step gives the reset state of the block's own parameters, whose fields the lemmas
above describe, beside the host's lists. -/
theorem resetFromAnyState : Obligations.ResetFromAnyState := fun s _ h =>
  ⟨_, step_reset h, State.resetOf_cfg s.cfg, State.resetOf_cmapLen s.cfg, State.resetOf_cmapFrozen s.cfg,
    State.resetOf_cmapStatus s.cfg, List.length_replicate, List.length_replicate,
    State.resetOf_cmap_read s.cfg, fun _ => State.resetOf_dctu (c := s.cfg),
    fun _ => State.resetOf_cexu (c := s.cfg), rfl, rfl⟩

end Sys2Proof.Machine
end
